-- ==== Sys2Proof/Word.lean ====
section
/-! DEFINITION. The word types of the block (00_scope R12, R13): raw bytes, 16-bit samples, 32-bit bus words and registers,
64-bit accumulator cells, and one I/Q pair. -/

namespace Sys2Proof

/-- A raw sample, or one byte of memory (R12: "raw samples 8 bits unsigned"). -/
abbrev Byte := BitVec 8

/-- A working sample or window coefficient (R12: 16 bits two's complement). -/
abbrev Sample := BitVec 16

/-- A register, a bus address or a bus data word (R13). -/
abbrev Word := BitVec 32

/-- A bin accumulator, or a frequency of the span registers (R12, R47). -/
abbrev DWord := BitVec 64

/-- One I/Q pair of the working buffer: I first, Q second (R19). -/
abbrev Pair := Sample × Sample

end Sys2Proof
end

