-- ==== Sys2Proof/Config.lean ====
section
/-! DEFINITION. What an implementation fixes (00_scope R6 to R11) and the free values of the spec. The `opaque` constants have
no body: nothing in Lean can evaluate them, so a statement about them holds whatever they are. -/

namespace Sys2Proof

/-- The parameters of one instance of the hardware, fixed at manufacture (R6, R7, R8). They stand in the state as a field that
no step writes, so that a statement over all states is a statement over all instances (log 1). -/
structure Params where
  /-- FFT_LOG2_MAX, the largest legal bin-count exponent (R6). -/
  fftLog2Max : Nat
  /-- RAW_CAP, the bytes of RAW and the elements of WORK (R7). -/
  rawCap : Nat
  /-- COMP_TABLE: row r of R8 is entry r - 1, each row nine signed taps; the length is COMP_TABLE_MAX (R8, R55). -/
  compTable : List (List Int)
  deriving DecidableEq, Repr

namespace Config

/-- COMP_TABLE_MAX of the instance at reset: OPEN (R8, D13), so free; it fits the 8 bits PARAMS gives it (R34) (log 2, DEDUCED). -/
opaque compRows : BitVec 8

/-- The taps c[0..4] of row r of COMP_TABLE at reset: OPEN (R8, D13), so free; 18 bits two's complement is exactly R8's bound (log 2). -/
opaque compTap (r t : Nat) : BitVec 18

/-- Row r of COMP_TABLE: nine taps, symmetric because c[5..8] mirror c[3..0] (R8: c[t] = c[8-t]). -/
def compRow (r : Nat) : List Int := (List.range 9).map fun t => (compTap r (min t (8 - t))).toInt

/-- The COMP_TABLE of the instance at reset: rows 1..COMP_TABLE_MAX (R8). -/
def compTable : List (List Int) := (List.range compRows.toNat).map fun k => compRow (k + 1)

/-- The instance at reset: FFT_LOG2_MAX and RAW_CAP at the spec's defaults (R6, R7), the compensation table free (log 1, log 2). -/
def params : Params := { fftLog2Max := 16, rawCap := 2 ^ 20, compTable := compTable }

/-- FFT_N (R11, D15, U4): bin `k` of the transform of `2 ^ e` complex samples (I real, Q imaginary). OPEN: a free function of the
exponent and the samples of one block alone (log 3). -/
opaque fftBin (e : Nat) (z : List Pair) (k : Nat) : Pair

/-- The word the n-th draw gives: what the bits of an unwritten cell, or of a read taken while a command runs, read as
(R56, R83, R351; U14, U15) (log 9). -/
opaque draw (n : Nat) : Word

/-- The n-th choice between the two neighbours of a rounding tie: true takes the upper (R231; U3) (log 10). -/
opaque tieUpper (n : Nat) : Bool

end Config

end Sys2Proof
end

