-- ==== Sys2Proof/Machine/Arith.lean ====
section
/-! DEFINITION. Arithmetic on mathematical integers (00_scope R15, R16) and the logarithm primitive LOG10C (42_power_reducer R230
to R233). Values are computed exactly and narrowed only where the spec stores them. -/

namespace Sys2Proof.Machine

/-- asr(v, s) = floor(v / 2^s) (R16). -/
def asr (v : Int) (s : Nat) : Int := v / ((2 ^ s : Nat) : Int)

/-- wrap16 at the store of a sample: the 16-bit two's-complement pattern congruent to v (R16). -/
def wrap16 (v : Int) : Sample := BitVec.ofInt 16 v

/-- The greatest k below `acc + 2 ^ bits` with `p k`, found bit by bit from the top; for a `p` that holds at `acc` and that fails
everywhere above where it first fails. -/
def greatest (p : Nat → Bool) : (bits acc : Nat) → Nat
  | 0, acc => acc
  | b + 1, acc => if p (acc + 2 ^ b) then greatest p b (acc + 2 ^ b) else greatest p b acc

/-- The integer square root: the greatest k with k² ≤ n. -/
def isqrt (n : Nat) : Nat := greatest (fun k => decide (k * k ≤ n)) (n.log2 / 2 + 1) 0

/-- `10 ^ e * y ≤ x` for an integer exponent, kept in natural numbers. -/
def tenPowLe (e : Int) (y x : Nat) : Bool :=
  if 0 ≤ e then decide (10 ^ e.toNat * y ≤ x) else decide (y ≤ x * 10 ^ (-e).toNat)

/-- An integer bound below LOG10C(f, a/b): minus this number. -/
def logOffset (f b : Nat) : Nat := f * (b.log2 + 1)

/-- LOG10C(f, a/b) for a rational ratio a/b > 0 (R230): the n with 10^(2n-1) < (a/b)^(2f) < 10^(2n+1), which is the greatest n with
10^(2n-1) ≤ (a/b)^(2f), because a rational ratio has no ties (R231). -/
def log10c (f a b : Nat) : Int :=
  let off := logOffset f b
  let x := a ^ (2 * f)
  let y := b ^ (2 * f)
  (greatest (fun k => tenPowLe (2 * ((k : Int) - off) - 1) y x) ((off + f * (a.log2 + 1) + 1).log2 + 1) 0 : Int) - off

/-- The sentinel "no value", 0x8000_0000 (R46, R232). -/
def sentinel : Word := 0x80000000

/-- Saturation of a computed dB value to -(2^31-1) .. 2^31-1 (R233). -/
def saturate (n : Int) : Int := max (-(2 ^ 31 - 1)) (min (2 ^ 31 - 1) n)

/-- A dB value as it is stored in a register or an OUT cell: saturated, 32 bits two's complement (R233, R46, R54). -/
def dbWord (n : Int) : Word := BitVec.ofInt 32 (saturate n)

/-- The nearest integer to a real number known by its bounds: one integer, or either of `upper - 1` and `upper` (R231). -/
inductive Nearest where
  /-- Exactly one integer is nearest. -/
  | exact (n : Int)
  /-- A tie: the two neighbours `upper - 1` and `upper` are equally near. -/
  | either (upper : Int)
  deriving DecidableEq, Repr

/-- Bounds of 2^k · (√(S·n) − Σ √m) for the magnitudes ms of n pairs with sum S (R235: n·(rms − dc), since rms = √(S/n) and
dc = (Σ √m)/n). -/
def dcBounds (ms : List Nat) (k : Nat) : Nat × Nat :=
  let q := 4 ^ k
  let root := isqrt (ms.sum * ms.length * q)
  (root - (ms.map fun m => isqrt (m * q) + 1).sum, root + 1 - (ms.map fun m => isqrt (m * q)).sum)

/-! ## Sums of square roots, compared exactly

RMS_DC_DB takes the logarithm of a sum of square roots (R235). `Surd ds` is the ring of the numbers a + b√d, d the head of `ds`, with
a and b over the tail; the sign of such a number is found by comparing a² with b²d. -/

/-- Integer combinations of products of the square roots of `ds`. -/
def Surd : List Nat → Type
  | [] => Int
  | _ :: ds => Surd ds × Surd ds

/-- An integer as a surd. -/
def surdInt : (ds : List Nat) → Int → Surd ds
  | [], z => z
  | _ :: ds, z => (surdInt ds z, surdInt ds 0)

/-- The sum of two surds. -/
def surdAdd : (ds : List Nat) → Surd ds → Surd ds → Surd ds
  | [], x, y => Int.add x y
  | _ :: ds, x, y => (surdAdd ds x.1 y.1, surdAdd ds x.2 y.2)

/-- The negative of a surd. -/
def surdNeg : (ds : List Nat) → Surd ds → Surd ds
  | [], x => Int.neg x
  | _ :: ds, x => (surdNeg ds x.1, surdNeg ds x.2)

/-- The product of two surds: (a + b√d)(a' + b'√d) = (aa' + d·bb') + (ab' + ba')√d. -/
def surdMul : (ds : List Nat) → Surd ds → Surd ds → Surd ds
  | [], x, y => Int.mul x y
  | d :: ds, x, y =>
    (surdAdd ds (surdMul ds x.1 y.1) (surdMul ds (surdInt ds d) (surdMul ds x.2 y.2)),
     surdAdd ds (surdMul ds x.1 y.2) (surdMul ds x.2 y.1))

/-- A power of a surd. -/
def surdPow (ds : List Nat) (x : Surd ds) : Nat → Surd ds
  | 0 => surdInt ds 1
  | n + 1 => surdMul ds (surdPow ds x n) x

/-- The sign of a + b√d: that of a and b where they agree or one is 0, else decided by a² − d·b². -/
def surdSign : (ds : List Nat) → Surd ds → Int
  | [], x => Int.sign x
  | d :: ds, x =>
    let a := surdSign ds x.1
    let b := if d = 0 then 0 else surdSign ds x.2
    if b = 0 ∨ a = b then a
    else if a = 0 then b
    else a * surdSign ds (surdAdd ds (surdMul ds x.1 x.1) (surdNeg ds (surdMul ds (surdInt ds d) (surdMul ds x.2 x.2))))

/-- The sum of the square roots of a list. -/
def surdRoots : (ds : List Nat) → Surd ds
  | [] => (0 : Int)
  | _ :: ds => (surdRoots ds, surdInt ds 1)

/-- √(S·n) − Σ √m for the n magnitudes ms with sum S: n·(rms − dc) (R235). -/
def dcSurd (ms : List Nat) : Surd ((ms.sum * ms.length) :: ms) := (surdNeg ms (surdRoots ms), surdInt ms 1)

/-- The sign of ((rms − dc)/ref)^4000 − 10^(2n-1), with ref = refNum / refDen: the test of R230 for f = 2000, exact. -/
def dcCompare (ms : List Nat) (refNum refDen : Nat) (n : Int) : Int :=
  let ds := (ms.sum * ms.length) :: ms
  let up : Nat := refDen ^ 4000 * 10 ^ (1 - 2 * n).toNat
  let down : Nat := (refNum * ms.length) ^ 4000 * 10 ^ (2 * n - 1).toNat
  surdSign ds (surdAdd ds (surdMul ds (surdInt ds up) (surdPow ds (dcSurd ms) 4000)) (surdInt ds (-(down : Int))))

/-- LOG10C(2000, (rms − dc)/ref) decided exactly for rms > dc (R230, R235): the greatest n with 10^(2n-1) ≤ r^4000; where that is an
equality, r is a tie and both n and n - 1 are nearest (R231). Below the range a register can show, the least value of it
(R233). -/
def dcExact (ms : List Nat) (refNum refDen : Nat) : Nearest :=
  let low : Int := -(2 ^ 31 - 1)
  let n := low + greatest (fun k => decide (0 ≤ dcCompare ms refNum refDen (low + k))) 32 0
  if dcCompare ms refNum refDen n = 0 then .either n else .exact n

/-- LOG10C(2000, (rms − dc)/ref) (R235, R231) with ref = refNum / refDen: first from bounds of the argument, the precision doubled at
each round until both bounds have one nearest integer, and exactly when the rounds are used up. -/
def dcNearest (ms : List Nat) (refNum refDen : Nat) : (rounds k : Nat) → Nearest
  | 0, _ => dcExact ms refNum refDen
  | r + 1, k =>
    let b := dcBounds ms k
    let den := refNum * ms.length * 2 ^ k
    if 0 < b.1 ∧ log10c 2000 (refDen * b.1) den = log10c 2000 (refDen * b.2) den then
      .exact (log10c 2000 (refDen * b.1) den)
    else dcNearest ms refNum refDen r (2 * k)

/-- The rounds of `dcNearest`: they change how soon it answers, not what. -/
def dcRounds : Nat := 8

/-- The precision `dcNearest` starts at, in bits. -/
def dcStartBits : Nat := 64

end Sys2Proof.Machine
end

