-- ==== Sys2Proof/Syntax.lean ====
section
/-! DEFINITION. The commands: one constructor per row of the opcode map (30_encoding R113; spec/opcode_table.json). A command
carries no register number and no immediate: every operand is read from the state when it runs (R112). -/

namespace Sys2Proof

/-- The thirteen commands of R113, in the order of their operation codes. -/
inductive Instr where
  /-- NOP, 0x00 (R280). -/
  | nop
  /-- CONV, 0x01: raw bytes minus bias into WORK (R140). -/
  | conv
  /-- DCR, 0x02: DC removal per stream (R145). -/
  | dcr
  /-- BOXCAR, 0x03: boxcar integrate and decimate by D (R150). -/
  | boxcar
  /-- RDEC, 0x04: P passes of the recursive 5th-order stage (R160). -/
  | rdec
  /-- COMP, 0x05: 9-tap droop compensation (R170). -/
  | comp
  /-- WIN, 0x06: multiply every full block by the window (R200). -/
  | win
  /-- XFORM, 0x07: length-N transform of every full block (R205). -/
  | xform
  /-- ACC, 0x08: magnitude-squared and accumulate (R210). -/
  | acc
  /-- CLRACC, 0x09: zero the accumulator and the pass count (R215). -/
  | clracc
  /-- RMS, 0x0A: scalar RMS power (R235). -/
  | rms
  /-- EMIT, 0x0B: reorder, crop, dB-convert, span, reset (R250). -/
  | emit
  /-- RUN, 0x0C: one acquisition cycle routed by bin count (R285). -/
  | run
  deriving DecidableEq, Repr

end Sys2Proof
end

