-- ==== Sys2Proof/WellFormed.lean ====
section
/-! DEFINITION. Well-formedness: of a command word (30_encoding R111, R113), of an instruction, and of the parameters of an
instance (00_scope R6 to R8). A command has no operand (R112), so every `Instr` is well formed; what can be ill formed is a word
or a parameter set. -/

namespace Sys2Proof

/-- OPC, bits 7:0 of a command word (R111). -/
def opcField (w : Word) : BitVec 8 := w.extractLsb' 0 8

/-- RSV, bits 31:8 of a command word (R111). -/
def rsvField (w : Word) : BitVec 24 := w.extractLsb' 8 24

/-- The operation code is one of R113's (0x00..0x0C). -/
def opcAssigned (w : Word) : Bool := decide ((opcField w).toNat ≤ 0x0C)

/-- The reserved bits are zero (R111: "reserved; must be 0"). -/
def rsvClear (w : Word) : Bool := rsvField w == 0

/-- A legal command word: an assigned operation code and zero reserved bits (R115). -/
def wordWf (w : Word) : Bool := opcAssigned w && rsvClear w

/-- Every instruction is well formed: a command word carries no operand that could be illegal (R112). -/
def Instr.wf (_i : Instr) : Bool := true

/-- R6: FFT_LOG2_MAX in 1..25. -/
def Params.fftLegal (p : Params) : Bool := decide (1 ≤ p.fftLog2Max) && decide (p.fftLog2Max ≤ 25)

/-- R7: RAW_CAP a multiple of 4 from 4·2^FFT_LOG2_MAX up to 2^27. -/
def Params.capLegal (p : Params) : Bool :=
  decide (p.rawCap % 4 = 0) && decide (4 * 2 ^ p.fftLog2Max ≤ p.rawCap) && decide (p.rawCap ≤ 2 ^ 27)

/-- R8, one row: nine taps, each in -2^17 .. 2^17-1, symmetric. -/
def compRowLegal (c : List Int) : Bool :=
  decide (c.length = 9) && c.all (fun v => decide (-(2 ^ 17) ≤ v) && decide (v < 2 ^ 17)) && decide (c.reverse = c)

/-- R8 and R34: every row legal, and a row count that PARAMS can report in 8 bits (log 2, DEDUCED). -/
def Params.tableLegal (p : Params) : Bool := decide (p.compTable.length < 256) && p.compTable.all compRowLegal

/-- The parameter sets that 00_scope R6 to R8 allow. -/
def Params.legal (p : Params) : Bool := p.fftLegal && p.capLegal && p.tableLegal

end Sys2Proof
end

