-- ==== Sys2Proof/Decode.lean ====
section
/-! DEFINITION. The decoder of command words (30_encoding R113, R114), total on every 32-bit word and rejecting by the error's
name, and after it the encoder, written from the same opcode map. -/

namespace Sys2Proof

/-- The errors a command can end with (60_exceptions R301); the first two are the decoder's (R114). -/
inductive CmdError where
  /-- Code 1: OPC in 0x0D..0xFF (R114). -/
  | badOpcode
  /-- Code 2: OPC assigned and bits 31:8 not zero (R114). -/
  | rsvdBits
  /-- Code 3: a configuration field is illegal for the command (R302). -/
  | badConfig
  /-- Code 4: a length register is odd, above RAW_CAP or too short. -/
  | badLength
  /-- Code 5: PASS_CNT = 0 at EMIT (R250). -/
  | empty
  deriving DecidableEq, Repr

/-- R113's map from the operation code to the command. -/
def opcodeMap : Nat → Option Instr
  | 0x00 => some .nop
  | 0x01 => some .conv
  | 0x02 => some .dcr
  | 0x03 => some .boxcar
  | 0x04 => some .rdec
  | 0x05 => some .comp
  | 0x06 => some .win
  | 0x07 => some .xform
  | 0x08 => some .acc
  | 0x09 => some .clracc
  | 0x0A => some .rms
  | 0x0B => some .emit
  | 0x0C => some .run
  | _ => none

/-- Decode (R114): an unassigned operation code is reported before nonzero reserved bits. -/
def decode (w : Word) : Except CmdError Instr :=
  match opcodeMap (opcField w).toNat with
  | none => .error .badOpcode
  | some i => if rsvClear w then .ok i else .error .rsvdBits

/-- The operation code of each command (R113). -/
def opcode : Instr → BitVec 8
  | .nop => 0x00
  | .conv => 0x01
  | .dcr => 0x02
  | .boxcar => 0x03
  | .rdec => 0x04
  | .comp => 0x05
  | .win => 0x06
  | .xform => 0x07
  | .acc => 0x08
  | .clracc => 0x09
  | .rms => 0x0A
  | .emit => 0x0B
  | .run => 0x0C

/-- The command word of an instruction: RSV zero above OPC (R111, R113). -/
def encode (i : Instr) : Word := (0 : BitVec 24) ++ opcode i

/-- The instruction the decoder reads from a table word of `nbits` bits, the bits above them zero. A command is one 32-bit word
(R110), so a longer word is no command. -/
def decodeTableWord (nbits w : Nat) : Option Instr :=
  if nbits ≤ 32 then
    match decode (BitVec.ofNat 32 (w % 2 ^ nbits)) with
    | .ok i => some i
    | .error _ => none
  else none

end Sys2Proof
end

