-- ==== Sys2Proof/Machine/State.lean ====
section
/-! DEFINITION. The state of the block as plain data (10_state R30 to R60), the reasons a step can stop, and the state after
reset. -/

namespace Sys2Proof.Machine

/-- Memory: (address, byte) cells at the host's byte addresses of 20_memory R82 and R83, addresses strictly rising, no entry equal
to what an unlisted address reads as. A byte of RAW, WORK, WIN or OUT is listed exactly when its cell is marked written (R56);
an unlisted byte of ACC is 0 (log 12). -/
abbrev Memory := List Host.Cell

/-- What one agent does next: the host's bus accesses (R81), the engine's turn (R300) and the reset input (R340) (log 4). -/
inductive Event where
  /-- The host issues BusWrite(addr, value). -/
  | write (addr value : Word)
  /-- The host issues BusRead(addr). -/
  | read (addr : Word)
  /-- The engine has its turn: it runs the accepted command, or does nothing when BUSY = 0. -/
  | engine
  /-- The platform asserts reset. -/
  | reset
  deriving DecidableEq, Repr

/-- Everything the spec gives the block, and three fields of the model's own (`schedule`, `readData`, `draws`). -/
structure State where
  /-- The parameters of this instance; no step writes them (00_scope R6 to R8, 10_state R55). -/
  params : Params
  /-- CFG (R35). -/
  cfg : Word
  /-- DS (R37). -/
  ds : Word
  /-- CROP (R38). -/
  crop : Word
  /-- FC, the center frequency in Hz (R39). -/
  fc : Word
  /-- FS, the sample rate in Hz (R39). -/
  fs : Word
  /-- LEN, valid bytes of RAW (R40). -/
  len : Word
  /-- WLEN, interleaved length of the working buffer (R40). -/
  wlen : Word
  /-- PASS_CNT, accumulated_pass_count (R41). -/
  passCnt : Word
  /-- STATUS (R42). -/
  status : Word
  /-- IRQ_EN (R44). -/
  irqEn : Word
  /-- PENDING, the accepted command word (R57). -/
  pending : Word
  /-- RMS_DB (R46). -/
  rmsDb : Word
  /-- RMS_DC_DB (R46). -/
  rmsDcDb : Word
  /-- EMIT_CNT (R47). -/
  emitCnt : Word
  /-- EMIT_SAMPLES (R47). -/
  emitSamples : Word
  /-- LOW_HZ, read as two words (R47, R48). -/
  lowHz : DWord
  /-- HIGH_HZ, read as two words (R47, R48). -/
  highHz : DWord
  /-- STEP_CHZ (R47). -/
  stepChz : Word
  /-- RAW, WORK, WIN, ACC and OUT (R50 to R54). -/
  mem : Memory
  /-- The model's own: the word the last BusRead returned (R81) (log 8). -/
  readData : Word
  /-- The model's own: how many free values have been drawn (log 9). -/
  draws : Nat
  /-- The model's own: what the agents do next, first event first (log 4). -/
  schedule : List Event
  deriving DecidableEq, Repr

/-- Why the machine stops. -/
inductive Fault where
  /-- UNINIT (R310): raised by a command whose checks passed and which reads a RAW, WORK or WIN cell marked unwritten. The spec's
  own model-only fault ("fault: the model stops"), so safe: on hardware the command goes on with whatever the cell held. -/
  | uninit
  deriving DecidableEq, Repr

/-- Why an instruction has no meaning. -/
inductive Refusal where
  /-- Raised by an arm of `exec` that has no meaning yet; no arm of this model raises it. Safe. -/
  | notModelled (mnemonic : String)
  deriving DecidableEq, Repr

/-- The block after reset (R33, R60, R340): every register 0 but DS = 1, every RAM cell unwritten, every ACC cell 0. PENDING has
no reset value in the spec (R341); the model names 0 (DESIGN CHOICE, log 7), as it does for its own three fields. -/
def State.reset : State where
  params := Config.params
  cfg := 0
  ds := 1
  crop := 0
  fc := 0
  fs := 0
  len := 0
  wlen := 0
  passCnt := 0
  status := 0
  irqEn := 0
  pending := 0
  rmsDb := 0
  rmsDcDb := 0
  emitCnt := 0
  emitSamples := 0
  lowHz := 0
  highHz := 0
  stepChz := 0
  mem := []
  readData := 0
  draws := 0
  schedule := []

end Sys2Proof.Machine
end

