-- ==== Sys2Proof/Machine/Flags.lean ====
section
/-! DEFINITION. The STATUS register (10_state R42, R43) and IRQ_EN (R44): bit positions, setting and clearing, the error field, and
the interrupt line (R58). -/

namespace Sys2Proof.Machine

/-- The flags of STATUS (R42). -/
inductive Flag where
  /-- BUSY, bit 0. -/
  | busy
  /-- DONE, bit 1. -/
  | done
  /-- ERRF, bit 2. -/
  | errf
  /-- COMPSKIP, bit 8. -/
  | compskip
  /-- LOGDOM, bit 9. -/
  | logdom
  /-- LOGZERO, bit 10. -/
  | logzero
  /-- NOBLK, bit 11. -/
  | noblk
  /-- WRBUSY, bit 12. -/
  | wrbusy
  /-- BUSERR, bit 13. -/
  | buserr
  deriving DecidableEq, Repr

/-- The bit of STATUS that holds a flag (R42). -/
def Flag.bit : Flag → Nat
  | .busy => 0
  | .done => 1
  | .errf => 2
  | .compskip => 8
  | .logdom => 9
  | .logzero => 10
  | .noblk => 11
  | .wrbusy => 12
  | .buserr => 13

/-- A flag of a STATUS word. -/
def getFlag (w : Word) (f : Flag) : Bool := w.getLsbD f.bit

/-- `flag F`: set a flag of a STATUS word (00_scope R18). -/
def setFlag (w : Word) (f : Flag) : Word := w ||| BitVec.twoPow 32 f.bit

/-- Clear a flag of a STATUS word. -/
def clearFlag (w : Word) (f : Flag) : Word := w &&& ~~~BitVec.twoPow 32 f.bit

/-- The bits of ERR, 7:4 (R42). -/
def errMask : Word := 0x000000F0

/-- STATUS.ERR, bits 7:4 (R42). -/
def errField (w : Word) : BitVec 4 := w.extractLsb' 4 4

/-- STATUS.ERR <- e. -/
def setErr (w : Word) (e : BitVec 4) : Word := (w &&& ~~~errMask) ||| (e.setWidth 32 <<< 4)

/-- The code of an error (60_exceptions R301). -/
def errCode : CmdError → BitVec 4
  | .badOpcode => 1
  | .rsvdBits => 2
  | .badConfig => 3
  | .badLength => 4
  | .empty => 5

/-- The W1C bits of STATUS: DONE, ERRF, and bits 13:8 (R42). -/
def w1cMask : Word := 0x00003F06

/-- A host write v to STATUS clears each W1C bit i with v[i] = 1 and changes no other bit (R43). -/
def w1c (w v : Word) : Word := w &&& ~~~(v &&& w1cMask)

/-- The bits of STATUS that are not reserved (R42). -/
def statusMask : Word := 0x00003FF7

/-- IRQ_EN.DONE_IE, bit 0 (R44). -/
def doneIe (w : Word) : Bool := w.getLsbD 0

/-- IRQ_EN.ERR_IE, bit 1 (R44). -/
def errIe (w : Word) : Bool := w.getLsbD 1

/-- STATUS.BUSY. -/
def State.busy (s : State) : Bool := getFlag s.status .busy

/-- The interrupt line (R58): computed from STATUS and IRQ_EN, so recomputed after every step (log 20). -/
def State.irq (s : State) : Bool :=
  (getFlag s.status .done && doneIe s.irqEn) || (getFlag s.status .errf && errIe s.irqEn)

end Sys2Proof.Machine
end

