-- ==== Sys2Proof/Machine/Operands.lean ====
section
/-! DEFINITION. The operands of the commands: register fields (30_encoding R112), the derived quantities N and Deff (00_scope R19),
and the checks (60_exceptions R302) as lists in the order the spec makes them. -/

namespace Sys2Proof.Machine

/-- The decimation strategies of CFG.MODE (R35). -/
inductive Mode where
  /-- 0: no decimation. -/
  | none
  /-- 1: boxcar. -/
  | boxcar
  /-- 2: recursive. -/
  | recursive
  /-- 3: reserved; every command but NOP and CLRACC rejects it (R302). -/
  | reserved
  deriving DecidableEq, Repr

/-- The value of the two bits of MODE (R35). -/
def Mode.ofBits (b : BitVec 2) : Mode :=
  match b.toNat with
  | 0 => .none
  | 1 => .boxcar
  | 2 => .recursive
  | _ => .reserved

/-- CFG.MODE = CFG[1:0]. -/
def State.mode (s : State) : Mode := Mode.ofBits (s.cfg.extractLsb' 0 2)

/-- CFG.PEAK = CFG[2]. -/
def State.peak (s : State) : Bool := s.cfg.getLsbD 2

/-- CFG.COMP_EN = CFG[3]. -/
def State.compEn (s : State) : Bool := s.cfg.getLsbD 3

/-- CFG.REFSEL = CFG[4]. -/
def State.refSel (s : State) : Bool := s.cfg.getLsbD 4

/-- CFG.BIAS_SEL = CFG[5]. -/
def State.biasSel (s : State) : Bool := s.cfg.getLsbD 5

/-- CFG.FFT_LOG2 = CFG[12:8]. -/
def State.fftLog2 (s : State) : Nat := (s.cfg.extractLsb' 8 5).toNat

/-- CFG.P = CFG[19:16]. -/
def State.passes (s : State) : Nat := (s.cfg.extractLsb' 16 4).toNat

/-- CFG.WIN_SHIFT = CFG[23:20]. -/
def State.winShift (s : State) : Nat := (s.cfg.extractLsb' 20 4).toNat

/-- DS.D = DS[15:0]. -/
def State.dsD (s : State) : Nat := (s.ds.extractLsb' 0 16).toNat

/-- CROP.CROP = CROP[16:0]. -/
def State.cropC (s : State) : Nat := (s.crop.extractLsb' 0 17).toNat

/-- LEN as a number. -/
def State.lenN (s : State) : Nat := s.len.toNat

/-- WLEN as a number. -/
def State.wlenN (s : State) : Nat := s.wlen.toNat

/-- N = 2^CFG.FFT_LOG2 (R19). -/
def State.bins (s : State) : Nat := 2 ^ s.fftLog2

/-- Deff (R19). The reserved mode has no Deff in the spec; no command that reads Deff passes its checks there (log 23). -/
def State.deff (s : State) : Nat :=
  match s.mode with
  | .boxcar => s.dsD
  | .recursive => 2 ^ s.passes
  | .none | .reserved => 1

/-- The raw bias, 127 or 128 (00_scope R14, 40_conditioning R140). -/
def State.bias (s : State) : Int := if s.biasSel then 128 else 127

/-- The numerator of the RMS reference 181/2 or 181/1 (00_scope R14). -/
def refNum : Nat := 181

/-- The denominator of the RMS reference: 90.5 when REFSEL = 0, 181 when REFSEL = 1 (00_scope R14). -/
def State.refDen (s : State) : Nat := if s.refSel then 1 else 2

/-- One check: what must hold, and the error when it does not. -/
abbrev Check := Bool × CmdError

/-- The error of the first check that fails (60_exceptions R300, R302). -/
def firstFailure : List Check → Option CmdError
  | [] => none
  | c :: rest => if c.1 then firstFailure rest else some c.2

/-- CFG.FFT_LOG2 ≤ FFT_LOG2_MAX, common check 2 (R302), the one check of CLRACC (R215). -/
def State.fftCheck (s : State) : Check := (decide (s.fftLog2 ≤ s.params.fftLog2Max), .badConfig)

/-- The common checks (R302), in order. -/
def State.commonChecks (s : State) : List Check :=
  [(decide (s.mode ≠ .reserved), .badConfig),
   s.fftCheck,
   (decide (s.mode = .boxcar → 1 ≤ s.dsD), .badConfig)]

/-- The WORK length check of 40_conditioning: WLEN even and at most RAW_CAP. -/
def State.workLengthCheck (s : State) : Check :=
  (decide (s.wlenN % 2 = 0 ∧ s.wlenN ≤ s.params.rawCap), .badLength)

/-- The command needs this mode, else BAD_CONFIG (R150, R160, R170). -/
def State.modeCheck (s : State) (m : Mode) : Check := (decide (s.mode = m), .badConfig)

/-- The command needs a bin count above 1, else BAD_CONFIG (41_spectral, R250). -/
def State.spectralCheck (s : State) : Check := (decide (1 ≤ s.fftLog2), .badConfig)

/-- The recursive length check on a length L (R160, R285): when P ≥ 1, L is a multiple of 2^(P+1) and L >> (P-1) is at least 12. -/
def State.recursiveLength (s : State) (l : Nat) : Bool :=
  decide (1 ≤ s.passes → l % 2 ^ (s.passes + 1) = 0 ∧ 12 ≤ l / 2 ^ (s.passes - 1))

/-- CONV's checks (R140). -/
def State.convChecks (s : State) : List Check :=
  s.commonChecks ++ [(decide (s.lenN % 2 = 0 ∧ s.lenN ≤ s.params.rawCap), .badLength)]

/-- DCR's checks (R145). -/
def State.dcrChecks (s : State) : List Check := s.commonChecks ++ [s.workLengthCheck]

/-- BOXCAR's checks (R150). -/
def State.boxcarChecks (s : State) : List Check := s.commonChecks ++ [s.modeCheck .boxcar, s.workLengthCheck]

/-- RDEC's checks (R160). -/
def State.rdecChecks (s : State) : List Check :=
  s.commonChecks ++ [s.modeCheck .recursive, s.workLengthCheck, (s.recursiveLength s.wlenN, .badLength)]

/-- COMP's checks (R170). -/
def State.compChecks (s : State) : List Check := s.commonChecks ++ [s.modeCheck .recursive, s.workLengthCheck]

/-- The checks of WIN, XFORM and ACC (41_spectral, before R200). -/
def State.blockChecks (s : State) : List Check := s.commonChecks ++ [s.spectralCheck, s.workLengthCheck]

/-- CLRACC's one check (R215). -/
def State.clraccChecks (s : State) : List Check := [s.fftCheck]

/-- RMS's own check (R235): LEN even and 2 ≤ LEN ≤ RAW_CAP. -/
def State.rmsLengthCheck (s : State) : Check :=
  (decide (s.lenN % 2 = 0 ∧ 2 ≤ s.lenN ∧ s.lenN ≤ s.params.rawCap), .badLength)

/-- RMS's checks (R235). -/
def State.rmsChecks (s : State) : List Check := s.commonChecks ++ [s.rmsLengthCheck]

/-- EMIT's checks (R250). -/
def State.emitChecks (s : State) : List Check :=
  s.commonChecks ++
  [s.spectralCheck,
   (decide (s.cropC ≤ 65536), .badConfig),
   (decide (s.fs ≠ 0), .badConfig),
   (decide (s.passCnt ≠ 0), .empty)]

/-- RUN's checks (R285): RMS's when the bin count is 1, else its own. -/
def State.runChecks (s : State) : List Check :=
  s.commonChecks ++
  if s.fftLog2 = 0 then [s.rmsLengthCheck]
  else
    [(decide (s.lenN % 2 = 0 ∧ s.lenN ≤ s.params.rawCap ∧ 2 * s.bins * s.deff ≤ s.lenN), .badLength),
     (decide (s.mode = .recursive → s.recursiveLength s.lenN = true), .badLength)]

end Sys2Proof.Machine
end

