-- ==== Sys2Proof/Machine/Ops.lean ====
section
/-! DEFINITION. The named operations: bytes and cells of memory (10_state R50 to R56, 20_memory R82 to R84), updates of the state,
raising a command error and completing a command (60_exceptions R300, R303, R304), and running one command. -/

namespace Sys2Proof.Machine

/-! ## Window bases (20_memory R82) -/

/-- RAW's base address. -/
def rawBase : Nat := 0x10000000

/-- WORK's base address. -/
def workBase : Nat := 0x20000000

/-- WIN's base address. -/
def winBase : Nat := 0x30000000

/-- ACC's base address. -/
def accBase : Nat := 0x40000000

/-- OUT's base address. -/
def outBase : Nat := 0x50000000

/-- CTAB's base address. -/
def ctabBase : Nat := 0x60000000

/-- The size of a window's slot, 256 MiB. -/
def slotSize : Nat := 0x10000000

/-! ## Bytes -/

/-- What an address that memory does not list reads as: 0 in ACC's slot (reset zeroes ACC, R52), no value elsewhere (the cell is
unwritten, R56) (log 12). -/
def Memory.unlisted (a : Nat) : Option Byte :=
  if accBase ≤ a ∧ a < accBase + slotSize then some 0 else none

/-- The entry listed for an address. -/
def Memory.lookup : Memory → Nat → Option Byte
  | [], _ => none
  | (x, b) :: m, a => if x = a then some b else Memory.lookup m a

/-- The byte at an address; none when it is unwritten (R56). -/
def Memory.read (m : Memory) (a : Nat) : Option Byte :=
  match m.lookup a with
  | some b => some b
  | none => Memory.unlisted a

/-- List a byte, keeping the addresses in order. -/
def Memory.put : Memory → Nat → Byte → Memory
  | [], a, b => [(a, b)]
  | (x, c) :: m, a, b =>
    if a < x then (a, b) :: (x, c) :: m
    else if a = x then (a, b) :: m
    else (x, c) :: Memory.put m a b

/-- Take an address out of the list. -/
def Memory.unlist (m : Memory) (a : Nat) : Memory := m.filter fun c => decide (c.1 ≠ a)

/-- Write a byte; writing what an unlisted address reads as takes the entry out (the canonical form, log 12). -/
def Memory.write (m : Memory) (a : Nat) (b : Byte) : Memory :=
  if Memory.unlisted a = some b then m.unlist a else m.put a b

/-- The canonical form: addresses strictly rising, no entry equal to what its address reads as when unlisted. -/
abbrev Memory.wf (m : Memory) : Prop :=
  m.Pairwise (fun c d => c.1 < d.1) ∧ ∀ c ∈ m, Memory.unlisted c.1 ≠ some c.2

/-- Write bytes from an address up. -/
def Memory.writeBytes : Memory → Nat → List Byte → Memory
  | m, _, [] => m
  | m, a, b :: bs => Memory.writeBytes (m.write a b) (a + 1) bs

/-- Take every address of a range out of the list: in ACC, zero it. -/
def Memory.clear (m : Memory) (a n : Nat) : Memory := m.filter fun c => !(decide (a ≤ c.1) && decide (c.1 < a + n))

/-! ## Cells: little-endian (R84) -/

/-- The number in the n bytes from an address, the lowest address least significant (R84); none if one is unwritten. -/
def Memory.readLe (m : Memory) (a : Nat) : Nat → Option Nat
  | 0 => some 0
  | n + 1 =>
    match m.read a, m.readLe (a + 1) n with
    | some b, some r => some (b.toNat + 256 * r)
    | _, _ => none

/-- The n bytes of a number, least significant first (R84). -/
def bytesLe : Nat → Nat → List Byte
  | 0, _ => []
  | n + 1, v => BitVec.ofNat 8 v :: bytesLe n (v / 256)

/-- Write cells of `width` bytes, one every `stride` bytes from an address up. -/
def Memory.writeCells (width stride : Nat) : Memory → Nat → List Nat → Memory
  | m, _, [] => m
  | m, a, v :: vs => Memory.writeCells width stride (m.writeBytes a (bytesLe width v)) (a + stride) vs

/-- The address of RAW[j] (R83). -/
def rawAddr (j : Nat) : Nat := rawBase + j

/-- The address of WORK[j] (R83). -/
def workAddr (j : Nat) : Nat := workBase + 2 * j

/-- The address of WIN[j] (R83). -/
def winAddr (j : Nat) : Nat := winBase + 2 * j

/-- The address of ACC[j] (R83). -/
def accAddr (j : Nat) : Nat := accBase + 8 * j

/-- The address of OUT[i] (R83). -/
def outAddr (i : Nat) : Nat := outBase + 4 * i

/-- RAW[j] (R50). -/
def Memory.raw (m : Memory) (j : Nat) : Option Byte := m.read (rawAddr j)

/-- WORK[j] (R51). -/
def Memory.work (m : Memory) (j : Nat) : Option Sample := (m.readLe (workAddr j) 2).map (BitVec.ofNat 16)

/-- WIN[j] (R53). -/
def Memory.win (m : Memory) (j : Nat) : Option Sample := (m.readLe (winAddr j) 2).map (BitVec.ofNat 16)

/-- ACC[j] (R52): always written. -/
def Memory.acc (m : Memory) (j : Nat) : DWord := BitVec.ofNat 64 ((m.readLe (accAddr j) 8).getD 0)

/-- OUT[i] (R54). -/
def Memory.out (m : Memory) (i : Nat) : Option Word := (m.readLe (outAddr i) 4).map (BitVec.ofNat 32)

/-- `f` at n indices from i up, or none if one of them is none: reading cells, any of which may be unwritten. -/
def gather {α : Type} (f : Nat → Option α) : (i n : Nat) → Option (List α)
  | _, 0 => some []
  | i, n + 1 =>
    match f i, gather f (i + 1) n with
    | some x, some xs => some (x :: xs)
    | _, _ => none

/-- RAW[0 .. n-1]. -/
def Memory.raws (m : Memory) (n : Nat) : Option (List Byte) := gather m.raw 0 n

/-- WIN[0 .. n-1]. -/
def Memory.wins (m : Memory) (n : Nat) : Option (List Sample) := gather m.win 0 n

/-- ACC[0 .. n-1]. -/
def Memory.accs (m : Memory) (n : Nat) : List DWord := (List.range n).map m.acc

/-- The first n samples of a stream of WORK: o = 0 the I stream, o = 1 the Q stream (00_scope R19). -/
def Memory.stream (m : Memory) (o n : Nat) : Option (List Sample) := gather (fun k => m.work (o + 2 * k)) 0 n

/-- The first n I/Q pairs of WORK (R19). -/
def Memory.pairs (m : Memory) (n : Nat) : Option (List Pair) :=
  gather (fun k => match m.work (2 * k), m.work (2 * k + 1) with
    | some i, some q => some (i, q)
    | _, _ => none) 0 n

/-- Write WORK[0 ..]. -/
def Memory.setWork (m : Memory) (xs : List Sample) : Memory := m.writeCells 2 2 (workAddr 0) (xs.map BitVec.toNat)

/-- Write the first samples of a stream of WORK. -/
def Memory.setStream (m : Memory) (o : Nat) (xs : List Sample) : Memory :=
  m.writeCells 2 4 (workAddr o) (xs.map BitVec.toNat)

/-- The interleaved samples of pairs (R19: I at even, Q at odd indices). -/
def interleave : List Pair → List Sample
  | [] => []
  | p :: ps => p.1 :: p.2 :: interleave ps

/-- Write the first I/Q pairs of WORK. -/
def Memory.setPairs (m : Memory) (ps : List Pair) : Memory := m.setWork (interleave ps)

/-- Write ACC[0 ..]. -/
def Memory.setAccs (m : Memory) (xs : List DWord) : Memory := m.writeCells 8 8 (accAddr 0) (xs.map BitVec.toNat)

/-- ACC[0 .. n-1] <- 0. -/
def Memory.zeroAccs (m : Memory) (n : Nat) : Memory := m.clear (accAddr 0) (8 * n)

/-- Write OUT[0 ..]. -/
def Memory.setOut (m : Memory) (xs : List Word) : Memory := m.writeCells 4 4 (outAddr 0) (xs.map BitVec.toNat)

/-! ## Updates of the state -/

/-- Replace the memory. -/
def State.withMem (s : State) (m : Memory) : State := { s with mem := m }

/-- Replace STATUS. -/
def State.withStatus (s : State) (w : Word) : State := { s with status := w }

/-- WLEN <- n. -/
def State.withWlen (s : State) (n : Nat) : State := { s with wlen := BitVec.ofNat 32 n }

/-- PASS_CNT <- w. -/
def State.withPassCnt (s : State) (w : Word) : State := { s with passCnt := w }

/-- RMS_DB <- w. -/
def State.withRmsDb (s : State) (w : Word) : State := { s with rmsDb := w }

/-- RMS_DC_DB <- w. -/
def State.withRmsDcDb (s : State) (w : Word) : State := { s with rmsDcDb := w }

/-- A free value has been drawn (log 9). -/
def State.countDraw (s : State) : State := { s with draws := s.draws + 1 }

/-- The emitter's result registers: LOW_HZ, HIGH_HZ, STEP_CHZ, EMIT_CNT and EMIT_SAMPLES (10_state R47). -/
def State.withEmit (s : State) (low high : DWord) (chz cnt samples : Word) : State :=
  { s with lowHz := low, highHz := high, stepChz := chz, emitCnt := cnt, emitSamples := samples }

/-- `flag F` (00_scope R18). -/
def State.flag (s : State) (f : Flag) : State := s.withStatus (setFlag s.status f)

/-- `flag F` when a condition holds. -/
def State.flagIf (s : State) (c : Bool) (f : Flag) : State := if c then s.flag f else s

/-! ## Ending a command -/

/-- Completion: DONE <- 1, BUSY <- 0 (60_exceptions R300, R304). -/
def State.complete (s : State) : State := s.withStatus (clearFlag (setFlag s.status .done) .busy)

/-- `raise CmdError(e)`, the block's exception: ERR <- the code, ERRF <- 1, then completion; nothing else changes (R300, R303,
R306). There is no vector and nothing to restore; the host acknowledges by W1C (R307). -/
def State.raise (s : State) (e : CmdError) : State :=
  (s.withStatus (setFlag (setErr s.status (errCode e)) .errf)).complete

/-- Run a command whose word has been decoded (R300): the checks in order, the first failure raised; else the pseudocode, which
ends in UNINIT if it reads an unwritten cell (R310), and completion. -/
def runCommand (checks : List Check) (body : State → Option State) (s : State) : Host.Outcome State Fault Refusal :=
  match firstFailure checks with
  | some e => .next (s.raise e)
  | none =>
    match body s with
    | some t => .next t.complete
    | none => .fault .uninit

/-- Cut the first `count * size` elements of a list into `count` blocks of `size` (00_scope R22, Block). -/
def blocks {α : Type} (size : Nat) : (count : Nat) → List α → List (List α)
  | 0, _ => []
  | n + 1, xs => xs.take size :: blocks size n (xs.drop size)

end Sys2Proof.Machine
end

