-- ==== Sys2Proof/Machine/Conditioning.lean ====
section
/-! DEFINITION. The sample conditioning commands (40_conditioning): CONV, DCR, BOXCAR, RDEC and COMP. A body is the command's
pseudocode, run after its checks; none is the model fault UNINIT. -/

namespace Sys2Proof.Machine

/-! ## CONV -/

/-- A raw byte minus the bias, exact in 16 bits (R140). -/
def convSample (bias : Int) (b : Byte) : Sample := wrap16 ((b.toNat : Int) - bias)

/-- CONV's pseudocode (R140). -/
def convBody (s : State) : Option State :=
  match s.mem.raws s.lenN with
  | none => none
  | some bs => some ((s.withMem (s.mem.setWork (bs.map (convSample s.bias)))).withWlen s.lenN)

/-- CONV (R140). -/
def execConv (s : State) : Host.Outcome State Fault Refusal := runCommand s.convChecks convBody s

/-! ## DCR -/

/-- The exact sum of samples. -/
def sumSamples (xs : List Sample) : Int := (xs.map BitVec.toInt).sum

/-- tdiv(sum, n): the mean of a stream truncated toward zero (R145). -/
def truncMean (xs : List Sample) : Int := (sumSamples xs).tdiv xs.length

/-- DC removal of one stream of n samples; a stream of zero mean is left untouched (R145). -/
def dcrStream (o n : Nat) (m : Memory) : Option Memory :=
  match m.stream o n with
  | none => none
  | some xs =>
    if truncMean xs = 0 then some m
    else some (m.setStream o (xs.map fun x => wrap16 (x.toInt - truncMean xs)))

/-- DCR's pseudocode (R145). -/
def dcrBody (s : State) : Option State :=
  let n := s.wlenN / 2
  if n = 0 then some s
  else
    match dcrStream 0 n s.mem with
    | none => none
    | some m =>
      match dcrStream 1 n m with
      | none => none
      | some m' => some (s.withMem m')

/-- DCR (R145). -/
def execDcr (s : State) : Host.Outcome State Fault Refusal := runCommand s.dcrChecks dcrBody s

/-! ## BOXCAR -/

/-- The sums of the complete groups of d samples of a stream, wrapped at the store (R150). -/
def boxSums (d groups : Nat) (xs : List Sample) : List Sample := (blocks d groups xs).map fun g => wrap16 (sumSamples g)

/-- BOXCAR's pseudocode (R150): the sums are of the values before the command, and only complete groups are read. -/
def boxcarBody (s : State) : Option State :=
  let d := s.dsD
  if d = 1 then some s
  else
    let g := s.wlenN / 2 / d
    match s.mem.stream 0 (g * d), s.mem.stream 1 (g * d) with
    | some xs, some ys =>
      let zeroed := s.mem.setWork (List.replicate s.wlenN 0)
      some ((s.withMem ((zeroed.setStream 0 (boxSums d g xs)).setStream 1 (boxSums d g ys))).withWlen (2 * g))
    | _, _ => none

/-- BOXCAR (R150). -/
def execBoxcar (s : State) : Host.Outcome State Fault Refusal := runCommand s.boxcarChecks boxcarBody s

/-! ## RDEC -/

/-- The six registers a..f of the recursive stage's pipeline (R161). -/
structure Taps where
  /-- Register a. -/
  a : Int
  /-- Register b. -/
  b : Int
  /-- Register c. -/
  c : Int
  /-- Register d. -/
  d : Int
  /-- Register e. -/
  e : Int
  /-- Register f. -/
  f : Int
  deriving DecidableEq, Repr

/-- The 6-tap kernel (1, 5, 10, 10, 5, 1), shift by 4 (R161). -/
def stageTap (t : Taps) : Int := asr (t.a + 5 * (t.b + t.e) + 10 * (t.c + t.d) + t.f) 4

/-- The bootstrap: the first three outputs, from the first six raw values (R161). -/
def stageBoot (t : Taps) : List Int :=
  [asr (10 * (t.a + t.b) + 5 * (t.c + t.d) + t.d + t.f) 4,
   asr (10 * (t.b + t.c) + 5 * (t.a + t.d) + t.e + t.f) 4,
   stageTap t]

/-- The outputs after the bootstrap: at each step the registers move by two and take the next two samples (R161). -/
def stageSteady : Taps → List Int → List Int
  | t, e :: f :: xs =>
    let t' : Taps := { a := t.c, b := t.d, c := t.e, d := t.f, e := e, f := f }
    stageTap t' :: stageSteady t' xs
  | _, _ => []

/-- K, the outputs of STAGE for a read limit: three, and one for each k ≥ 3 with 4k < lim (R161). -/
def stageCount (lim : Nat) : Nat := max 3 ((lim + 3) / 4)

/-- How many samples of its stream STAGE reads for K outputs: x[0..5], and x[2k-1], x[2k] up to k = K-1 (R161) (log 13). -/
def stageReads (k : Nat) : Nat := max 6 (2 * k - 1)

/-- The K outputs y[0 .. K-1] of STAGE from the samples it reads (R161). -/
def stageOut : List Int → List Int
  | a :: b :: c :: d :: e :: f :: xs =>
    let t : Taps := { a := a, b := b, c := c, d := d, e := e, f := f }
    stageBoot t ++ stageSteady t (f :: xs)
  | _ => []

/-- STAGE(o, lim): one pass on one stream; the stream past its K outputs keeps its values (R161). -/
def stage (o lim : Nat) (m : Memory) : Option Memory :=
  let k := stageCount lim
  match m.stream o (stageReads k) with
  | none => none
  | some xs => some (m.setStream o (((stageOut (xs.map BitVec.toInt)).take k).map wrap16))

/-- The passes j, j+1, ... of RDEC on a buffer of l elements: pass j works on the first l >> j (R160). -/
def rdecPasses (l : Nat) : (count j : Nat) → Memory → Option Memory
  | 0, _, m => some m
  | n + 1, j, m =>
    let lj := l / 2 ^ j
    match stage 0 lj m with
    | none => none
    | some m' =>
      match stage 1 (lj - 1) m' with
      | none => none
      | some m'' => rdecPasses l n (j + 1) m''

/-- RDEC's pseudocode (R160). -/
def rdecBody (s : State) : Option State :=
  match rdecPasses s.wlenN s.passes 0 s.mem with
  | none => none
  | some m => some ((s.withMem m).withWlen (s.wlenN / 2 ^ s.passes))

/-- RDEC (R160). -/
def execRdec (s : State) : Host.Outcome State Fault Refusal := runCommand s.rdecChecks rdecBody s

/-! ## COMP -/

/-- COMP_SKIP, the leading samples of each stream that pass unfiltered (00_scope R9). -/
def compSkip : Nat := 18

/-- COMP_TABLE_MAX (00_scope R8). -/
def State.compTableMax (s : State) : Nat := s.params.compTable.length

/-- CTAB[r][t] for a row r ≥ 1 (10_state R55); 0 where a table that breaks 00_scope R8 has no such tap (log 24). -/
def Params.ctab (p : Params) (r t : Nat) : Int := ((p.compTable.getD (r - 1) []).getD t 0)

/-- The compensator's output at m ≥ 18: nine taps on the inputs m-9 .. m-1, scaled by 2^15 (R170). -/
def compOut (c : Nat → Int) (xs : List Sample) (m : Nat) : Sample :=
  wrap16 (asr (((List.range 9).map fun t => c t * (xs.getD (m - 9 + t) 0).toInt).sum) 15)

/-- A stream after the compensator: the first 18 samples as they were, the others filtered from the inputs (R170). -/
def compFilter (c : Nat → Int) (xs : List Sample) : List Sample :=
  (List.range xs.length).map fun m => if m < compSkip then xs.getD m 0 else compOut c xs m

/-- Droop compensation of one stream of n samples (R170). -/
def compStream (c : Nat → Int) (o n : Nat) (m : Memory) : Option Memory :=
  match m.stream o n with
  | none => none
  | some xs => some (m.setStream o (compFilter c xs))

/-- COMP's pseudocode (R170): skipped with COMPSKIP when P is outside 1..COMP_TABLE_MAX (R172). -/
def compBody (s : State) : Option State :=
  if s.passes < 1 ∨ s.compTableMax < s.passes then some (s.flag .compskip)
  else
    let n := s.wlenN / 2
    let c := Params.ctab s.params s.passes
    match compStream c 0 n s.mem with
    | none => none
    | some m =>
      match compStream c 1 n m with
      | none => none
      | some m' => some (s.withMem m')

/-- COMP (R170). -/
def execComp (s : State) : Host.Outcome State Fault Refusal := runCommand s.compChecks compBody s

end Sys2Proof.Machine
end

