-- ==== Sys2Proof/Machine/Bus.lean ====
section
/-! DEFINITION. The host's side: the register map (10_state R33), the address map (20_memory R82), bus reads and writes with bus
errors (R88) and the busy rules (70_reset_and_hazards R350, R351), command acceptance (R45), and reset (R340). -/

namespace Sys2Proof.Machine

/-! ## The register window (R33) -/

/-- The registers of R33, the words of LOW_HZ and HIGH_HZ apart. -/
inductive Reg where
  | id | params | cfg | ds | crop | fc | fs | len | wlen | passCnt | status | irqEn | cmd | rmsDb | rmsDcDb | emitCnt
  | emitSamples | lowHzLo | lowHzHi | highHzLo | highHzHi | stepChz
  deriving DecidableEq, Repr

/-- The register at an offset of the register window (R33); none where R49 makes the access a bus error. -/
def regAt : Nat → Option Reg
  | 0x000 => some .id
  | 0x004 => some .params
  | 0x008 => some .cfg
  | 0x00C => some .ds
  | 0x010 => some .crop
  | 0x014 => some .fc
  | 0x018 => some .fs
  | 0x01C => some .len
  | 0x020 => some .wlen
  | 0x024 => some .passCnt
  | 0x028 => some .status
  | 0x02C => some .irqEn
  | 0x030 => some .cmd
  | 0x034 => some .rmsDb
  | 0x038 => some .rmsDcDb
  | 0x03C => some .emitCnt
  | 0x040 => some .emitSamples
  | 0x044 => some .lowHzLo
  | 0x048 => some .lowHzHi
  | 0x04C => some .highHzLo
  | 0x050 => some .highHzHi
  | 0x054 => some .stepChz
  | _ => none

/-- ID's constant (R31). -/
def idWord : Word := 0x52534450

/-- PARAMS (R34): FFT_LOG2_MAX, COMP_TABLE_MAX, and log2 of the largest power of two not above RAW_CAP. -/
def paramsWord (p : Params) : Word :=
  BitVec.ofNat 32 (p.fftLog2Max % 256 + p.compTable.length % 256 * 2 ^ 8 + p.rawCap.log2 % 256 * 2 ^ 16)

/-- CFG's bits that are not reserved (R35). -/
def cfgMask : Word := 0x00FF1F3F

/-- DS's bits that are not reserved (R37). -/
def dsMask : Word := 0x0000FFFF

/-- CROP's bits that are not reserved (R38). -/
def cropMask : Word := 0x0001FFFF

/-- IRQ_EN's bits that are not reserved (R44). -/
def irqEnMask : Word := 0x00000003

/-- The value a register reads as (R31 to R47); CMD reads 0 (R45). -/
def State.readReg (s : State) : Reg → Word
  | .id => idWord
  | .params => paramsWord s.params
  | .cfg => s.cfg
  | .ds => s.ds
  | .crop => s.crop
  | .fc => s.fc
  | .fs => s.fs
  | .len => s.len
  | .wlen => s.wlen
  | .passCnt => s.passCnt
  | .status => s.status
  | .irqEn => s.irqEn
  | .cmd => 0
  | .rmsDb => s.rmsDb
  | .rmsDcDb => s.rmsDcDb
  | .emitCnt => s.emitCnt
  | .emitSamples => s.emitSamples
  | .lowHzLo => s.lowHz.extractLsb' 0 32
  | .lowHzHi => s.lowHz.extractLsb' 32 32
  | .highHzLo => s.highHz.extractLsb' 0 32
  | .highHzHi => s.highHz.extractLsb' 32 32
  | .stepChz => s.stepChz

/-- The registers no command writes, which read as themselves while BUSY = 1; CMD reads 0 then too (R351). -/
def Reg.stable : Reg → Bool
  | .id | .params | .status | .irqEn | .cfg | .ds | .crop | .fc | .fs | .len | .cmd => true
  | .wlen | .passCnt | .rmsDb | .rmsDcDb | .emitCnt | .emitSamples | .lowHzLo | .lowHzHi | .highHzLo | .highHzHi
  | .stepChz => false

/-- A register whose writes are accepted while BUSY = 1 (R43, R44, R350). -/
def Reg.writableBusy : Reg → Bool
  | .status | .irqEn => true
  | .id | .params | .cfg | .ds | .crop | .fc | .fs | .len | .wlen | .passCnt | .cmd | .rmsDb | .rmsDcDb | .emitCnt
  | .emitSamples | .lowHzLo | .lowHzHi | .highHzLo | .highHzHi | .stepChz => false

/-- A CMD write of w with BUSY = 0 accepts the command: PENDING <- w, BUSY <- 1, DONE <- 0, ERR <- 0 (R45). -/
def State.accept (s : State) (w : Word) : State :=
  { s with pending := w, status := setErr (clearFlag (setFlag s.status .busy) .done) 0 }

/-- A write to a register that takes effect (R33): reserved bits ignore it (R35 to R38, R44), RO registers ignore it (R49), STATUS
is write-one-to-clear (R43), CMD accepts a command (R45). -/
def State.writeReg (s : State) (r : Reg) (v : Word) : State :=
  match r with
  | .cfg => { s with cfg := v &&& cfgMask }
  | .ds => { s with ds := v &&& dsMask }
  | .crop => { s with crop := v &&& cropMask }
  | .fc => { s with fc := v }
  | .fs => { s with fs := v }
  | .len => { s with len := v }
  | .wlen => { s with wlen := v }
  | .passCnt => { s with passCnt := v }
  | .status => s.withStatus (w1c s.status v)
  | .irqEn => { s with irqEn := v &&& irqEnMask }
  | .cmd => s.accept v
  | .id | .params | .rmsDb | .rmsDcDb | .emitCnt | .emitSamples | .lowHzLo | .lowHzHi | .highHzLo | .highHzHi | .stepChz => s

/-! ## The address map (R82) -/

/-- What an address names. -/
inductive Target where
  /-- A register (R33). -/
  | reg (r : Reg)
  /-- A word of RAW, WORK, WIN or ACC: readable and writable. -/
  | ram
  /-- A word of OUT: writes are ignored (R54, R82). -/
  | out
  /-- CTAB's word k, tap k mod 9 of row k/9 + 1: writes are bus errors (R55, R83). -/
  | ctab (k : Nat)
  /-- Misaligned or unmapped: a bus error (R88). -/
  | bad
  deriving DecidableEq, Repr

/-- The window an aligned address lies in, by its 256 MiB slot and the extents of the instance (R82, R49). -/
def windowOf (p : Params) (a : Nat) : Target :=
  let off := a % slotSize
  match a / slotSize with
  | 0 => if off < 0x1000 then (match regAt off with | some r => .reg r | none => .bad) else .bad
  | 1 => if off < p.rawCap then .ram else .bad
  | 2 => if off < 2 * p.rawCap then .ram else .bad
  | 3 => if off < 2 * 2 ^ p.fftLog2Max then .ram else .bad
  | 4 => if off < 8 * 2 ^ p.fftLog2Max then .ram else .bad
  | 5 => if off < 4 * 2 ^ p.fftLog2Max then .out else .bad
  | 6 => if off < 36 * p.compTable.length then .ctab (off / 4) else .bad
  | _ => .bad

/-- What a bus address names (R81, R82, R88): bits 1:0 must be 0. -/
def target (p : Params) (a : Word) : Target := if a.toNat % 4 = 0 then windowOf p a.toNat else .bad

/-! ## Bus accesses -/

/-- BusWrite(a, v) (R81): a bus error sets BUSERR alone (R88); while BUSY = 1 every other write but to STATUS and IRQ_EN is dropped
with WRBUSY (R350) (log 14); otherwise the register or the word is written. -/
def State.busWrite (s : State) (a v : Word) : State :=
  match target s.params a with
  | .bad => s.flag .buserr
  | .ctab _ => s.flag .buserr
  | .reg r => if s.busy && !r.writableBusy then s.flag .wrbusy else s.writeReg r v
  | .ram => if s.busy then s.flag .wrbusy else s.withMem (s.mem.writeBytes a.toNat (bytesLe 4 v.toNat))
  | .out => if s.busy then s.flag .wrbusy else s

/-- A read that answers w. -/
def State.answer (s : State) (w : Word) : State := { s with readData := w }

/-- A read whose word is a free value (R56, R351) (log 9). -/
def State.answerDraw (s : State) : State := { s with readData := Config.draw s.draws, draws := s.draws + 1 }

/-- Byte i of a word. -/
def byteOf (w : Word) (i : Nat) : Byte := w.extractLsb' (8 * i) 8

/-- The word at an address, each unwritten byte taken from the word `free` (R83) (log 16). -/
def Memory.busWord (m : Memory) (a : Nat) (free : Word) : Word :=
  let b := fun i => (m.read (a + i)).getD (byteOf free i)
  b 3 ++ b 2 ++ b 1 ++ b 0

/-- All four bytes of the word at an address are written. -/
def Memory.wordWritten (m : Memory) (a : Nat) : Bool := (m.readLe a 4).isSome

/-- A read of a RAM or OUT word with BUSY = 0 (R83): unwritten cells read as free bits (R56). -/
def State.readRam (s : State) (a : Nat) : State :=
  if s.mem.wordWritten a then s.answer (s.mem.busWord a 0)
  else { s.answer (s.mem.busWord a (Config.draw s.draws)) with draws := s.draws + 1 }

/-- BusRead(a) (R81): the word goes to `readData`. A bus error reads 0 and sets BUSERR (R88); while BUSY = 1 what a command may be
writing reads as a free word (R351), CTAB as itself (log 15). -/
def State.busRead (s : State) (a : Word) : State :=
  match target s.params a with
  | .bad => (s.flag .buserr).answer 0
  | .reg r => if s.busy && !r.stable then s.answerDraw else s.answer (s.readReg r)
  | .ram => if s.busy then s.answerDraw else s.readRam a.toNat
  | .out => if s.busy then s.answerDraw else s.readRam a.toNat
  | .ctab k => s.answer (BitVec.ofInt 32 (Params.ctab s.params (k / 9 + 1) (k % 9)))

/-! ## Reset -/

/-- The reset step (R340): every register and cell at its reset value, an accepted command discarded; the parameters, CTAB among
them, are unchanged, and so is what is not the block's: the schedule, the host's last read and the draw counter (log 19). -/
def State.applyReset (s : State) : State :=
  { State.reset with params := s.params, readData := s.readData, draws := s.draws, schedule := s.schedule }

end Sys2Proof.Machine
end

