-- ==== Sys2Proof/Machine/PowerReducer.lean ====
section
/-! DEFINITION. The scalar power reducer: RMS (42_power_reducer R235). -/

namespace Sys2Proof.Machine

/-- m[p] of each pair of raw bytes: I² + Q² after the bias (R235). -/
def magnitudes (bias : Int) : List Byte → List Nat
  | i :: q :: bs =>
    (((i.toNat : Int) - bias) * ((i.toNat : Int) - bias) + ((q.toNat : Int) - bias) * ((q.toNat : Int) - bias)).toNat
      :: magnitudes bias bs
  | _ => []

/-- RMS_DB for magnitudes whose sum is not 0: LOG10C(1000, S / (npairs·ref²)) with ref = 181 / refDen (R235). -/
def rmsValue (refDen : Nat) (ms : List Nat) : Int :=
  log10c 1000 (refDen * refDen * ms.sum) (refNum * refNum * ms.length)

/-- rms ≤ dc, decided exactly: rms ≥ dc always, with equality exactly when all magnitudes are equal (R236) (log 11). -/
def rmsLeDc (ms : List Nat) : Bool := ms.all fun m => decide (m = ms.headD 0)

/-- The write of RMS_DB: the sentinel and LOGZERO for a log of 0 (R235, R232). -/
def rmsWriteDb (ms : List Nat) (s : State) : State :=
  if ms.sum = 0 then (s.flag .logzero).withRmsDb sentinel else s.withRmsDb (dbWord (rmsValue s.refDen ms))

/-- The write of RMS_DC_DB: the sentinel and LOGDOM when rms ≤ dc; where two integers are nearest the choice is a free value (R235,
R231) (log 10). -/
def rmsWriteDc (ms : List Nat) (s : State) : State :=
  if rmsLeDc ms then (s.flag .logdom).withRmsDcDb sentinel
  else
    match dcNearest ms refNum s.refDen dcRounds dcStartBits with
    | .exact n => s.withRmsDcDb (dbWord n)
    | .either n => (s.withRmsDcDb (dbWord (if Config.tieUpper s.draws then n else n - 1))).countDraw

/-- RMS's writes for given magnitudes (R235). -/
def rmsWrite (ms : List Nat) (s : State) : State := rmsWriteDc ms (rmsWriteDb ms s)

/-- RMS's pseudocode (R235). -/
def rmsBody (s : State) : Option State :=
  match s.mem.raws s.lenN with
  | none => none
  | some bs => some (rmsWrite (magnitudes s.bias bs) s)

/-- RMS (R235). -/
def execRms (s : State) : Host.Outcome State Fault Refusal := runCommand s.rmsChecks rmsBody s

end Sys2Proof.Machine
end

