-- ==== Sys2Proof/Machine/Spectral.lean ====
section
/-! DEFINITION. The spectral accumulation commands (41_spectral): WIN, XFORM, ACC and CLRACC. WIN, XFORM and ACC work on full
blocks of N pairs; with no full block they set NOBLK and change nothing else. -/

namespace Sys2Proof.Machine

/-- B = floor(WLEN / (2N)), the full blocks of the working buffer (41_spectral, before R200). -/
def State.blockCount (s : State) : Nat := s.wlenN / (2 * s.bins)

/-! ## WIN -/

/-- A sample times its coefficient, shifted right and wrapped (R200). -/
def winSample (shift : Nat) (x c : Sample) : Sample := wrap16 (asr (x.toInt * c.toInt) shift)

/-- One block windowed: I then Q of pair j by coefficient j (R200). -/
def winBlock (shift : Nat) (coefs : List Sample) (blk : List Pair) : List Pair :=
  List.zipWith (fun p c => (winSample shift p.1 c, winSample shift p.2 c)) blk coefs

/-- WIN's pseudocode (R200). -/
def winBody (s : State) : Option State :=
  let b := s.blockCount
  if b = 0 then some (s.flag .noblk)
  else
    match s.mem.wins s.bins, s.mem.pairs (s.bins * b) with
    | some cs, some ps =>
      some (s.withMem (s.mem.setPairs ((blocks s.bins b ps).flatMap (winBlock s.winShift cs))))
    | _, _ => none

/-- WIN (R200). -/
def execWin (s : State) : Host.Outcome State Fault Refusal := runCommand s.blockChecks winBody s

/-! ## XFORM -/

/-- FFT_N of one block of N = 2^e pairs: I real, Q imaginary, output k is bin k (R205, 00_scope R11) (log 3). -/
def fftN (e : Nat) (z : List Pair) : List Pair := (List.range (2 ^ e)).map (Config.fftBin e z)

/-- XFORM's pseudocode (R205). -/
def xformBody (s : State) : Option State :=
  let b := s.blockCount
  if b = 0 then some (s.flag .noblk)
  else
    match s.mem.pairs (s.bins * b) with
    | none => none
    | some ps => some (s.withMem (s.mem.setPairs ((blocks s.bins b ps).flatMap (fftN s.fftLog2))))

/-- XFORM (R205). -/
def execXform (s : State) : Host.Outcome State Fault Refusal := runCommand s.blockChecks xformBody s

/-! ## ACC -/

/-- i² + q², exact (R210, R211). -/
def power (p : Pair) : Nat := (p.1.toInt * p.1.toInt + p.2.toInt * p.2.toInt).toNat

/-- One accumulator takes one power: the sum modulo 2^64, or the maximum under peak-hold (R210). -/
def accumulate (peak : Bool) (a : DWord) (p : Nat) : DWord :=
  if peak then BitVec.ofNat 64 (max a.toNat p) else BitVec.ofNat 64 (a.toNat + p)

/-- Every bin takes its power of one block (R210). -/
def accBlock (peak : Bool) (accs : List DWord) (blk : List Pair) : List DWord :=
  List.zipWith (fun a p => accumulate peak a (power p)) accs blk

/-- ACC's pseudocode (R210): PASS_CNT grows by Deff once per block, modulo 2^32 (R212). -/
def accBody (s : State) : Option State :=
  let b := s.blockCount
  if b = 0 then some (s.flag .noblk)
  else
    match s.mem.pairs (s.bins * b) with
    | none => none
    | some ps =>
      let accs := (blocks s.bins b ps).foldl (accBlock s.peak) (s.mem.accs s.bins)
      some ((s.withMem (s.mem.setAccs accs)).withPassCnt (BitVec.ofNat 32 (s.passCnt.toNat + b * s.deff)))

/-- ACC (R210). -/
def execAcc (s : State) : Host.Outcome State Fault Refusal := runCommand s.blockChecks accBody s

/-! ## CLRACC -/

/-- CLRACC's pseudocode (R215), also the post-emission reset of EMIT (43_emitter R255). -/
def clearAccumulator (s : State) : State := (s.withMem (s.mem.zeroAccs s.bins)).withPassCnt 0

/-- CLRACC (R215). -/
def execClracc (s : State) : Host.Outcome State Fault Refusal := runCommand s.clraccChecks (fun t => some (clearAccumulator t)) s

end Sys2Proof.Machine
end

