-- ==== Sys2Proof/Machine/Control.lean ====
section
/-! DEFINITION. The control commands: NOP (44_control R280) and RUN (R285). -/

namespace Sys2Proof.Machine

/-- NOP (R280): no checks, no effect but completion. -/
def execNop (s : State) : Host.Outcome State Fault Refusal := runCommand [] some s

/-- RUN's decimation step: BOXCAR in BOXCAR mode with D ≥ 2; RDEC, then COMP when enabled, in RECURSIVE mode with P ≥ 1 (R285). -/
def runDecimate (s : State) : Option State :=
  match s.mode with
  | .boxcar => if 2 ≤ s.dsD then boxcarBody s else some s
  | .recursive =>
    if 1 ≤ s.passes then
      match rdecBody s with
      | none => none
      | some t => if t.compEn then compBody t else some t
    else some s
  | .none | .reserved => some s

/-- RUN's pseudocode (R285): RMS when the bin count is 1; else CONV, decimation, DCR, WIN, XFORM, ACC, each on the state the step
before left. -/
def runBody (s : State) : Option State :=
  if s.fftLog2 = 0 then rmsBody s
  else do
    let s₁ ← convBody s
    let s₂ ← runDecimate s₁
    let s₃ ← dcrBody s₂
    let s₄ ← winBody s₃
    let s₅ ← xformBody s₄
    accBody s₅

/-- RUN (R285). -/
def execRun (s : State) : Host.Outcome State Fault Refusal := runCommand s.runChecks runBody s

end Sys2Proof.Machine
end

