-- ==== Sys2Proof/Machine/Emitter.lean ====
section
/-! DEFINITION. The spectrum emitter: EMIT (43_emitter R250). -/

namespace Sys2Proof.Machine

/-- Step (a): the DC bin replaced by bin 1 (R250, R251). -/
def dcReplaced {α : Type} : List α → List α
  | _ :: y :: xs => y :: y :: xs
  | xs => xs

/-- Step (b): R[j] = A[(j + N/2) mod N], the halves swapped (R250, R251). -/
def halvesSwapped {α : Type} (xs : List α) : List α := xs.drop (xs.length / 2) ++ xs.take (xs.length / 2)

/-- d = floor(N·CROP / 131072), the bins dropped at each edge (R250, R252). -/
def State.cropDrop (s : State) : Nat := s.bins * s.cropC / 131072

/-- kept = floor(N·(65536 - CROP) / 65536), bin_count_kept (R250, R252). -/
def State.cropKept (s : State) : Nat := s.bins * (65536 - s.cropC) / 65536

/-- E = N - 2d, the bins emitted (R250, R252). -/
def State.emitted (s : State) : Nat := s.bins - 2 * s.cropDrop

/-- The emitted bins R[d] .. R[d+E-1] (R250). -/
def State.emitBins (s : State) : List DWord :=
  ((halvesSwapped (dcReplaced (s.mem.accs s.bins))).drop s.cropDrop).take s.emitted

/-- OUT[i] for a bin x: the sentinel for 0, else LOG10C(1000, x / (FS·PASS_CNT)) (R250, R253). -/
def emitValue (s : State) (x : DWord) : Word :=
  if x = 0 then sentinel else dbWord (log10c 1000 x.toNat (s.fs.toNat * s.passCnt.toNat))

/-- half = floor(FS·kept / (2·N·Deff)) (R250, R254). -/
def State.halfSpan (s : State) : Nat := s.fs.toNat * s.cropKept / (2 * s.bins * s.deff)

/-- STEP_CHZ: 100·FS/(N·Deff) rounded half up, at most 2^32 - 1 (R250, R254). -/
def State.stepCentiHz (s : State) : Nat :=
  min (2 ^ 32 - 1) ((200 * s.fs.toNat + s.bins * s.deff) / (2 * s.bins * s.deff))

/-- OUT and LOGZERO: every emitted bin converted, the flag when one of them is 0 (R250). -/
def emitOut (s : State) : State :=
  (s.withMem (s.mem.setOut (s.emitBins.map (emitValue s)))).flagIf (s.emitBins.any fun x => decide (x = 0)) .logzero

/-- EMIT's pseudocode (R250); it reads ACC alone, which is always written, so it cannot fault. -/
def emitBody (s : State) : State :=
  clearAccumulator
    ((emitOut s).withEmit (BitVec.ofInt 64 ((s.fc.toNat : Int) - s.halfSpan)) (BitVec.ofInt 64 ((s.fc.toNat : Int) + s.halfSpan))
      (BitVec.ofNat 32 s.stepCentiHz) (BitVec.ofNat 32 s.emitted) s.passCnt)

/-- EMIT (R250). -/
def execEmit (s : State) : Host.Outcome State Fault Refusal := runCommand s.emitChecks (fun t => some (emitBody t)) s

end Sys2Proof.Machine
end

