-- ==== Sys2Proof/Machine/Dispatch.lean ====
section
/-! DEFINITION. The one dispatch from a command to its meaning (30_encoding R113, R114). -/

namespace Sys2Proof.Machine

/-- The meaning of a decoded command (R113): its checks, its effect and its completion. -/
def exec (i : Instr) (s : State) : Host.Outcome State Fault Refusal :=
  match i with
  | .nop => Sys2Proof.Machine.execNop s
  | .conv => Sys2Proof.Machine.execConv s
  | .dcr => Sys2Proof.Machine.execDcr s
  | .boxcar => Sys2Proof.Machine.execBoxcar s
  | .rdec => Sys2Proof.Machine.execRdec s
  | .comp => Sys2Proof.Machine.execComp s
  | .win => Sys2Proof.Machine.execWin s
  | .xform => Sys2Proof.Machine.execXform s
  | .acc => Sys2Proof.Machine.execAcc s
  | .clracc => Sys2Proof.Machine.execClracc s
  | .rms => Sys2Proof.Machine.execRms s
  | .emit => Sys2Proof.Machine.execEmit s
  | .run => Sys2Proof.Machine.execRun s

end Sys2Proof.Machine
end

