-- ==== Sys2Proof/Machine/Engine.lean ====
section
/-! DEFINITION. The engine's turn (60_exceptions R300) and what each event of the schedule does (00_scope R3, 20_memory R85). -/

namespace Sys2Proof.Machine

/-- Decode PENDING and run it; a word that does not decode ends in its error (R114, R300). -/
def runPending (s : State) : Host.Outcome State Fault Refusal :=
  match decode s.pending with
  | .ok i => exec i s
  | .error e => .next (s.raise e)

/-- The engine's turn: one atomic step when BUSY = 1, none when BUSY = 0 (R57, R300). -/
def engineTurn (s : State) : Host.Outcome State Fault Refusal := if s.busy then runPending s else .next s

/-- One event. -/
def runEvent (e : Event) (s : State) : Host.Outcome State Fault Refusal :=
  match e with
  | .write a v => .next (s.busWrite a v)
  | .read a => .next (s.busRead a)
  | .engine => engineTurn s
  | .reset => .next s.applyReset

end Sys2Proof.Machine
end

