-- ==== Sys2Proof/Machine/Step.lean ====
section
/-! DEFINITION. One step of the system (00_scope R3, 20_memory R85, 60_exceptions R300): the first event of the schedule, or, with
the schedule used up, the engine when BUSY = 1 (R355). -/

namespace Sys2Proof.Machine

/-- One step: the next event of the schedule; with none left, the engine's turn (log 5). -/
def step (s : State) : Host.Outcome State Fault Refusal :=
  match s.schedule with
  | [] => engineTurn s
  | e :: rest => runEvent e { s with schedule := rest }

/-- The state in which the very next step runs the command word w: w accepted as a CMD write accepts it (R45), and the engine's
turn first in the schedule (log 6). -/
def State.withFetchWord (s : State) (nbits w : Nat) : State :=
  { s.accept (BitVec.ofNat 32 (w % 2 ^ nbits)) with schedule := .engine :: s.schedule }

end Sys2Proof.Machine
end

