-- ==== Sys2Proof/Safety.lean ====
section
/-! DEFINITION. The terms statements are made in: the legal states of the block (the invariant every step keeps), what a command
needs to run (its operands written, its checks met), and views of the cells as numbers. -/

namespace Sys2Proof.Machine

/-! ## The invariant -/

/-- Every listed byte lies inside the extent of RAW, WORK, WIN, ACC or OUT (20_memory R82, R89). -/
def Memory.mapped (p : Params) (m : Memory) : Prop := ∀ c ∈ m, windowOf p c.1 = .ram ∨ windowOf p c.1 = .out

/-- The reserved bits of every register that has some are 0 (10_state R35, R37, R38, R42, R44). -/
def State.reservedZero (s : State) : Prop :=
  s.cfg &&& ~~~cfgMask = 0 ∧ s.ds &&& ~~~dsMask = 0 ∧ s.crop &&& ~~~cropMask = 0 ∧
  s.irqEn &&& ~~~irqEnMask = 0 ∧ s.status &&& ~~~statusMask = 0

/-- STATUS is one the block can show: an assigned error code (60_exceptions R301), and while a command runs neither DONE nor an error
code (10_state R45). -/
def State.statusLegal (s : State) : Prop :=
  (errField s.status).toNat ≤ 5 ∧ (s.busy = true → getFlag s.status .done = false ∧ errField s.status = 0)

/-- The legal states: an instance the spec allows, memory in canonical form and inside its windows, reserved bits 0, STATUS legal. -/
def State.Inv (s : State) : Prop :=
  s.params.legal = true ∧ s.mem.wf ∧ s.mem.mapped s.params ∧ s.reservedZero ∧ s.statusLegal

/-- The byte at an address is marked written. -/
def Memory.written (m : Memory) (a : Nat) : Bool := (m.read a).isSome

/-- Written marks belong to whole cells: the bytes of one WORK, WIN or OUT cell are all written or all unwritten (10_state R56). -/
def Memory.wholeCells (m : Memory) : Prop :=
  (∀ j < 2 ^ 27, m.written (workAddr j) = m.written (workAddr j + 1)) ∧
  (∀ j < 2 ^ 27, m.written (winAddr j) = m.written (winAddr j + 1)) ∧
  (∀ i < 2 ^ 26, ∀ k < 4, m.written (outAddr i) = m.written (outAddr i + k))

/-! ## What a command needs -/

/-- The common checks hold (60_exceptions R302). -/
def State.CommonOk (s : State) : Prop :=
  s.mode ≠ .reserved ∧ s.fftLog2 ≤ s.params.fftLog2Max ∧ (s.mode = .boxcar → 1 ≤ s.dsD)

/-- WLEN is even and at most RAW_CAP (40_conditioning, the WORK length check). -/
def State.WorkOk (s : State) : Prop := s.wlenN % 2 = 0 ∧ s.wlenN ≤ s.params.rawCap

/-- The checks of each command (files 40 to 44). -/
def checksOf : Instr → State → List Check
  | .nop, _ => []
  | .conv, s => s.convChecks
  | .dcr, s => s.dcrChecks
  | .boxcar, s => s.boxcarChecks
  | .rdec, s => s.rdecChecks
  | .comp, s => s.compChecks
  | .win, s => s.blockChecks
  | .xform, s => s.blockChecks
  | .acc, s => s.blockChecks
  | .clracc, s => s.clraccChecks
  | .rms, s => s.rmsChecks
  | .emit, s => s.emitChecks
  | .run, s => s.runChecks

/-- LEN is even and at most RAW_CAP (R140). -/
def State.LenOk (s : State) : Prop := s.lenN % 2 = 0 ∧ s.lenN ≤ s.params.rawCap

/-- The divisibility and the minimum of RDEC and RUN, of a length l (R160, R285). -/
def State.RecursiveOk (s : State) (l : Nat) : Prop :=
  1 ≤ s.passes → l % 2 ^ (s.passes + 1) = 0 ∧ 12 ≤ l / 2 ^ (s.passes - 1)

/-- The causes of BAD_CONFIG, by command (60_exceptions R301, R302). -/
def BadConfig : Instr → State → Prop
  | .nop, _ => False
  | .conv, s => ¬s.CommonOk
  | .dcr, s => ¬s.CommonOk
  | .boxcar, s => ¬s.CommonOk ∨ s.mode ≠ .boxcar
  | .rdec, s => ¬s.CommonOk ∨ s.mode ≠ .recursive
  | .comp, s => ¬s.CommonOk ∨ s.mode ≠ .recursive
  | .win, s => ¬s.CommonOk ∨ s.fftLog2 = 0
  | .xform, s => ¬s.CommonOk ∨ s.fftLog2 = 0
  | .acc, s => ¬s.CommonOk ∨ s.fftLog2 = 0
  | .clracc, s => s.params.fftLog2Max < s.fftLog2
  | .rms, s => ¬s.CommonOk
  | .emit, s => ¬s.CommonOk ∨ s.fftLog2 = 0 ∨ 65536 < s.cropC ∨ s.fs = 0
  | .run, s => ¬s.CommonOk

/-- The causes of BAD_LENGTH, by command (R301). -/
def BadLength : Instr → State → Prop
  | .nop, _ => False
  | .conv, s => ¬s.LenOk
  | .dcr, s => ¬s.WorkOk
  | .boxcar, s => ¬s.WorkOk
  | .rdec, s => ¬s.WorkOk ∨ ¬s.RecursiveOk s.wlenN
  | .comp, s => ¬s.WorkOk
  | .win, s => ¬s.WorkOk
  | .xform, s => ¬s.WorkOk
  | .acc, s => ¬s.WorkOk
  | .clracc, _ => False
  | .rms, s => ¬s.LenOk ∨ s.lenN < 2
  | .emit, _ => False
  | .run, s =>
    if s.fftLog2 = 0 then ¬s.LenOk ∨ s.lenN < 2
    else ¬s.LenOk ∨ s.lenN < 2 * s.bins * s.deff ∨ (s.mode = .recursive ∧ ¬s.RecursiveOk s.lenN)

/-- The cause of EMPTY: EMIT with PASS_CNT = 0 (R301). -/
def EmptyAtEmit (i : Instr) (s : State) : Prop := i = .emit ∧ s.passCnt = 0

/-- A check of the command fails. -/
def Rejected (i : Instr) (s : State) : Prop := BadConfig i s ∨ BadLength i s ∨ EmptyAtEmit i s

/-- RAW[0 .. n-1] are written. -/
def Memory.rawWritten (m : Memory) (n : Nat) : Prop := ∀ j < n, (m.raw j).isSome

/-- WORK[0 .. n-1] are written. -/
def Memory.workWritten (m : Memory) (n : Nat) : Prop := ∀ j < n, (m.work j).isSome

/-- WIN[0 .. n-1] are written. -/
def Memory.winWritten (m : Memory) (n : Nat) : Prop := ∀ j < n, (m.win j).isSome

/-- The cells a command that passed its checks reads are all written (60_exceptions R310). RDEC's first pass reads the stream
samples its stages name, 0 to max 5 (2K-2) with K = WLEN/4 (40_conditioning R161); later passes read what it wrote. RUN reads RAW
and, above bin count 1, WIN; its steps read what CONV wrote. -/
def OperandsWritten : Instr → State → Prop
  | .nop, _ => True
  | .conv, s => s.mem.rawWritten s.lenN
  | .dcr, s => s.mem.workWritten s.wlenN
  | .boxcar, s => s.dsD = 1 ∨ s.mem.workWritten (2 * (s.wlenN / 2 / s.dsD * s.dsD))
  | .rdec, s => s.passes = 0 ∨ s.mem.workWritten (max 12 (s.wlenN - 2))
  | .comp, s => s.passes < 1 ∨ s.params.compTable.length < s.passes ∨ s.mem.workWritten s.wlenN
  | .win, s => s.wlenN < 2 * s.bins ∨ (s.mem.winWritten s.bins ∧ s.mem.workWritten (s.wlenN / (2 * s.bins) * (2 * s.bins)))
  | .xform, s => s.mem.workWritten (s.wlenN / (2 * s.bins) * (2 * s.bins))
  | .acc, s => s.mem.workWritten (s.wlenN / (2 * s.bins) * (2 * s.bins))
  | .clracc, _ => True
  | .rms, s => s.mem.rawWritten s.lenN
  | .emit, _ => True
  | .run, s => s.mem.rawWritten s.lenN ∧ (s.fftLog2 = 0 ∨ s.mem.winWritten s.bins)

/-- A legal instance, in a state in which the command passes its checks and finds its operands written: it completes without error. -/
def Ready (i : Instr) (s : State) : Prop := s.params.legal = true ∧ ¬Rejected i s ∧ OperandsWritten i s

/-! ## Cells as numbers -/

/-- RAW[j] as a number; 0 where unwritten. -/
def Memory.rawV (m : Memory) (j : Nat) : Int := ((m.raw j).getD 0).toNat

/-- WORK[j] as a number; 0 where unwritten. -/
def Memory.workV (m : Memory) (j : Nat) : Int := ((m.work j).getD 0).toInt

/-- WIN[j] as a number; 0 where unwritten. -/
def Memory.winV (m : Memory) (j : Nat) : Int := ((m.win j).getD 0).toInt

/-! ## What the rules compute, on functions of an index -/

/-- The k-th output of one recursive pass on a stream x, by the weights of 40_conditioning R163. -/
def halfBand (x : Nat → Int) : Nat → Int
  | 0 => asr (10 * x 0 + 10 * x 1 + 5 * x 2 + 6 * x 3 + x 5) 4
  | 1 => asr (5 * x 0 + 10 * x 1 + 10 * x 2 + 5 * x 3 + x 4 + x 5) 4
  | 2 => asr (x 0 + 5 * x 1 + 10 * x 2 + 10 * x 3 + 5 * x 4 + x 5) 4
  | 3 => asr (x 2 + 5 * x 3 + 10 * x 4 + 15 * x 5 + x 6) 4
  | 4 => asr (x 4 + 15 * x 5 + 10 * x 6 + 5 * x 7 + x 8) 4
  | k + 5 =>
    asr (x (2 * k + 5) + 5 * x (2 * k + 6) + 10 * x (2 * k + 7) + 10 * x (2 * k + 8) + 5 * x (2 * k + 9) + x (2 * k + 10)) 4

/-- A stream after p recursive passes, each output wrapped to 16 bits at its store (40_conditioning R160, R161). -/
def passes (x : Nat → Int) : Nat → Nat → Int
  | 0, k => x k
  | p + 1, k => (wrap16 (halfBand (passes x p) k)).toInt

/-- I² + Q² of a pair of raw samples less the bias (42_power_reducer R235). -/
def rawPower (m : Memory) (bias : Int) (p : Nat) : Nat :=
  ((m.rawV (2 * p) - bias) ^ 2 + (m.rawV (2 * p + 1) - bias) ^ 2).toNat

/-- I² + Q² of pair k of the working buffer (41_spectral R210). -/
def workPower (m : Memory) (k : Nat) : Nat := (m.workV (2 * k) ^ 2 + m.workV (2 * k + 1) ^ 2).toNat

/-- Pair k of the working buffer, 0 where unwritten. -/
def workPair (m : Memory) (k : Nat) : Pair := ((m.work (2 * k)).getD 0, (m.work (2 * k + 1)).getD 0)

/-- R[j] of 43_emitter R250: the accumulator with bin 0 replaced by bin 1 and its halves swapped. -/
def emitOrder (m : Memory) (n j : Nat) : DWord :=
  let k := (j + n / 2) % n
  if k = 0 then m.acc 1 else m.acc k

/-- The addresses of the map (20_memory R82, 10_state R33): the registers, and the extents of the six windows. -/
def inMap (p : Params) (a : Nat) : Prop :=
  a < 0x58 ∨
  (0x10000000 ≤ a ∧ a < 0x10000000 + p.rawCap) ∨
  (0x20000000 ≤ a ∧ a < 0x20000000 + 2 * p.rawCap) ∨
  (0x30000000 ≤ a ∧ a < 0x30000000 + 2 * 2 ^ p.fftLog2Max) ∨
  (0x40000000 ≤ a ∧ a < 0x40000000 + 8 * 2 ^ p.fftLog2Max) ∨
  (0x50000000 ≤ a ∧ a < 0x50000000 + 4 * 2 ^ p.fftLog2Max) ∨
  (0x60000000 ≤ a ∧ a < 0x60000000 + 36 * p.compTable.length)

/-- The state with these pairs in the working buffer, as the host leaves it by writing WORK and WLEN (10_state R40, R51). -/
def State.loadWork (s : State) (ps : List Pair) : State := (s.withMem (s.mem.setPairs ps)).withWlen (2 * ps.length)

/-! ## Frames -/

/-- Every byte of memory outside `n` bytes from `a` reads as before. -/
def SameOutside (m m' : Memory) (a n : Nat) : Prop := ∀ x, ¬(a ≤ x ∧ x < a + n) → m'.read x = m.read x

/-- STATUS after a command that completes without error and flags nothing: DONE set, BUSY clear, the rest as before (R300). -/
def doneStatus (w : Word) : Word := clearFlag (setFlag w .done) .busy

/-- STATUS after a command that fails with an error code: ERR the code, ERRF set, then as at any completion (60_exceptions R300). -/
def errStatus (w : Word) (code : BitVec 4) : Word := doneStatus (setFlag (setErr w code) .errf)

/-- The state a failing command leaves: STATUS alone is written (R303). -/
def failed (s : State) (code : BitVec 4) : State := { s with status := errStatus s.status code }

/-- The command reports its errors in R302's order: BAD_CONFIG (3), then BAD_LENGTH (4), then EMPTY (5), and writes STATUS alone. -/
def ReportsErrors (i : Instr) : Prop :=
  ∀ s, (BadConfig i s → exec i s = .next (failed s 3)) ∧
    (¬BadConfig i s → BadLength i s → exec i s = .next (failed s 4)) ∧
    (¬BadConfig i s → ¬BadLength i s → EmptyAtEmit i s → exec i s = .next (failed s 5))

/-- n is LOG10C(f, r): an integer within 1/2 of f·log10(r) (42_power_reducer R230). -/
def IsLog10c (f : Nat) (r : ℝ) (n : Int) : Prop := |(f : ℝ) * Real.logb 10 r - (n : ℝ)| ≤ 1 / 2

/-- Run commands one after the other, as a host does that waits for each (30_encoding R118). -/
def runSeq : List Instr → State → Host.Outcome State Fault Refusal
  | [], s => .next s
  | i :: is, s =>
    match exec i s with
    | .next t => runSeq is t
    | .fault f => .fault f
    | .refused r => .refused r

/-- The commands RUN stands for above bin count 1 (44_control R285). -/
def State.runSteps (s : State) : List Instr :=
  [.conv] ++
  (if s.mode = .boxcar ∧ 2 ≤ s.dsD then [.boxcar] else []) ++
  (if s.mode = .recursive ∧ 1 ≤ s.passes then (.rdec :: if s.compEn then [.comp] else []) else []) ++
  [.dcr, .win, .xform, .acc]

end Sys2Proof.Machine
end

