-- ==== Sys2Proof/Certificates/Slice0/Obligations.lean ====
section
/-! DEFINITION. The statements for the provers, by the rules of spec/ they come from. `Ready`, `ReportsErrors`, `failed` and
`doneStatus` are in Safety.lean. A statement about an instruction gives its next state whole: the record update names every register
it writes, and the clauses on memory say which bytes it writes and what they hold. -/

section

open Sys2Proof Sys2Proof.Machine

/-! ## Encoding and decoding -/

/-- R113: the command of every word of the opcode map, and 0x0D to 0xFF reserved. -/
def Obligations.OpcodeMap : Prop :=
  decode 0x00000000 = .ok .nop ∧ decode 0x00000001 = .ok .conv ∧ decode 0x00000002 = .ok .dcr ∧
  decode 0x00000003 = .ok .boxcar ∧ decode 0x00000004 = .ok .rdec ∧ decode 0x00000005 = .ok .comp ∧
  decode 0x00000006 = .ok .win ∧ decode 0x00000007 = .ok .xform ∧ decode 0x00000008 = .ok .acc ∧
  decode 0x00000009 = .ok .clracc ∧ decode 0x0000000A = .ok .rms ∧ decode 0x0000000B = .ok .emit ∧
  decode 0x0000000C = .ok .run ∧
  ∀ w : Word, 0x0D ≤ w.toNat % 256 → decode w = .error .badOpcode

/-- R111, R113 to R115: decoding inverts encoding, in both directions, and what each other word is refused with. -/
def Obligations.DecoderIsExact : Prop :=
  (∀ (w : Word) (i : Instr), decode w = .ok i ↔ w = encode i) ∧
  (∀ w : Word, decode w = .error .badOpcode ↔ 0x0D ≤ w.toNat % 256) ∧
  (∀ w : Word, decode w = .error .rsvdBits ↔ w.toNat % 256 ≤ 0x0C ∧ w.toNat / 256 ≠ 0) ∧
  (∀ (w : Word) (e : CmdError), decode w = .error e → e = .badOpcode ∨ e = .rsvdBits)

/-- R114, R115: what the engine does with an accepted word before any other check. -/
def Obligations.IllegalWordsEndInError : Prop :=
  ∀ s : State, s.busy = true →
    (0x0D ≤ s.pending.toNat % 256 → engineTurn s = .next (failed s 1)) ∧
    (s.pending.toNat % 256 ≤ 0x0C → s.pending.toNat / 256 ≠ 0 → engineTurn s = .next (failed s 2)) ∧
    (s.pending.toNat ≤ 0x0C → ∃ i, encode i = s.pending ∧ engineTurn s = exec i s)

/-! ## The step -/

/-- A step runs the decoded command: with BUSY = 1 and PENDING a command's word, the step is `exec` of it, when the schedule is used
up or the engine is next in it; the schedule alone advances besides (R300; the schedule is the model's, log 4, log 5). -/
def Obligations.StepRunsTheCommand : Prop :=
  ∀ (s : State) (i : Instr), s.busy = true → s.pending = encode i →
    (s.schedule = [] → step s = exec i s) ∧
    (∀ rest, s.schedule = .engine :: rest → step s = exec i { s with schedule := rest })

/-- R57, R300: with BUSY = 0 the engine has no step (the schedule is the model's, log 5, log 18). -/
def Obligations.IdleEngineRests : Prop :=
  ∀ s : State, s.busy = false →
    (s.schedule = [] → step s = .next s) ∧
    (∀ rest, s.schedule = .engine :: rest → step s = .next { s with schedule := rest })

/-- R85: events take effect one at a time and in order (the schedule is the model's, log 4). -/
def Obligations.EventsInOrder : Prop :=
  ∀ s t : State, step s = .next t → t.schedule = s.schedule.tail

/-- R34: PARAMS's fields, read at any time, and no step changes the parameters. -/
def Obligations.ParamsRegister : Prop :=
  (∀ s : State, s.params.legal = true →
    let w := (s.busRead 0x004).readData
    (w.extractLsb' 0 8).toNat = s.params.fftLog2Max ∧
    (w.extractLsb' 8 8).toNat = s.params.compTable.length ∧
    2 ^ (w.extractLsb' 16 8).toNat ≤ s.params.rawCap ∧ s.params.rawCap < 2 ^ ((w.extractLsb' 16 8).toNat + 1) ∧
    w.extractLsb' 24 8 = 0) ∧
  (∀ s t : State, step s = .next t → t.params = s.params)

/-! ## Errors, completion and the model fault -/

/-- R302: the checks of every command, in order; a command none of whose causes holds reports nothing. -/
def Obligations.ErrorsInOrder : Prop :=
  ∀ i : Instr, ReportsErrors i ∧
    ∀ s t : State, ¬Rejected i s → exec i s = .next t →
      errField t.status = errField s.status ∧ getFlag t.status .errf = getFlag s.status .errf

/-- R303: a command that fails a decode or a check writes ERR, ERRF, DONE and BUSY and nothing else; one that passes its checks ends
with no error code; a set sticky flag of a command is the work of a command that passed its checks. -/
def Obligations.PreciseErrors : Prop :=
  (∀ (i : Instr) (s : State), Rejected i s → ∃ c : BitVec 4, c ≠ 0 ∧ exec i s = .next (failed s c)) ∧
  (∀ (s : State) (e : CmdError), s.busy = true → decode s.pending = .error e →
    ∃ c : BitVec 4, c ≠ 0 ∧ engineTurn s = .next (failed s c)) ∧
  (∀ (s : State) (c : BitVec 4),
    errField (failed s c).status = c ∧ getFlag (failed s c).status .errf = true ∧
    getFlag (failed s c).status .done = true ∧ getFlag (failed s c).status .busy = false ∧
    ∀ f : Flag, f ≠ .errf → f ≠ .done → f ≠ .busy → getFlag (failed s c).status f = getFlag s.status f) ∧
  (∀ (i : Instr) (s t : State), ¬Rejected i s → exec i s = .next t → errField t.status = errField s.status) ∧
  (∀ (i : Instr) (s t : State) (f : Flag), f = .compskip ∨ f = .logdom ∨ f = .logzero ∨ f = .noblk →
    exec i s = .next t → getFlag s.status f = false → getFlag t.status f = true → ¬Rejected i s)

/-- R304: acceptance sets ERR to 0; completion sets DONE and clears BUSY, ERR = 0 after it means success, and ERRF stays until the
host clears it (or the block is reset). A command that reads an unwritten cell ends in the model's fault instead (R310). -/
def Obligations.CompletionReports : Prop :=
  (∀ (s : State) (w : Word), s.busy = false →
    errField (s.busWrite 0x030 w).status = 0 ∧ (s.busWrite 0x030 w).busy = true) ∧
  (∀ s t : State, s.busy = true → errField s.status = 0 → engineTurn s = .next t →
    getFlag t.status .done = true ∧ t.busy = false ∧
    (errField t.status = 0 ↔ ∃ i, s.pending = encode i ∧ ¬Rejected i s) ∧
    (getFlag t.status .errf = true ↔ getFlag s.status .errf = true ∨ errField t.status ≠ 0)) ∧
  (∀ s t : State, step s = .next t → getFlag s.status .errf = true →
    getFlag t.status .errf = true ∨
    ∃ rest, s.schedule = .reset :: rest ∨ ∃ v : Word, s.schedule = .write 0x028 v :: rest ∧ v.getLsbD 2 = true)

/-- R310: on a legal instance a command ends in UNINIT exactly when its checks pass and a cell its pseudocode reads is unwritten, and
in every other case it completes. That RDEC reads the cells its stages name (R161) and so not the last pair of its buffer is the
model's reading (log 13, DEDUCED). -/
def Obligations.UninitExactly : Prop :=
  ∀ (i : Instr) (s : State), s.params.legal = true →
    (exec i s = .fault .uninit ↔ ¬Rejected i s ∧ ¬OperandsWritten i s) ∧
    (Rejected i s ∨ OperandsWritten i s → ∃ t, exec i s = .next t)

/-! ## What commands leave alone -/

/-- R50, R53, R57, R351: no command writes a configuration register, LEN, IRQ_EN or PENDING, and none writes RAW or WIN. Of the model's
own fields a command writes neither the schedule (log 4) nor readData (log 8). -/
def Obligations.CommandsLeaveOperands : Prop :=
  ∀ (i : Instr) (s t : State), s.params.legal = true → exec i s = .next t →
    t = { s with wlen := t.wlen, passCnt := t.passCnt, status := t.status, rmsDb := t.rmsDb, rmsDcDb := t.rmsDcDb,
                 emitCnt := t.emitCnt, emitSamples := t.emitSamples, lowHz := t.lowHz, highHz := t.highHz,
                 stepChz := t.stepChz, mem := t.mem, draws := t.draws } ∧
    (∀ j < s.params.rawCap, t.mem.raw j = s.mem.raw j) ∧
    (∀ j < 2 ^ s.params.fftLog2Max, t.mem.win j = s.mem.win j)

/-- R46, R47, R51, R52, R54: which command writes each result register and each result RAM; ACC's cells at N and above keep
their values. -/
def Obligations.ResultsHaveOneWriter : Prop :=
  ∀ (i : Instr) (s t : State), s.params.legal = true → exec i s = .next t →
    (i ≠ .rms → i ≠ .run → t.rmsDb = s.rmsDb ∧ t.rmsDcDb = s.rmsDcDb) ∧
    (i = .run → s.fftLog2 ≠ 0 → t.rmsDb = s.rmsDb ∧ t.rmsDcDb = s.rmsDcDb) ∧
    (i ≠ .emit → t.emitCnt = s.emitCnt ∧ t.emitSamples = s.emitSamples ∧ t.lowHz = s.lowHz ∧ t.highHz = s.highHz ∧
      t.stepChz = s.stepChz ∧ ∀ k < 2 ^ s.params.fftLog2Max, t.mem.out k = s.mem.out k) ∧
    (i ≠ .acc → i ≠ .clracc → i ≠ .emit → i ≠ .run → t.passCnt = s.passCnt ∧
      ∀ j < 2 ^ s.params.fftLog2Max, t.mem.acc j = s.mem.acc j) ∧
    (∀ j < 2 ^ s.params.fftLog2Max, s.bins ≤ j → t.mem.acc j = s.mem.acc j) ∧
    (i ≠ .conv → i ≠ .boxcar → i ≠ .rdec → i ≠ .run → t.wlen = s.wlen) ∧
    (i = .nop ∨ i = .acc ∨ i = .clracc ∨ i = .rms ∨ i = .emit → ∀ j < s.params.rawCap, t.mem.work j = s.mem.work j)

/-! ## Invariants -/

/-- Every step, of the host, the engine or the reset input, leaves a legal state legal (R6 to R8, R35 to R45, R82, R89, R301). -/
def Obligations.StepKeepsLegalStates : Prop :=
  ∀ s t : State, s.Inv → step s = .next t → t.Inv

/-- The state after reset is legal, and the written marks in it belong to whole cells. -/
def Obligations.ResetIsLegal : Prop := State.reset.Inv ∧ State.reset.mem.wholeCells

/-- R56, R83: every step leaves the written marks on whole cells of WORK, WIN and OUT. -/
def Obligations.StepKeepsWholeCells : Prop :=
  ∀ s t : State, s.Inv → s.mem.wholeCells → step s = .next t → t.mem.wholeCells

/-! ## The commands -/

/-- R280: NOP completes in every state, whatever CFG holds, and changes DONE and BUSY alone; accepted with BUSY = 0 it leaves ERR = 0,
and with DONE_IE = 1 it raises IRQ. -/
def Obligations.NopOnlyCompletes : Prop :=
  (∀ s : State, exec .nop s = .next { s with status := doneStatus s.status }) ∧
  (∀ s : State, s.busy = false → ∃ t, engineTurn (s.busWrite 0x030 0) = .next t ∧ errField t.status = 0 ∧
    getFlag t.status .done = true ∧ t.busy = false ∧ (doneIe s.irqEn = true → t.irq = true))

/-- R140: CONV. -/
def Obligations.ConvConverts : Prop :=
  ReportsErrors .conv ∧
  ∀ s : State, Ready .conv s →
    ∃ t, exec .conv s = .next t ∧
      t = { s with wlen := s.len, mem := t.mem, status := doneStatus s.status } ∧
      SameOutside s.mem t.mem (workAddr 0) (2 * s.lenN) ∧
      ∀ j < s.lenN, ∃ x : Sample, t.mem.work j = some x ∧
        x.toInt = s.mem.rawV j - (if s.cfg.getLsbD 5 then 128 else 127)

/-- R141: CONV never changes ACC, PASS_CNT or a sticky flag, and its result does not depend on WORK. -/
def Obligations.ConvIgnoresWork : Prop :=
  ∀ s t : State, s.params.legal = true → exec .conv s = .next t →
    t.passCnt = s.passCnt ∧ (∀ j, t.mem.acc j = s.mem.acc j) ∧
    (∀ f : Flag, f ≠ .busy → f ≠ .done → f ≠ .errf → getFlag t.status f = getFlag s.status f) ∧
    ∀ m : Memory, SameOutside s.mem m (workAddr 0) (2 * s.params.rawCap) →
      ∃ u, exec .conv (s.withMem m) = .next u ∧ u = { t with mem := u.mem } ∧
        (¬Rejected .conv s → ∀ j < s.lenN, u.mem.work j = t.mem.work j)

/-- R145: DCR. A stream of mean 0 is left as it is, since wrapping a sample changes nothing. -/
def Obligations.DcrRemovesMean : Prop :=
  ReportsErrors .dcr ∧
  ∀ s : State, Ready .dcr s →
    let n := s.wlenN / 2
    ∃ t, exec .dcr s = .next t ∧
      t = { s with mem := t.mem, status := doneStatus s.status } ∧
      SameOutside s.mem t.mem (workAddr 0) (2 * s.wlenN) ∧
      ∀ o < 2, ∀ m < n, t.mem.work (2 * m + o) = some (wrap16
        (s.mem.workV (2 * m + o) - (∑ k ∈ Finset.range n, s.mem.workV (2 * k + o)).tdiv n))

/-- R146: if no subtraction wraps, the mean of each stream after DCR lies strictly between -1 and 1. -/
def Obligations.DcrZeroMean : Prop :=
  ∀ (s : State) (o : Nat), Ready .dcr s → o < 2 → 2 ≤ s.wlenN →
    let n := s.wlenN / 2
    let mean := (∑ k ∈ Finset.range n, s.mem.workV (2 * k + o)).tdiv n
    (∀ m < n, -32768 ≤ s.mem.workV (2 * m + o) - mean ∧ s.mem.workV (2 * m + o) - mean ≤ 32767) →
    ∃ t, exec .dcr s = .next t ∧
      -(n : Int) < ∑ k ∈ Finset.range n, t.mem.workV (2 * k + o) ∧
      ∑ k ∈ Finset.range n, t.mem.workV (2 * k + o) < (n : Int)

/-- R150: BOXCAR. With D = 1 nothing changes; with D ≥ 2 the complete groups are summed, wrapped at the store, and the rest of the
working buffer is zeroed. -/
def Obligations.BoxcarSums : Prop :=
  ReportsErrors .boxcar ∧
  ∀ s : State, Ready .boxcar s →
    (s.dsD = 1 → exec .boxcar s = .next { s with status := doneStatus s.status }) ∧
    (2 ≤ s.dsD →
      let g := s.wlenN / 2 / s.dsD
      ∃ t, exec .boxcar s = .next t ∧
        t = { s with wlen := BitVec.ofNat 32 (2 * g), mem := t.mem, status := doneStatus s.status } ∧
        SameOutside s.mem t.mem (workAddr 0) (2 * s.wlenN) ∧
        (∀ o < 2, ∀ m < g, t.mem.work (2 * m + o) =
          some (wrap16 (∑ r ∈ Finset.range s.dsD, s.mem.workV (2 * (m * s.dsD + r) + o)))) ∧
        ∀ j, 2 * g ≤ j → j < s.wlenN → t.mem.work j = some 0)

/-- R160, R161, R163: RDEC. With P = 0 nothing changes. With P ≥ 1, pass p (of 1 to P) leaves WLEN >> (p+1) samples in each stream,
those of `passes`; the samples a later pass does not write again stay, and what lies past the first pass's outputs is not touched.
That it completes with the last pair of its buffer unwritten (`Ready`) is the model's reading of R161 (log 13, DEDUCED). -/
def Obligations.RdecDecimates : Prop :=
  ReportsErrors .rdec ∧
  ∀ s : State, Ready .rdec s →
    (s.passes = 0 → exec .rdec s = .next { s with status := doneStatus s.status }) ∧
    (1 ≤ s.passes →
      ∃ t, exec .rdec s = .next t ∧
        t = { s with wlen := BitVec.ofNat 32 (s.wlenN / 2 ^ s.passes), mem := t.mem, status := doneStatus s.status } ∧
        SameOutside s.mem t.mem (workAddr 0) (2 * (s.wlenN / 2)) ∧
        ∀ o < 2, ∀ p, 1 ≤ p → p ≤ s.passes → ∀ k < s.wlenN / 2 ^ (p + 1),
          p = s.passes ∨ s.wlenN / 2 ^ (p + 2) ≤ k →
          ∃ x : Sample, t.mem.work (2 * k + o) = some x ∧
            x.toInt = Sys2Proof.Machine.passes (fun m => s.mem.workV (2 * m + o)) p k)

/-- R170, R172: COMP. Outside rows 1 to COMP_TABLE_MAX it sets COMPSKIP alone; else the first 18 samples of each stream stay and the
others are filtered from the inputs. -/
def Obligations.CompFilters : Prop :=
  ReportsErrors .comp ∧
  ∀ s : State, Ready .comp s →
    (s.passes < 1 ∨ s.params.compTable.length < s.passes →
      exec .comp s = .next { s with status := doneStatus (setFlag s.status .compskip) }) ∧
    (1 ≤ s.passes → s.passes ≤ s.params.compTable.length →
      ∃ t, exec .comp s = .next t ∧
        t = { s with mem := t.mem, status := doneStatus s.status } ∧
        SameOutside s.mem t.mem (workAddr 0) (2 * s.wlenN) ∧
        (∀ o < 2, ∀ m < s.wlenN / 2, m < 18 → t.mem.work (2 * m + o) = s.mem.work (2 * m + o)) ∧
        ∀ o < 2, ∀ m < s.wlenN / 2, 18 ≤ m → t.mem.work (2 * m + o) = some (wrap16 (asr
          (∑ k ∈ Finset.range 9, Params.ctab s.params s.passes k * s.mem.workV (2 * (m - 9 + k) + o)) 15)))

/-- R171: with R8's coefficients the compensator's sum stays below 2^36 in magnitude. -/
def Obligations.CompSumFits : Prop :=
  ∀ (p : Params) (r m o : Nat) (mem : Memory), p.legal = true → 1 ≤ r → r ≤ p.compTable.length →
    |∑ k ∈ Finset.range 9, Params.ctab p r k * mem.workV (2 * (m - 9 + k) + o)| < 2 ^ 36

/-- R200: WIN. -/
def Obligations.WinMultiplies : Prop :=
  ReportsErrors .win ∧
  ∀ s : State, Ready .win s →
    let n := s.bins
    let b := s.wlenN / (2 * n)
    (b = 0 → exec .win s = .next { s with status := doneStatus (setFlag s.status .noblk) }) ∧
    (1 ≤ b →
      ∃ t, exec .win s = .next t ∧
        t = { s with mem := t.mem, status := doneStatus s.status } ∧
        SameOutside s.mem t.mem (workAddr 0) (2 * (2 * n * b)) ∧
        ∀ q < 2, ∀ c < b, ∀ j < n, t.mem.work (2 * n * c + 2 * j + q) =
          some (wrap16 (asr (s.mem.workV (2 * n * c + 2 * j + q) * s.mem.winV j) s.winShift)))

/-- R205: XFORM. FFT_N is the free function of R11 (log 3): bin k of a block depends on the block's pairs alone. -/
def Obligations.XformTransforms : Prop :=
  ReportsErrors .xform ∧
  ∀ s : State, Ready .xform s →
    let n := s.bins
    let b := s.wlenN / (2 * n)
    (b = 0 → exec .xform s = .next { s with status := doneStatus (setFlag s.status .noblk) }) ∧
    (1 ≤ b →
      ∃ t, exec .xform s = .next t ∧
        t = { s with mem := t.mem, status := doneStatus s.status } ∧
        SameOutside s.mem t.mem (workAddr 0) (2 * (2 * n * b)) ∧
        ∀ c < b, ∀ k < n,
          let z := Config.fftBin s.fftLog2 ((List.range n).map fun i => workPair s.mem (n * c + i)) k
          t.mem.work (2 * n * c + 2 * k) = some z.1 ∧ t.mem.work (2 * n * c + 2 * k + 1) = some z.2)

/-- R210, R212: ACC. Averaging adds the powers of every block modulo 2^64, peak-hold takes the maximum; PASS_CNT grows by Deff per
block modulo 2^32. -/
def Obligations.AccAccumulates : Prop :=
  ReportsErrors .acc ∧
  ∀ s : State, Ready .acc s →
    let n := s.bins
    let b := s.wlenN / (2 * n)
    (b = 0 → exec .acc s = .next { s with status := doneStatus (setFlag s.status .noblk) }) ∧
    (1 ≤ b →
      ∃ t, exec .acc s = .next t ∧
        t = { s with passCnt := BitVec.ofNat 32 (s.passCnt.toNat + b * s.deff), mem := t.mem,
                     status := doneStatus s.status } ∧
        SameOutside s.mem t.mem (accAddr 0) (8 * n) ∧
        ∀ j < n,
          (s.peak = false → (t.mem.acc j).toNat =
            ((s.mem.acc j).toNat + ∑ c ∈ Finset.range b, workPower s.mem (n * c + j)) % 2 ^ 64) ∧
          (s.peak = true → (t.mem.acc j).toNat =
            max (s.mem.acc j).toNat ((Finset.range b).sup fun c => workPower s.mem (n * c + j))))

/-- R211: a power is at most 2^31. -/
def Obligations.PowerFits : Prop := ∀ (m : Memory) (k : Nat), workPower m k ≤ 2 ^ 31

/-- R213: accumulating A then B gives the accumulator and the pass count of B then A; under peak-hold a second ACC of the same
buffer leaves the accumulator as it is, and PASS_CNT grows again. -/
def Obligations.AccumulationLaws : Prop :=
  (∀ (s : State) (as bs : List Pair), s.params.legal = true → s.CommonOk → 1 ≤ s.fftLog2 → s.peak = false →
    2 * as.length ≤ s.params.rawCap → 2 * bs.length ≤ s.params.rawCap →
    ∃ t t' u u', exec .acc (s.loadWork as) = .next t ∧ exec .acc (t.loadWork bs) = .next t' ∧
      exec .acc (s.loadWork bs) = .next u ∧ exec .acc (u.loadWork as) = .next u' ∧
      (∀ j, t'.mem.acc j = u'.mem.acc j) ∧ t'.passCnt = u'.passCnt) ∧
  (∀ s : State, Ready .acc s → s.peak = true →
    ∃ t u, exec .acc s = .next t ∧ exec .acc t = .next u ∧ (∀ j, u.mem.acc j = t.mem.acc j) ∧
      u.passCnt.toNat = (s.passCnt.toNat + 2 * (s.wlenN / (2 * s.bins) * s.deff)) % 2 ^ 32)

/-- R215: CLRACC. -/
def Obligations.ClraccClears : Prop :=
  ReportsErrors .clracc ∧
  ∀ s : State, Ready .clracc s →
    ∃ t, exec .clracc s = .next t ∧
      t = { s with passCnt := 0, mem := t.mem, status := doneStatus s.status } ∧
      SameOutside s.mem t.mem (accAddr 0) (8 * s.bins) ∧ ∀ j < s.bins, t.mem.acc j = 0

/-- R235: RMS. S = 0 and rms ≤ dc give the sentinel with LOGZERO and LOGDOM; else each register holds a nearest integer of its real
value (saturated as R233 says). The choice at a tie of RMS_DC_DB is free (R231, log 10). -/
def Obligations.RmsMeasures : Prop :=
  ReportsErrors .rms ∧
  ∀ s : State, Ready .rms s →
    let n := s.lenN / 2
    let pw := fun p => rawPower s.mem (if s.cfg.getLsbD 5 then 128 else 127) p
    let total := ∑ p ∈ Finset.range n, pw p
    let ref : ℝ := if s.cfg.getLsbD 4 then 181 else 90.5
    let rms : ℝ := √((total : ℝ) / n)
    let dc : ℝ := (∑ p ∈ Finset.range n, √(pw p : ℝ)) / n
    ∃ t, exec .rms s = .next t ∧
      t = { s with rmsDb := t.rmsDb, rmsDcDb := t.rmsDcDb, status := t.status, draws := t.draws } ∧
      (total = 0 → t.rmsDb = 0x80000000) ∧
      (total ≠ 0 → ∃ k, IsLog10c 1000 ((total : ℝ) / (n * ref ^ 2)) k ∧ t.rmsDb = dbWord k) ∧
      (rms ≤ dc → t.rmsDcDb = 0x80000000) ∧
      (dc < rms → ∃ k, IsLog10c 2000 ((rms - dc) / ref) k ∧ t.rmsDcDb = dbWord k) ∧
      (getFlag t.status .logzero = true ↔ getFlag s.status .logzero = true ∨ total = 0) ∧
      (getFlag t.status .logdom = true ↔ getFlag s.status .logdom = true ∨ rms ≤ dc) ∧
      getFlag t.status .done = true ∧ t.busy = false ∧
      ∀ b, b ≠ 0 → b ≠ 1 → b ≠ 9 → b ≠ 10 → t.status.getLsbD b = s.status.getLsbD b

/-- R236: rms is never below dc, they are equal exactly when all pairs have one magnitude, and that is when RMS sets LOGDOM. -/
def Obligations.LogdomExactly : Prop :=
  ∀ s : State, Ready .rms s →
    let n := s.lenN / 2
    let pw := fun p => rawPower s.mem s.bias p
    let rms : ℝ := √((∑ p ∈ Finset.range n, pw p : ℕ) / (n : ℝ))
    let dc : ℝ := (∑ p ∈ Finset.range n, √(pw p : ℝ)) / n
    dc ≤ rms ∧ (rms = dc ↔ ∀ p < n, pw p = pw 0) ∧
    ∃ t, exec .rms s = .next t ∧
      (getFlag t.status .logdom = true ↔ getFlag s.status .logdom = true ∨ ∀ p < n, pw p = pw 0)

/-- R237: RMS_DB with REFSEL = 1 is RMS_DB with REFSEL = 0 less 602.06, within 1. -/
def Obligations.ReferencesDifferByTwo : Prop :=
  ∀ s : State, Ready .rms s → s.cfg.getLsbD 4 = false →
    (∃ p < s.lenN / 2, rawPower s.mem s.bias p ≠ 0) →
    ∃ t u, exec .rms s = .next t ∧ exec .rms { s with cfg := s.cfg ||| 0x10 } = .next u ∧
      602 ≤ t.rmsDb.toInt - u.rmsDb.toInt ∧ t.rmsDb.toInt - u.rmsDb.toInt ≤ 603

/-- R250: EMIT. -/
def Obligations.EmitReports : Prop :=
  ReportsErrors .emit ∧
  ∀ s : State, Ready .emit s →
    let n := s.bins
    let d := n * s.cropC / 131072
    let kept := n * (65536 - s.cropC) / 65536
    let e := n - 2 * d
    let half := s.fs.toNat * kept / (2 * n * s.deff)
    let x := fun i => emitOrder s.mem n (d + i)
    ∃ t, exec .emit s = .next t ∧
      t = { s with
            lowHz := BitVec.ofInt 64 ((s.fc.toNat : Int) - half),
            highHz := BitVec.ofInt 64 ((s.fc.toNat : Int) + half),
            stepChz := BitVec.ofNat 32 (min (2 ^ 32 - 1) ((200 * s.fs.toNat + n * s.deff) / (2 * n * s.deff))),
            emitCnt := BitVec.ofNat 32 e, emitSamples := s.passCnt, passCnt := 0, mem := t.mem, status := t.status } ∧
      (∀ a, ¬(outAddr 0 ≤ a ∧ a < outAddr 0 + 4 * e) → ¬(accAddr 0 ≤ a ∧ a < accAddr 0 + 8 * n) →
        t.mem.read a = s.mem.read a) ∧
      (∀ j < n, t.mem.acc j = 0) ∧
      (∀ i < e, x i = 0 → t.mem.out i = some 0x80000000) ∧
      (∀ i < e, x i ≠ 0 → ∃ k, IsLog10c 1000 (((x i).toNat : ℝ) / (s.fs.toNat * s.passCnt.toNat)) k ∧
        t.mem.out i = some (dbWord k)) ∧
      ((∃ i < e, x i = 0) → t.status = doneStatus (setFlag s.status .logzero)) ∧
      ((∀ i < e, x i ≠ 0) → t.status = doneStatus s.status)

/-- R285: RUN checks first, is RMS when the bin count is 1, and is otherwise CONV, the decimation its mode names, DCR, WIN, XFORM and
ACC, each run on the state the one before left. -/
def Obligations.RunIsItsSteps : Prop :=
  ReportsErrors .run ∧
  ∀ s : State, ¬Rejected .run s →
    (s.fftLog2 = 0 → exec .run s = exec .rms s) ∧
    (s.fftLog2 ≠ 0 → exec .run s = runSeq s.runSteps s)

/-- R286: with bin count 1, RUN is RMS and reads no memory but RAW below LEN, so neither WORK nor WIN: from any memory with those bytes
it completes with the same registers, leaving that memory, or faults, as before; and WIN, XFORM and ACC refuse with BAD_CONFIG.
Above bin count 1 RUN never writes RMS's registers or flags. -/
def Obligations.RoutingLaw : Prop :=
  (∀ s : State, s.fftLog2 = 0 →
    exec .run s = exec .rms s ∧
    (∀ m : Memory, (∀ j < s.lenN, m.raw j = s.mem.raw j) →
      (∀ t, exec .run s = .next t → exec .run (s.withMem m) = .next (t.withMem m)) ∧
      (∀ e, exec .run s = .fault e → exec .run (s.withMem m) = .fault e)) ∧
    exec .win s = .next (failed s 3) ∧ exec .xform s = .next (failed s 3) ∧ exec .acc s = .next (failed s 3)) ∧
  (∀ s t : State, s.fftLog2 ≠ 0 → exec .run s = .next t →
    t.rmsDb = s.rmsDb ∧ t.rmsDcDb = s.rmsDcDb ∧
    getFlag t.status .logzero = getFlag s.status .logzero ∧ getFlag t.status .logdom = getFlag s.status .logdom)

/-- R287, R288: above bin count 1 a RUN that passes its checks completes, never sets NOBLK, and adds B·Deff to PASS_CNT; COMPSKIP is
set when compensation is enabled and asked beyond the table; only WORK up to LEN and ACC up to N are written. -/
def Obligations.RunAddsPasses : Prop :=
  ∀ s : State, Ready .run s → s.fftLog2 ≠ 0 →
    let n := s.bins
    let skipped := s.mode = .recursive ∧ s.compEn = true ∧ s.params.compTable.length < s.passes
    ∃ t, exec .run s = .next t ∧
      t = { s with wlen := t.wlen, passCnt := t.passCnt, mem := t.mem, status := t.status } ∧
      (skipped → t.status = doneStatus (setFlag s.status .compskip)) ∧
      (¬skipped → t.status = doneStatus s.status) ∧
      (s.mode = .none → t.wlen = s.len ∧
        t.passCnt = s.passCnt + BitVec.ofNat 32 (s.lenN / (2 * n))) ∧
      (s.mode = .boxcar → t.wlenN = 2 * (s.lenN / (2 * s.dsD)) ∧
        t.passCnt = s.passCnt + BitVec.ofNat 32 (s.lenN / (2 * s.dsD) / n * s.dsD)) ∧
      (s.mode = .recursive → t.wlenN = s.lenN / 2 ^ s.passes ∧
        t.passCnt = s.passCnt + BitVec.ofNat 32 (s.lenN / 2 ^ s.passes / (2 * n) * 2 ^ s.passes)) ∧
      2 * n ≤ t.wlenN ∧
      ∀ a, ¬(workAddr 0 ≤ a ∧ a < workAddr 0 + 2 * s.lenN) → ¬(accAddr 0 ≤ a ∧ a < accAddr 0 + 8 * n) →
        t.mem.read a = s.mem.read a

/-! ## The logarithm -/

/-- R230: the exact test holds of an integer strictly within 1/2, for every real ratio; and for a rational ratio `log10c` is LOG10C,
by the definition and by the test, and no other integer is (R231). -/
def Obligations.LogIsNearest : Prop :=
  (∀ (f : Nat) (r : ℝ) (n : Int), 1 ≤ f → 0 < r →
    ((10 : ℝ) ^ (2 * n - 1) < r ^ (2 * f) ∧ r ^ (2 * f) < (10 : ℝ) ^ (2 * n + 1) ↔
      |(f : ℝ) * Real.logb 10 r - n| < 1 / 2)) ∧
  ∀ f a b : Nat, 1 ≤ f → 1 ≤ a → 1 ≤ b → ∀ n : Int,
    let r : ℝ := (a : ℝ) / b
    (IsLog10c f r n ↔ n = log10c f a b) ∧
    ((10 : ℝ) ^ (2 * n - 1) < r ^ (2 * f) ∧ r ^ (2 * f) < (10 : ℝ) ^ (2 * n + 1) ↔ n = log10c f a b)

/-- R233: a stored dB value is its integer saturated, never the sentinel; an EMIT value lies in -19266 to 19266. -/
def Obligations.StoredDecibels : Prop :=
  (∀ n : Int, (dbWord n).toInt = max (-(2 ^ 31 - 1)) (min (2 ^ 31 - 1) n) ∧ dbWord n ≠ 0x80000000) ∧
  (∀ x fs cnt : Nat, 1 ≤ x → x < 2 ^ 64 → 1 ≤ fs → fs < 2 ^ 32 → 1 ≤ cnt → cnt < 2 ^ 32 →
    -19266 ≤ log10c 1000 x (fs * cnt) ∧ log10c 1000 x (fs * cnt) ≤ 19266)

/-! ## The host's side -/

/-- R60: what reset leaves, PENDING apart (which the spec leaves unspecified: log 7). -/
def Obligations.ResetValues : Prop :=
  let s := State.reset
  s.readReg .id = 0x52534450 ∧ s.readReg .params = paramsWord s.params ∧
  s.cfg = 0 ∧ s.ds = 1 ∧ s.crop = 0 ∧ s.fc = 0 ∧ s.fs = 0 ∧ s.len = 0 ∧ s.wlen = 0 ∧ s.passCnt = 0 ∧ s.status = 0 ∧
  s.irqEn = 0 ∧ s.irq = false ∧ s.rmsDb = 0 ∧ s.rmsDcDb = 0 ∧ s.emitCnt = 0 ∧ s.emitSamples = 0 ∧ s.lowHz = 0 ∧ s.highHz = 0 ∧ s.stepChz = 0 ∧
  (∀ j < s.params.rawCap, s.mem.raw j = none ∧ s.mem.work j = none) ∧
  (∀ j < 2 ^ s.params.fftLog2Max, s.mem.win j = none ∧ s.mem.out j = none ∧ s.mem.acc j = 0)

/-- R340: the reset step, from any state: the state after reset, the table and the other parameters unchanged, an accepted command
gone (what is not the block's, the host's last read, the draw counter and the schedule, is left out: log 19). -/
def Obligations.ResetStep : Prop :=
  ∀ (s : State) (rest : List Event), s.schedule = .reset :: rest →
    ∃ t, step s = .next t ∧ t.busy = false ∧ t.irq = false ∧
      { t with pending := 0, readData := 0, draws := 0, schedule := [] } = { State.reset with params := s.params }

/-- R45: a CMD write with BUSY = 0 accepts the command, one with BUSY = 1 is dropped with WRBUSY, and CMD reads 0. -/
def Obligations.CmdAcceptance : Prop :=
  ∀ (s : State) (w : Word),
    (s.busy = false → ∃ x : Word, s.busWrite 0x030 w = { s with pending := w, status := x } ∧
      getFlag x .busy = true ∧ getFlag x .done = false ∧ errField x = 0 ∧
      ∀ f : Flag, f ≠ .busy → f ≠ .done → getFlag x f = getFlag s.status f) ∧
    (s.busy = true → s.busWrite 0x030 w = { s with status := setFlag s.status .wrbusy }) ∧
    s.busRead 0x030 = { s with readData := 0 }

/-- R350: a write while BUSY = 1 to any register or RAM but STATUS and IRQ_EN changes nothing but WRBUSY; one that is also a bus error
sets BUSERR and not WRBUSY; STATUS and IRQ_EN take it. That a register which ignores its writes (R49), or OUT (R54), is among them
is the model's reading (log 14, DEDUCED). -/
def Obligations.WritesWhileBusy : Prop :=
  ∀ (s : State) (a v : Word), s.params.legal = true → s.busy = true →
    (a.toNat % 4 = 0 → inMap s.params a.toNat → a.toNat < 0x60000000 → a ≠ 0x028 → a ≠ 0x02C →
      s.busWrite a v = { s with status := setFlag s.status .wrbusy }) ∧
    (a.toNat % 4 ≠ 0 ∨ ¬inMap s.params a.toNat ∨ 0x60000000 ≤ a.toNat →
      s.busWrite a v = { s with status := setFlag s.status .buserr }) ∧
    s.busWrite 0x028 v = { s with status := s.status &&& ~~~(v &&& 0x3F06) } ∧
    s.busWrite 0x02C v = { s with irqEn := v &&& 3 }

/-- R351: while BUSY = 1 the registers no command writes read as they are, CMD as 0, and every other register and every RAM cell as
a free word, a draw (the counter of draws is the model's, log 9). -/
def Obligations.ReadsWhileBusy : Prop :=
  ∀ s : State, s.params.legal = true → s.busy = true →
    s.busRead 0x000 = { s with readData := 0x52534450 } ∧
    s.busRead 0x004 = { s with readData := paramsWord s.params } ∧
    s.busRead 0x028 = { s with readData := s.status } ∧ s.busRead 0x02C = { s with readData := s.irqEn } ∧
    s.busRead 0x008 = { s with readData := s.cfg } ∧ s.busRead 0x00C = { s with readData := s.ds } ∧
    s.busRead 0x010 = { s with readData := s.crop } ∧ s.busRead 0x014 = { s with readData := s.fc } ∧
    s.busRead 0x018 = { s with readData := s.fs } ∧ s.busRead 0x01C = { s with readData := s.len } ∧
    s.busRead 0x030 = { s with readData := 0 } ∧
    ∀ a : Word, a.toNat % 4 = 0 → inMap s.params a.toNat →
      (a.toNat = 0x020 ∨ a.toNat = 0x024 ∨ (0x034 ≤ a.toNat ∧ a.toNat < 0x60000000)) →
      s.busRead a = { s with readData := Config.draw s.draws, draws := s.draws + 1 }

/-- R88: a bus error changes BUSERR alone, its read returns 0, and an access that is none leaves BUSERR as it is (but a STATUS write,
which may clear it). -/
def Obligations.BusErrors : Prop :=
  ∀ (s : State) (a v : Word), s.params.legal = true →
    (a.toNat % 4 ≠ 0 ∨ ¬inMap s.params a.toNat →
      s.busWrite a v = { s with status := setFlag s.status .buserr } ∧
      s.busRead a = { s with status := setFlag s.status .buserr, readData := 0 }) ∧
    (0x60000000 ≤ a.toNat → s.busWrite a v = { s with status := setFlag s.status .buserr }) ∧
    (a.toNat % 4 = 0 → inMap s.params a.toNat → (s.busRead a).status = s.status ∧
      (a.toNat < 0x60000000 → a ≠ 0x028 → getFlag (s.busWrite a v).status .buserr = getFlag s.status .buserr))

/-- R43: a STATUS write clears the W1C bits written as 1 and changes no other bit, busy or not. -/
def Obligations.StatusWrite : Prop :=
  ∀ (s : State) (v : Word), ∃ x : Word, s.busWrite 0x028 v = { s with status := x } ∧
    ∀ b < 32, x.getLsbD b =
      (s.status.getLsbD b && !(v.getLsbD b && (decide (b = 1) || decide (b = 2) || (decide (8 ≤ b) && decide (b ≤ 13)))))

/-- R58: IRQ is (DONE and DONE_IE) or (ERRF and ERR_IE), 0 after reset; writing 1 to DONE and ERRF drops it (R307); clearing the
enables drops it with the pending bits kept, and setting them again raises it (R305). -/
def Obligations.InterruptLine : Prop :=
  State.reset.irq = false ∧ ∀ s : State,
    (s.irq = true ↔ (s.status.getLsbD 1 = true ∧ s.irqEn.getLsbD 0 = true) ∨
      (s.status.getLsbD 2 = true ∧ s.irqEn.getLsbD 1 = true)) ∧
    (s.busWrite 0x028 6).irq = false ∧
    (s.busWrite 0x02C 0).irq = false ∧ (s.busWrite 0x02C 0).status = s.status ∧
    (s.irq = true → ((s.busWrite 0x02C 0).busWrite 0x02C 3).irq = true)

/-- R36: CFG, DS and CROP store every field that is not reserved as written, and read back so. -/
def Obligations.ConfigurationStores : Prop :=
  ∀ (s : State) (v : Word), s.busy = false →
    s.busWrite 0x008 v = { s with cfg := v &&& 0x00FF1F3F } ∧
    s.busWrite 0x00C v = { s with ds := v &&& 0x0000FFFF } ∧
    s.busWrite 0x010 v = { s with crop := v &&& 0x0001FFFF } ∧
    ((s.busWrite 0x008 v).busRead 0x008).readData = v &&& 0x00FF1F3F ∧
    ((s.busWrite 0x00C v).busRead 0x00C).readData = v &&& 0x0000FFFF ∧
    ((s.busWrite 0x010 v).busRead 0x010).readData = v &&& 0x0001FFFF

/-- R31, R33, R34, R39 to R41, R44 to R48: the other registers a host writes, and what every register reads as with BUSY = 0. -/
def Obligations.RegistersStore : Prop :=
  ∀ (s : State) (v : Word), s.busy = false →
    s.busWrite 0x014 v = { s with fc := v } ∧ s.busWrite 0x018 v = { s with fs := v } ∧
    s.busWrite 0x01C v = { s with len := v } ∧ s.busWrite 0x020 v = { s with wlen := v } ∧
    s.busWrite 0x024 v = { s with passCnt := v } ∧ s.busWrite 0x02C v = { s with irqEn := v &&& 3 } ∧
    (s.busRead 0x000).readData = 0x52534450 ∧ (s.busRead 0x004).readData = paramsWord s.params ∧
    (s.busRead 0x008).readData = s.cfg ∧ (s.busRead 0x00C).readData = s.ds ∧ (s.busRead 0x010).readData = s.crop ∧
    (s.busRead 0x030).readData = 0 ∧
    (s.busRead 0x014).readData = s.fc ∧ (s.busRead 0x018).readData = s.fs ∧ (s.busRead 0x01C).readData = s.len ∧
    (s.busRead 0x020).readData = s.wlen ∧ (s.busRead 0x024).readData = s.passCnt ∧
    (s.busRead 0x028).readData = s.status ∧ (s.busRead 0x02C).readData = s.irqEn ∧
    (s.busRead 0x034).readData = s.rmsDb ∧ (s.busRead 0x038).readData = s.rmsDcDb ∧
    (s.busRead 0x03C).readData = s.emitCnt ∧ (s.busRead 0x040).readData = s.emitSamples ∧
    (s.busRead 0x048).readData ++ (s.busRead 0x044).readData = s.lowHz ∧
    (s.busRead 0x050).readData ++ (s.busRead 0x04C).readData = s.highHz ∧ (s.busRead 0x054).readData = s.stepChz

/-- R49: an offset the register map does not list is a bus error; a write to a read-only register is ignored without one; CMD
reads 0. -/
def Obligations.ReadOnlyRegisters : Prop :=
  ∀ (s : State) (a v : Word),
    (0x058 ≤ a.toNat ∨ a.toNat % 4 ≠ 0 → a.toNat < 0x1000 →
      s.busWrite a v = { s with status := setFlag s.status .buserr } ∧
      s.busRead a = { s with status := setFlag s.status .buserr, readData := 0 }) ∧
    (s.busy = false → a.toNat % 4 = 0 → a.toNat < 0x008 ∨ (0x034 ≤ a.toNat ∧ a.toNat < 0x058) → s.busWrite a v = s) ∧
    (s.busRead 0x030).readData = 0

/-- R83: how the cells of each window lie in its words, for a write (every cell of the word is written, and nothing else changes) and
for a read (every written cell is returned in its place). -/
def Obligations.WordPacking : Prop :=
  ∀ (s : State) (v : Word) (k : Nat), s.params.legal = true → s.busy = false →
    (4 * k < s.params.rawCap →
      (∃ t, s.busWrite (BitVec.ofNat 32 (0x10000000 + 4 * k)) v = t ∧ t = { s with mem := t.mem } ∧
        SameOutside s.mem t.mem (rawAddr (4 * k)) 4 ∧
        ∀ i < 4, t.mem.raw (4 * k + i) = some (v.extractLsb' (8 * i) 8)) ∧
      ∀ i < 4, ∀ x, s.mem.raw (4 * k + i) = some x →
        (s.busRead (BitVec.ofNat 32 (0x10000000 + 4 * k))).readData.extractLsb' (8 * i) 8 = x) ∧
    (4 * k < 2 * s.params.rawCap →
      (∃ t, s.busWrite (BitVec.ofNat 32 (0x20000000 + 4 * k)) v = t ∧ t = { s with mem := t.mem } ∧
        SameOutside s.mem t.mem (workAddr (2 * k)) 4 ∧
        ∀ i < 2, t.mem.work (2 * k + i) = some (v.extractLsb' (16 * i) 16)) ∧
      ∀ i < 2, ∀ x, s.mem.work (2 * k + i) = some x →
        (s.busRead (BitVec.ofNat 32 (0x20000000 + 4 * k))).readData.extractLsb' (16 * i) 16 = x) ∧
    (4 * k < 2 * 2 ^ s.params.fftLog2Max →
      (∃ t, s.busWrite (BitVec.ofNat 32 (0x30000000 + 4 * k)) v = t ∧ t = { s with mem := t.mem } ∧
        SameOutside s.mem t.mem (winAddr (2 * k)) 4 ∧
        ∀ i < 2, t.mem.win (2 * k + i) = some (v.extractLsb' (16 * i) 16)) ∧
      ∀ i < 2, ∀ x, s.mem.win (2 * k + i) = some x →
        (s.busRead (BitVec.ofNat 32 (0x30000000 + 4 * k))).readData.extractLsb' (16 * i) 16 = x) ∧
    (8 * k < 8 * 2 ^ s.params.fftLog2Max → ∀ h < 2,
      let a := BitVec.ofNat 32 (0x40000000 + 8 * k + 4 * h)
      (∃ t, s.busWrite a v = t ∧ t = { s with mem := t.mem } ∧ SameOutside s.mem t.mem (accAddr k + 4 * h) 4 ∧
        (t.mem.acc k).extractLsb' (32 * h) 32 = v) ∧
      (s.busRead a).readData = (s.mem.acc k).extractLsb' (32 * h) 32) ∧
    (4 * k < 4 * 2 ^ s.params.fftLog2Max →
      s.busWrite (BitVec.ofNat 32 (0x50000000 + 4 * k)) v = s ∧
      ∀ x, s.mem.out k = some x → (s.busRead (BitVec.ofNat 32 (0x50000000 + 4 * k))).readData = x) ∧
    (∀ r t, 1 ≤ r → r ≤ s.params.compTable.length → t < 9 →
      (s.busRead (BitVec.ofNat 32 (0x60000000 + 4 * (9 * (r - 1) + t)))).readData.toInt = Params.ctab s.params r t)

/-- R86: a read changes no register and no RAM cell, but BUSERR on a bus error (R88); a write made twice does what it does once,
CMD apart. -/
def Obligations.AccessesHaveNoOtherEffect : Prop :=
  (∀ (s : State) (a : Word), ∃ t, s.busRead a = t ∧
    t = { s with readData := t.readData, draws := t.draws, status := t.status } ∧
    (t.status = s.status ∨ t.status = setFlag s.status .buserr)) ∧
  (∀ (s : State) (a v : Word), s.mem.wf → a ≠ 0x030 → (s.busWrite a v).busWrite a v = s.busWrite a v)

end
end

