-- ==== Sys2Proof/Laws/Arith.lean ====
section
/-! SUPPORT. The laws of the bitwise search, the integer square root, saturation and the shifts. -/

namespace Sys2Proof.Machine

/-- What `greatest` finds from an `acc` with `p acc`: a k below the bound with `p k`, and `p` fails at k + 1 unless the bound is
reached. -/
theorem greatest_spec {p : Nat → Bool} (bits acc : Nat) (h : p acc = true) :
    p (greatest p bits acc) = true ∧ acc ≤ greatest p bits acc ∧ greatest p bits acc < acc + 2 ^ bits ∧
    (greatest p bits acc + 1 < acc + 2 ^ bits → p (greatest p bits acc + 1) = false) := by
  induction bits generalizing acc with
  | zero => exact ⟨h, le_rfl, by simp [greatest], by simp [greatest]⟩
  | succ b ih =>
    have hb : 2 ^ (b + 1) = 2 ^ b + 2 ^ b := by rw [pow_succ]; omega
    have hpos : 0 < 2 ^ b := Nat.two_pow_pos b
    unfold greatest
    split
    · next hp =>
      obtain ⟨h1, h2, h3, h4⟩ := ih (acc + 2 ^ b) hp
      refine ⟨h1, by omega, by omega, fun hlt => h4 (by omega)⟩
    · next hp =>
      obtain ⟨h1, h2, h3, h4⟩ := ih acc h
      refine ⟨h1, h2, by omega, fun hlt => ?_⟩
      by_cases hs : greatest p b acc + 1 < acc + 2 ^ b
      · exact h4 hs
      · have : greatest p b acc + 1 = acc + 2 ^ b := by omega
        rw [this]
        simpa using hp

/-- The integer square root: k² ≤ n < (k+1)². -/
theorem isqrt_spec (n : Nat) : isqrt n * isqrt n ≤ n ∧ n < (isqrt n + 1) * (isqrt n + 1) := by
  obtain ⟨h1, -, h3, h4⟩ := greatest_spec (p := fun k => decide (k * k ≤ n)) (n.log2 / 2 + 1) 0 (by simp)
  refine ⟨by simpa [isqrt] using h1, ?_⟩
  by_cases hs : isqrt n + 1 < 2 ^ (n.log2 / 2 + 1)
  · have := h4 (by simpa [isqrt] using hs)
    simpa [isqrt] using this
  · have h5 : 2 ^ (n.log2 / 2 + 1) ≤ isqrt n + 1 := by omega
    have h6 : n < 2 ^ (n.log2 + 1) := Nat.lt_log2_self
    have h7 : 2 ^ (n.log2 + 1) ≤ 2 ^ (n.log2 / 2 + 1) * 2 ^ (n.log2 / 2 + 1) := by
      rw [← pow_add]
      exact Nat.pow_le_pow_right (by omega) (by omega)
    exact lt_of_lt_of_le h6 (le_trans h7 (Nat.mul_le_mul h5 h5))

theorem asr_le (v : Int) (s : Nat) : asr v s * ((2 ^ s : Nat) : Int) ≤ v :=
  Int.ediv_mul_le v (by positivity)

theorem lt_asr_succ (v : Int) (s : Nat) : v < (asr v s + 1) * ((2 ^ s : Nat) : Int) :=
  Int.lt_ediv_add_one_mul_self v (by positivity)

theorem saturate_range (n : Int) : -(2 ^ 31 - 1) ≤ saturate n ∧ saturate n ≤ 2 ^ 31 - 1 := by
  unfold saturate; omega

theorem saturate_of_range {n : Int} (h1 : -(2 ^ 31 - 1) ≤ n) (h2 : n ≤ 2 ^ 31 - 1) : saturate n = n := by
  unfold saturate; omega

/-- A stored dB value reads back as the saturated integer (R233). -/
theorem dbWord_toInt (n : Int) : (dbWord n).toInt = saturate n := by
  have := saturate_range n
  rw [dbWord, BitVec.toInt_ofInt]
  unfold Int.bmod
  simp only [Nat.reducePow, Nat.cast_ofNat]
  omega

/-- wrap16 keeps a value that fits 16 bits. -/
theorem wrap16_toInt {v : Int} (h1 : -32768 ≤ v) (h2 : v ≤ 32767) : (wrap16 v).toInt = v := by
  rw [wrap16, BitVec.toInt_ofInt]
  unfold Int.bmod
  simp only [Nat.reducePow, Nat.cast_ofNat]
  omega

end Sys2Proof.Machine
end

