-- ==== Sys2Proof/Laws/Memory.lean ====
section
/-! SUPPORT. The laws of bytes in memory: a read after a write, and the canonical form kept by every operation. -/

namespace Sys2Proof.Machine

theorem Memory.read_eq (m : Memory) (a : Nat) : m.read a = (m.lookup a).orElse fun _ => Memory.unlisted a := by
  unfold Memory.read; cases m.lookup a <;> rfl

theorem Memory.lookup_put (m : Memory) (a x : Nat) (b : Byte) :
    (m.put a b).lookup x = if a = x then some b else m.lookup x := by
  induction m with
  | nil => simp [Memory.put, Memory.lookup]
  | cons c m ih =>
    obtain ⟨y, v⟩ := c
    unfold Memory.put
    split
    · simp [Memory.lookup]
    · split
      · next h => subst h; simp only [Memory.lookup]; split <;> rfl
      · simp only [Memory.lookup, ih]; split <;> split <;> simp_all

theorem Memory.lookup_filter (m : Memory) (q : Nat → Bool) (x : Nat) :
    Memory.lookup (m.filter fun c => q c.1) x = if q x then m.lookup x else none := by
  induction m with
  | nil => simp [Memory.lookup]
  | cons c m ih =>
    obtain ⟨y, v⟩ := c
    by_cases h : q y
    · simp only [List.filter_cons, h, if_true, Memory.lookup, ih]
      by_cases hy : y = x
      · subst hy; simp [h]
      · simp [hy]
    · rw [List.filter_cons_of_neg (by simpa using h), ih, Memory.lookup]
      by_cases hy : y = x
      · subst hy; simp [h]
      · simp [hy]

/-- Read after write: the byte written there, every other byte as before. -/
theorem Memory.read_write (m : Memory) (a x : Nat) (b : Byte) :
    (m.write a b).read x = if a = x then some b else m.read x := by
  unfold Memory.write
  split
  · next h =>
    rw [Memory.read_eq, Memory.read_eq, Memory.unlist, Memory.lookup_filter m (fun y => decide (y ≠ a))]
    by_cases hx : a = x
    · subst hx; simp [h]
    · have : x ≠ a := fun e => hx e.symm
      simp [hx, this]
  · rw [Memory.read_eq, Memory.read_eq, Memory.lookup_put]
    split <;> simp

/-- Read after clearing a range: what an unlisted address reads as in the range, every other byte as before. -/
theorem Memory.read_clear (m : Memory) (a n x : Nat) :
    (m.clear a n).read x = if a ≤ x ∧ x < a + n then Memory.unlisted x else m.read x := by
  rw [Memory.read_eq, Memory.read_eq, Memory.clear,
    Memory.lookup_filter m (fun y => !(decide (a ≤ y) && decide (y < a + n)))]
  by_cases h : a ≤ x ∧ x < a + n
  · simp [h]
  · have h' : (!(decide (a ≤ x) && decide (x < a + n))) = true := by simp; omega
    rw [if_pos h', if_neg h]

/-- Read after writing bytes from an address up. -/
theorem Memory.read_writeBytes (m : Memory) (a x : Nat) (bs : List Byte) :
    (m.writeBytes a bs).read x = if a ≤ x ∧ x < a + bs.length then bs[x - a]? else m.read x := by
  induction bs generalizing m a with
  | nil => simp [Memory.writeBytes, show ¬ (a ≤ x ∧ x < a) by omega]
  | cons b bs ih =>
    rw [Memory.writeBytes, ih, Memory.read_write]
    simp only [List.length_cons]
    by_cases h1 : a + 1 ≤ x ∧ x < a + 1 + bs.length
    · rw [if_pos h1, if_pos (by omega), show x - a = (x - (a + 1)) + 1 by omega, List.getElem?_cons_succ]
    · rw [if_neg h1]
      by_cases h2 : a = x
      · subst h2; simp
      · rw [if_neg h2, if_neg (by omega)]

/-! ## The canonical form -/

theorem Memory.wf_nil : Memory.wf [] := by simp [Memory.wf]

theorem Memory.wf_filter {m : Memory} (h : m.wf) (q : Host.Cell → Bool) : Memory.wf (m.filter q) :=
  ⟨h.1.filter q, fun c hc => h.2 c (List.mem_of_mem_filter hc)⟩

theorem Memory.mem_put {m : Memory} {a : Nat} {b : Byte} {c : Host.Cell} (h : c ∈ m.put a b) : c = (a, b) ∨ c ∈ m := by
  induction m with
  | nil => simpa [Memory.put] using h
  | cons d m ih =>
    obtain ⟨y, v⟩ := d
    unfold Memory.put at h
    split at h
    · simpa using h
    · split at h
      · simp only [List.mem_cons] at h ⊢; tauto
      · simp only [List.mem_cons] at h ⊢
        rcases h with h | h
        · exact .inr (.inl h)
        · rcases ih h with h | h <;> tauto

theorem Memory.wf_put {m : Memory} (h : m.wf) {a : Nat} {b : Byte} (hb : Memory.unlisted a ≠ some b) :
    (m.put a b).wf := by
  refine ⟨?_, fun c hc => ?_⟩
  · obtain ⟨hp, -⟩ := h
    induction m with
    | nil => simp [Memory.put]
    | cons d m ih =>
      obtain ⟨y, v⟩ := d
      rw [List.pairwise_cons] at hp
      obtain ⟨hy, hp⟩ := hp
      unfold Memory.put
      split
      · next hlt =>
        rw [List.pairwise_cons, List.pairwise_cons]
        refine ⟨fun e he => ?_, hy, hp⟩
        rcases List.mem_cons.1 he with rfl | he
        · exact hlt
        · exact lt_trans hlt (hy e he)
      · split
        · next _ heq => subst heq; rw [List.pairwise_cons]; exact ⟨hy, hp⟩
        · rw [List.pairwise_cons]
          refine ⟨fun e he => ?_, ih hp⟩
          rcases Memory.mem_put he with rfl | he
          · show y < a; omega
          · exact hy e he
  · rcases Memory.mem_put hc with rfl | hc
    · exact hb
    · exact h.2 c hc

theorem Memory.wf_write {m : Memory} (h : m.wf) (a : Nat) (b : Byte) : (m.write a b).wf := by
  unfold Memory.write
  split
  · exact Memory.wf_filter h _
  · next hb => exact Memory.wf_put h hb

theorem Memory.wf_writeBytes {m : Memory} (h : m.wf) (a : Nat) (bs : List Byte) : (m.writeBytes a bs).wf := by
  induction bs generalizing m a with
  | nil => exact h
  | cons b bs ih => exact ih (Memory.wf_write h a b) (a + 1)

theorem Memory.wf_writeCells {m : Memory} (h : m.wf) (width stride a : Nat) (vs : List Nat) :
    (m.writeCells width stride a vs).wf := by
  induction vs generalizing m a with
  | nil => exact h
  | cons v vs ih => exact ih (Memory.wf_writeBytes h a _) (a + stride)

theorem Memory.wf_clear {m : Memory} (h : m.wf) (a n : Nat) : (m.clear a n).wf := Memory.wf_filter h _

theorem Memory.wf_setWork {m : Memory} (h : m.wf) (xs : List Sample) : (m.setWork xs).wf := Memory.wf_writeCells h _ _ _ _

theorem Memory.wf_setStream {m : Memory} (h : m.wf) (o : Nat) (xs : List Sample) : (m.setStream o xs).wf :=
  Memory.wf_writeCells h _ _ _ _

theorem Memory.wf_setPairs {m : Memory} (h : m.wf) (ps : List Pair) : (m.setPairs ps).wf := Memory.wf_setWork h _

theorem Memory.wf_setAccs {m : Memory} (h : m.wf) (xs : List DWord) : (m.setAccs xs).wf := Memory.wf_writeCells h _ _ _ _

theorem Memory.wf_setOut {m : Memory} (h : m.wf) (xs : List Word) : (m.setOut xs).wf := Memory.wf_writeCells h _ _ _ _

theorem Memory.wf_zeroAccs {m : Memory} (h : m.wf) (n : Nat) : (m.zeroAccs n).wf := Memory.wf_clear h _ _

/-! ## Which addresses an operation can list -/

theorem Memory.mem_write {m : Memory} {a : Nat} {b : Byte} {c : Host.Cell} (h : c ∈ m.write a b) : c.1 = a ∨ c ∈ m := by
  unfold Memory.write at h
  split at h
  · exact .inr (List.mem_of_mem_filter h)
  · rcases Memory.mem_put h with rfl | h
    · exact .inl rfl
    · exact .inr h

theorem Memory.mem_writeBytes {m : Memory} {a : Nat} {bs : List Byte} {c : Host.Cell} (h : c ∈ m.writeBytes a bs) :
    (a ≤ c.1 ∧ c.1 < a + bs.length) ∨ c ∈ m := by
  induction bs generalizing m a with
  | nil => exact .inr h
  | cons b bs ih =>
    simp only [List.length_cons]
    rcases ih h with h | h
    · left; omega
    · rcases Memory.mem_write h with h | h
      · left; omega
      · exact .inr h

end Sys2Proof.Machine
end

