-- ==== Sys2Proof/Laws/Cells.lean ====
section
/-! SUPPORT. The laws of cells: little-endian reads and writes, ranges of cells, and what each named write leaves in each window. -/

namespace Sys2Proof.Machine

/-! ## Little-endian bytes -/

@[simp] theorem bytesLe_length (n v : Nat) : (bytesLe n v).length = n := by
  induction n generalizing v with
  | zero => rfl
  | succ n ih => simp [bytesLe, ih]

theorem Memory.readLe_congr {m m' : Memory} {a n : Nat} (h : ∀ k < n, m'.read (a + k) = m.read (a + k)) :
    m'.readLe a n = m.readLe a n := by
  induction n generalizing a with
  | zero => rfl
  | succ n ih =>
    have h0 := h 0 (by omega)
    rw [Nat.add_zero] at h0
    have h1 : m'.readLe (a + 1) n = m.readLe (a + 1) n :=
      ih fun k hk => by have := h (k + 1) (by omega); rwa [show a + (k + 1) = a + 1 + k by omega] at this
    simp only [Memory.readLe, h0, h1]

theorem Memory.readLe_writeBytes (m : Memory) (a n v : Nat) :
    (m.writeBytes a (bytesLe n v)).readLe a n = some (v % 256 ^ n) := by
  induction n generalizing m a v with
  | zero => simp [Memory.readLe, Nat.mod_one]
  | succ n ih =>
    rw [bytesLe, Memory.writeBytes, Memory.readLe, ih, Memory.read_writeBytes,
      if_neg (by omega), Memory.read_write, if_pos rfl]
    simp only [BitVec.toNat_ofNat, Option.some.injEq]
    rw [show (256 : Nat) ^ (n + 1) = 256 * 256 ^ n from pow_succ' 256 n]
    exact (Nat.mod_mul).symm

/-- A little-endian read answers exactly when all its bytes are written. -/
theorem Memory.readLe_isSome (m : Memory) (a n : Nat) : (m.readLe a n).isSome = true ↔ ∀ k < n, (m.read (a + k)).isSome := by
  induction n generalizing a with
  | zero => simp [Memory.readLe]
  | succ n ih =>
    have ih := ih (a + 1)
    constructor
    · intro h k hk
      unfold Memory.readLe at h
      split at h
      · next b r hb hr =>
        rcases k with _ | k
        · simp [hb]
        · have := ih.1 (by simp [hr]) k (by omega)
          rwa [show a + (k + 1) = a + 1 + k by omega]
      · simp at h
    · intro h
      have h0 := h 0 (by omega)
      have h1 := ih.2 fun k hk => by
        have := h (k + 1) (by omega)
        rwa [show a + (k + 1) = a + 1 + k by omega] at this
      rw [Nat.add_zero] at h0
      obtain ⟨b, hb⟩ := Option.isSome_iff_exists.1 h0
      obtain ⟨r, hr⟩ := Option.isSome_iff_exists.1 h1
      simp [Memory.readLe, hb, hr]

theorem Memory.readLe_lt {m : Memory} {a n v : Nat} (h : m.readLe a n = some v) : v < 256 ^ n := by
  induction n generalizing a v with
  | zero => simp [Memory.readLe] at h; simp [← h]
  | succ n ih =>
    unfold Memory.readLe at h
    split at h
    · next b r hb hr =>
      have := ih hr
      have hb := b.isLt
      simp only [Option.some.injEq] at h
      rw [pow_succ']
      omega
    · simp at h

/-! ## Ranges of cells -/

/-- Cells write only their own bytes. -/
theorem Memory.read_writeCells_outside (m : Memory) {width stride a x : Nat} {vs : List Nat}
    (h : ∀ k < vs.length, ¬(a + stride * k ≤ x ∧ x < a + stride * k + width)) :
    (m.writeCells width stride a vs).read x = m.read x := by
  induction vs generalizing m a with
  | nil => rfl
  | cons v vs ih =>
    rw [Memory.writeCells, ih, Memory.read_writeBytes, bytesLe_length, if_neg (by simpa using h 0 (by simp))]
    intro k hk
    have := h (k + 1) (by simpa using hk)
    rwa [Nat.mul_add, Nat.mul_one, show a + (stride * k + stride) = a + stride + stride * k by omega] at this

/-- Each cell holds the number written to it, narrowed to its width. -/
theorem Memory.readLe_writeCells (m : Memory) {width stride a : Nat} {vs : List Nat} (hw : width ≤ stride) {k : Nat}
    (hk : k < vs.length) :
    (m.writeCells width stride a vs).readLe (a + stride * k) width = some (vs[k] % 256 ^ width) := by
  induction vs generalizing m a k with
  | nil => simp at hk
  | cons v vs ih =>
    rw [Memory.writeCells]
    rcases k with _ | k
    · rw [Memory.readLe_congr (m := m.writeBytes a (bytesLe width v))]
      · simpa using Memory.readLe_writeBytes m a width v
      · intro j hj
        apply Memory.read_writeCells_outside
        intro i _
        have : stride * i ≥ 0 := Nat.zero_le _
        rw [Nat.mul_zero]
        omega
    · have := ih (m := m.writeBytes a (bytesLe width v)) (a := a + stride) (k := k) (by simpa using hk)
      rw [show a + stride * (k + 1) = a + stride + stride * k by rw [Nat.mul_add]; omega]
      simpa using this

/-- Cells keep the written marks of whole cells: a byte of a cell written is written. -/
theorem Memory.mem_writeCells {m : Memory} {width stride a : Nat} {vs : List Nat} {c : Host.Cell}
    (h : c ∈ m.writeCells width stride a vs) :
    (∃ k < vs.length, a + stride * k ≤ c.1 ∧ c.1 < a + stride * k + width) ∨ c ∈ m := by
  induction vs generalizing m a with
  | nil => exact .inr h
  | cons v vs ih =>
    rcases ih h with ⟨k, hk, h⟩ | h
    · refine .inl ⟨k + 1, by simpa using hk, ?_⟩
      rw [Nat.mul_add]; omega
    · rcases Memory.mem_writeBytes h with h | h
      · exact .inl ⟨0, by simp, by simpa using h⟩
      · exact .inr h

/-! ## Gathering cells -/

/-- What `gather` answers: exactly the n values, when all of them are there. -/
theorem gather_eq_some {α : Type} {f : Nat → Option α} {i n : Nat} {xs : List α} :
    gather f i n = some xs ↔ xs.length = n ∧ ∀ k < n, f (i + k) = xs[k]? := by
  induction n generalizing i xs with
  | zero => simp only [gather, Option.some.injEq]; constructor
            · rintro rfl; simp
            · rintro ⟨h, -⟩; exact (List.length_eq_zero_iff.1 h).symm
  | succ n ih =>
    constructor
    · intro h
      unfold gather at h
      split at h
      · next x ys hx hys =>
        obtain ⟨hl, hy⟩ := ih.1 hys
        simp only [Option.some.injEq] at h
        subst h
        refine ⟨by simp [hl], fun k hk => ?_⟩
        rcases k with _ | k
        · simpa using hx
        · rw [show i + (k + 1) = i + 1 + k by omega, hy k (by omega), List.getElem?_cons_succ]
      · simp at h
    · rintro ⟨hl, h⟩
      rcases xs with _ | ⟨x, ys⟩
      · simp at hl
      · have h0 : f i = some x := by simpa using h 0 (by omega)
        have h1 : gather f (i + 1) n = some ys := ih.2 ⟨by simpa using hl, fun k hk => by
          have := h (k + 1) (by omega)
          rwa [show i + (k + 1) = i + 1 + k by omega, List.getElem?_cons_succ] at this⟩
        simp [gather, h0, h1]

/-- `gather` answers exactly when every value is there. -/
theorem gather_isSome {α : Type} (f : Nat → Option α) (i n : Nat) :
    (gather f i n).isSome = true ↔ ∀ k < n, (f (i + k)).isSome := by
  constructor
  · intro h k hk
    obtain ⟨xs, hxs⟩ := Option.isSome_iff_exists.1 h
    obtain ⟨hl, hx⟩ := gather_eq_some.1 hxs
    rw [hx k hk, List.getElem?_eq_getElem (by omega)]; rfl
  · intro h
    induction n generalizing i with
    | zero => rfl
    | succ n ih =>
      have h0 := h 0 (by omega)
      have h1 := ih (i + 1) fun k hk => by
        have := h (k + 1) (by omega)
        rwa [show i + (k + 1) = i + 1 + k by omega] at this
      rw [Nat.add_zero] at h0
      obtain ⟨x, hx⟩ := Option.isSome_iff_exists.1 h0
      obtain ⟨xs, hxs⟩ := Option.isSome_iff_exists.1 h1
      simp [gather, hx, hxs]

theorem gather_congr {α : Type} {f g : Nat → Option α} {i n : Nat} (h : ∀ k < n, f (i + k) = g (i + k)) :
    gather f i n = gather g i n := by
  induction n generalizing i with
  | zero => rfl
  | succ n ih =>
    have h0 := h 0 (by omega)
    rw [Nat.add_zero] at h0
    have h1 : gather f (i + 1) n = gather g (i + 1) n := ih fun k hk => by
      have := h (k + 1) (by omega)
      rwa [show i + (k + 1) = i + 1 + k by omega] at this
    simp only [gather, h0, h1]

/-! ## The named writes, cell by cell -/

theorem Memory.work_congr {m m' : Memory} {j : Nat} (h : ∀ k < 2, m'.read (workAddr j + k) = m.read (workAddr j + k)) :
    m'.work j = m.work j := by
  unfold Memory.work; rw [Memory.readLe_congr h]

theorem Memory.win_congr {m m' : Memory} {j : Nat} (h : ∀ k < 2, m'.read (winAddr j + k) = m.read (winAddr j + k)) :
    m'.win j = m.win j := by
  unfold Memory.win; rw [Memory.readLe_congr h]

theorem Memory.acc_congr {m m' : Memory} {j : Nat} (h : ∀ k < 8, m'.read (accAddr j + k) = m.read (accAddr j + k)) :
    m'.acc j = m.acc j := by
  unfold Memory.acc; rw [Memory.readLe_congr h]

theorem Memory.out_congr {m m' : Memory} {i : Nat} (h : ∀ k < 4, m'.read (outAddr i + k) = m.read (outAddr i + k)) :
    m'.out i = m.out i := by
  unfold Memory.out; rw [Memory.readLe_congr h]

theorem Memory.read_setWork_outside (m : Memory) (xs : List Sample) {x : Nat}
    (h : ¬(workAddr 0 ≤ x ∧ x < workAddr 0 + 2 * xs.length)) : (m.setWork xs).read x = m.read x := by
  apply Memory.read_writeCells_outside
  intro k hk
  simp only [List.length_map] at hk
  omega

theorem Memory.read_setStream_outside (m : Memory) (o : Nat) (xs : List Sample) {x : Nat}
    (h : ∀ k < xs.length, ¬(workAddr (o + 2 * k) ≤ x ∧ x < workAddr (o + 2 * k) + 2)) :
    (m.setStream o xs).read x = m.read x := by
  apply Memory.read_writeCells_outside
  intro k hk
  simp only [List.length_map] at hk
  have := h k hk
  simp only [workAddr] at this ⊢
  omega

theorem Memory.work_setWork (m : Memory) (xs : List Sample) (j : Nat) :
    (m.setWork xs).work j = if h : j < xs.length then some xs[j] else m.work j := by
  split
  · next h =>
    have := Memory.readLe_writeCells m (width := 2) (stride := 2) (a := workAddr 0) (vs := xs.map BitVec.toNat)
      le_rfl (k := j) (by simpa using h)
    rw [Memory.work, Memory.setWork, show workAddr j = workAddr 0 + 2 * j by simp only [workAddr]; omega, this]
    simp only [List.getElem_map, Option.map_some, Option.some.injEq]
    apply BitVec.eq_of_toNat_eq
    have := xs[j].isLt
    simp only [BitVec.toNat_ofNat]
    omega
  · next h =>
    apply Memory.work_congr
    intro k hk
    apply Memory.read_setWork_outside
    simp only [workAddr]
    omega

theorem Memory.work_setStream_same (m : Memory) (o : Nat) (xs : List Sample) {k : Nat} (h : k < xs.length) :
    (m.setStream o xs).work (o + 2 * k) = some xs[k] := by
  have := Memory.readLe_writeCells m (width := 2) (stride := 4) (a := workAddr o) (vs := xs.map BitVec.toNat)
    (by omega) (k := k) (by simpa using h)
  rw [Memory.work, Memory.setStream, show workAddr (o + 2 * k) = workAddr o + 4 * k by simp only [workAddr]; omega, this]
  simp only [List.getElem_map, Option.map_some, Option.some.injEq]
  apply BitVec.eq_of_toNat_eq
  have := xs[k].isLt
  simp only [BitVec.toNat_ofNat]
  omega

theorem Memory.work_setStream_other (m : Memory) (o : Nat) (xs : List Sample) {j : Nat}
    (h : ∀ k < xs.length, j ≠ o + 2 * k) : (m.setStream o xs).work j = m.work j := by
  apply Memory.work_congr
  intro i hi
  apply Memory.read_setStream_outside
  intro k hk
  have := h k hk
  simp only [workAddr]
  omega

theorem Memory.read_setAccs_outside (m : Memory) (xs : List DWord) {x : Nat}
    (h : ¬(accAddr 0 ≤ x ∧ x < accAddr 0 + 8 * xs.length)) : (m.setAccs xs).read x = m.read x := by
  apply Memory.read_writeCells_outside
  intro k hk
  simp only [List.length_map] at hk
  omega

theorem Memory.acc_setAccs (m : Memory) (xs : List DWord) (j : Nat) :
    (m.setAccs xs).acc j = if h : j < xs.length then xs[j] else m.acc j := by
  split
  · next h =>
    have := Memory.readLe_writeCells m (width := 8) (stride := 8) (a := accAddr 0) (vs := xs.map BitVec.toNat)
      le_rfl (k := j) (by simpa using h)
    rw [Memory.acc, Memory.setAccs, show accAddr j = accAddr 0 + 8 * j by simp only [accAddr]; omega, this]
    simp only [List.getElem_map, Option.getD_some]
    apply BitVec.eq_of_toNat_eq
    have := xs[j].isLt
    simp only [BitVec.toNat_ofNat]
    omega
  · next h =>
    apply Memory.acc_congr
    intro k hk
    apply Memory.read_setAccs_outside
    simp only [accAddr]
    omega

theorem Memory.read_setOut_outside (m : Memory) (xs : List Word) {x : Nat}
    (h : ¬(outAddr 0 ≤ x ∧ x < outAddr 0 + 4 * xs.length)) : (m.setOut xs).read x = m.read x := by
  apply Memory.read_writeCells_outside
  intro k hk
  simp only [List.length_map] at hk
  omega

theorem Memory.out_setOut (m : Memory) (xs : List Word) (i : Nat) :
    (m.setOut xs).out i = if h : i < xs.length then some xs[i] else m.out i := by
  split
  · next h =>
    have := Memory.readLe_writeCells m (width := 4) (stride := 4) (a := outAddr 0) (vs := xs.map BitVec.toNat)
      le_rfl (k := i) (by simpa using h)
    rw [Memory.out, Memory.setOut, show outAddr i = outAddr 0 + 4 * i by simp only [outAddr]; omega, this]
    simp only [List.getElem_map, Option.map_some, Option.some.injEq]
    apply BitVec.eq_of_toNat_eq
    have := xs[i].isLt
    simp only [BitVec.toNat_ofNat]
    omega
  · next h =>
    apply Memory.out_congr
    intro k hk
    apply Memory.read_setOut_outside
    simp only [outAddr]
    omega

theorem Memory.read_zeroAccs_outside (m : Memory) (n : Nat) {x : Nat}
    (h : ¬(accAddr 0 ≤ x ∧ x < accAddr 0 + 8 * n)) : (m.zeroAccs n).read x = m.read x := by
  rw [Memory.zeroAccs, Memory.read_clear, if_neg h]

theorem Memory.read_zeroAccs (m : Memory) {n x : Nat} (hn : n ≤ 2 ^ 25) (h : accAddr 0 ≤ x ∧ x < accAddr 0 + 8 * n) :
    (m.zeroAccs n).read x = some 0 := by
  rw [Memory.zeroAccs, Memory.read_clear, if_pos h, Memory.unlisted, if_pos]
  simp only [accAddr, slotSize, accBase] at *
  omega

theorem Memory.acc_zeroAccs (m : Memory) {n : Nat} (hn : n ≤ 2 ^ 25) (j : Nat) :
    (m.zeroAccs n).acc j = if j < n then 0 else m.acc j := by
  split
  · next h =>
    have e : ∀ k < 8, (m.zeroAccs n).read (accAddr j + k) = some 0 := fun k hk =>
      Memory.read_zeroAccs m hn (by simp only [accAddr]; omega)
    have e0 := e 0 (by omega)
    rw [Nat.add_zero] at e0
    simp [Memory.acc, Memory.readLe, e0, e 1 (by omega), e 2 (by omega), e 3 (by omega), e 4 (by omega), e 5 (by omega),
      e 6 (by omega), e 7 (by omega)]
  · next h =>
    apply Memory.acc_congr
    intro k hk
    apply Memory.read_zeroAccs_outside
    simp only [accAddr]
    omega

/-! ## Interleaving and blocks -/

@[simp] theorem interleave_length (ps : List Pair) : (interleave ps).length = 2 * ps.length := by
  induction ps with
  | nil => rfl
  | cons p ps ih => simp [interleave, ih]; omega

theorem interleave_even (ps : List Pair) (k : Nat) : (interleave ps)[2 * k]? = ps[k]?.map Prod.fst := by
  induction ps generalizing k with
  | nil => simp [interleave]
  | cons p ps ih =>
    rcases k with _ | k
    · simp [interleave]
    · rw [show 2 * (k + 1) = 2 * k + 1 + 1 by omega]
      simp [interleave, ih]

theorem interleave_odd (ps : List Pair) (k : Nat) : (interleave ps)[2 * k + 1]? = ps[k]?.map Prod.snd := by
  induction ps generalizing k with
  | nil => simp [interleave]
  | cons p ps ih =>
    rcases k with _ | k
    · simp [interleave]
    · rw [show 2 * (k + 1) + 1 = 2 * k + 1 + 1 + 1 by omega]
      simp [interleave, ih]

@[simp] theorem blocks_length {α : Type} (size n : Nat) (xs : List α) : (blocks size n xs).length = n := by
  induction n generalizing xs with
  | zero => rfl
  | succ n ih => simp [blocks, ih]

/-- Block b is the elements from size·b up. -/
theorem blocks_getElem {α : Type} (size n : Nat) (xs : List α) {b : Nat} (h : b < (blocks size n xs).length) :
    (blocks size n xs)[b] = (xs.drop (size * b)).take size := by
  induction n generalizing xs b with
  | zero => simp at h
  | succ n ih =>
    rcases b with _ | b
    · simp [blocks]
    · simp only [blocks, List.getElem_cons_succ, ih, List.drop_drop]
      congr 2
      rw [Nat.mul_add]; omega

end Sys2Proof.Machine
end

