-- ==== Sys2Proof/Laws/State.lean ====
section
/-! SUPPORT. One lemma per field of the state per named update, each true by unfolding, so that no proof unfolds a record update. -/

namespace Sys2Proof.Machine

variable (s : State)

/-! ## `State.withMem` -/

@[simp] theorem State.withMem_params (m : Memory) : (s.withMem m).params = s.params := rfl
@[simp] theorem State.withMem_cfg (m : Memory) : (s.withMem m).cfg = s.cfg := rfl
@[simp] theorem State.withMem_ds (m : Memory) : (s.withMem m).ds = s.ds := rfl
@[simp] theorem State.withMem_crop (m : Memory) : (s.withMem m).crop = s.crop := rfl
@[simp] theorem State.withMem_fc (m : Memory) : (s.withMem m).fc = s.fc := rfl
@[simp] theorem State.withMem_fs (m : Memory) : (s.withMem m).fs = s.fs := rfl
@[simp] theorem State.withMem_len (m : Memory) : (s.withMem m).len = s.len := rfl
@[simp] theorem State.withMem_wlen (m : Memory) : (s.withMem m).wlen = s.wlen := rfl
@[simp] theorem State.withMem_passCnt (m : Memory) : (s.withMem m).passCnt = s.passCnt := rfl
@[simp] theorem State.withMem_status (m : Memory) : (s.withMem m).status = s.status := rfl
@[simp] theorem State.withMem_irqEn (m : Memory) : (s.withMem m).irqEn = s.irqEn := rfl
@[simp] theorem State.withMem_pending (m : Memory) : (s.withMem m).pending = s.pending := rfl
@[simp] theorem State.withMem_rmsDb (m : Memory) : (s.withMem m).rmsDb = s.rmsDb := rfl
@[simp] theorem State.withMem_rmsDcDb (m : Memory) : (s.withMem m).rmsDcDb = s.rmsDcDb := rfl
@[simp] theorem State.withMem_emitCnt (m : Memory) : (s.withMem m).emitCnt = s.emitCnt := rfl
@[simp] theorem State.withMem_emitSamples (m : Memory) : (s.withMem m).emitSamples = s.emitSamples := rfl
@[simp] theorem State.withMem_lowHz (m : Memory) : (s.withMem m).lowHz = s.lowHz := rfl
@[simp] theorem State.withMem_highHz (m : Memory) : (s.withMem m).highHz = s.highHz := rfl
@[simp] theorem State.withMem_stepChz (m : Memory) : (s.withMem m).stepChz = s.stepChz := rfl
@[simp] theorem State.withMem_mem (m : Memory) : (s.withMem m).mem = m := rfl
@[simp] theorem State.withMem_readData (m : Memory) : (s.withMem m).readData = s.readData := rfl
@[simp] theorem State.withMem_draws (m : Memory) : (s.withMem m).draws = s.draws := rfl
@[simp] theorem State.withMem_schedule (m : Memory) : (s.withMem m).schedule = s.schedule := rfl

/-! ## `State.withStatus` -/

@[simp] theorem State.withStatus_params (w : Word) : (s.withStatus w).params = s.params := rfl
@[simp] theorem State.withStatus_cfg (w : Word) : (s.withStatus w).cfg = s.cfg := rfl
@[simp] theorem State.withStatus_ds (w : Word) : (s.withStatus w).ds = s.ds := rfl
@[simp] theorem State.withStatus_crop (w : Word) : (s.withStatus w).crop = s.crop := rfl
@[simp] theorem State.withStatus_fc (w : Word) : (s.withStatus w).fc = s.fc := rfl
@[simp] theorem State.withStatus_fs (w : Word) : (s.withStatus w).fs = s.fs := rfl
@[simp] theorem State.withStatus_len (w : Word) : (s.withStatus w).len = s.len := rfl
@[simp] theorem State.withStatus_wlen (w : Word) : (s.withStatus w).wlen = s.wlen := rfl
@[simp] theorem State.withStatus_passCnt (w : Word) : (s.withStatus w).passCnt = s.passCnt := rfl
@[simp] theorem State.withStatus_status (w : Word) : (s.withStatus w).status = w := rfl
@[simp] theorem State.withStatus_irqEn (w : Word) : (s.withStatus w).irqEn = s.irqEn := rfl
@[simp] theorem State.withStatus_pending (w : Word) : (s.withStatus w).pending = s.pending := rfl
@[simp] theorem State.withStatus_rmsDb (w : Word) : (s.withStatus w).rmsDb = s.rmsDb := rfl
@[simp] theorem State.withStatus_rmsDcDb (w : Word) : (s.withStatus w).rmsDcDb = s.rmsDcDb := rfl
@[simp] theorem State.withStatus_emitCnt (w : Word) : (s.withStatus w).emitCnt = s.emitCnt := rfl
@[simp] theorem State.withStatus_emitSamples (w : Word) : (s.withStatus w).emitSamples = s.emitSamples := rfl
@[simp] theorem State.withStatus_lowHz (w : Word) : (s.withStatus w).lowHz = s.lowHz := rfl
@[simp] theorem State.withStatus_highHz (w : Word) : (s.withStatus w).highHz = s.highHz := rfl
@[simp] theorem State.withStatus_stepChz (w : Word) : (s.withStatus w).stepChz = s.stepChz := rfl
@[simp] theorem State.withStatus_mem (w : Word) : (s.withStatus w).mem = s.mem := rfl
@[simp] theorem State.withStatus_readData (w : Word) : (s.withStatus w).readData = s.readData := rfl
@[simp] theorem State.withStatus_draws (w : Word) : (s.withStatus w).draws = s.draws := rfl
@[simp] theorem State.withStatus_schedule (w : Word) : (s.withStatus w).schedule = s.schedule := rfl

/-! ## `State.withWlen` -/

@[simp] theorem State.withWlen_params (n : Nat) : (s.withWlen n).params = s.params := rfl
@[simp] theorem State.withWlen_cfg (n : Nat) : (s.withWlen n).cfg = s.cfg := rfl
@[simp] theorem State.withWlen_ds (n : Nat) : (s.withWlen n).ds = s.ds := rfl
@[simp] theorem State.withWlen_crop (n : Nat) : (s.withWlen n).crop = s.crop := rfl
@[simp] theorem State.withWlen_fc (n : Nat) : (s.withWlen n).fc = s.fc := rfl
@[simp] theorem State.withWlen_fs (n : Nat) : (s.withWlen n).fs = s.fs := rfl
@[simp] theorem State.withWlen_len (n : Nat) : (s.withWlen n).len = s.len := rfl
@[simp] theorem State.withWlen_wlen (n : Nat) : (s.withWlen n).wlen = BitVec.ofNat 32 n := rfl
@[simp] theorem State.withWlen_passCnt (n : Nat) : (s.withWlen n).passCnt = s.passCnt := rfl
@[simp] theorem State.withWlen_status (n : Nat) : (s.withWlen n).status = s.status := rfl
@[simp] theorem State.withWlen_irqEn (n : Nat) : (s.withWlen n).irqEn = s.irqEn := rfl
@[simp] theorem State.withWlen_pending (n : Nat) : (s.withWlen n).pending = s.pending := rfl
@[simp] theorem State.withWlen_rmsDb (n : Nat) : (s.withWlen n).rmsDb = s.rmsDb := rfl
@[simp] theorem State.withWlen_rmsDcDb (n : Nat) : (s.withWlen n).rmsDcDb = s.rmsDcDb := rfl
@[simp] theorem State.withWlen_emitCnt (n : Nat) : (s.withWlen n).emitCnt = s.emitCnt := rfl
@[simp] theorem State.withWlen_emitSamples (n : Nat) : (s.withWlen n).emitSamples = s.emitSamples := rfl
@[simp] theorem State.withWlen_lowHz (n : Nat) : (s.withWlen n).lowHz = s.lowHz := rfl
@[simp] theorem State.withWlen_highHz (n : Nat) : (s.withWlen n).highHz = s.highHz := rfl
@[simp] theorem State.withWlen_stepChz (n : Nat) : (s.withWlen n).stepChz = s.stepChz := rfl
@[simp] theorem State.withWlen_mem (n : Nat) : (s.withWlen n).mem = s.mem := rfl
@[simp] theorem State.withWlen_readData (n : Nat) : (s.withWlen n).readData = s.readData := rfl
@[simp] theorem State.withWlen_draws (n : Nat) : (s.withWlen n).draws = s.draws := rfl
@[simp] theorem State.withWlen_schedule (n : Nat) : (s.withWlen n).schedule = s.schedule := rfl

/-! ## `State.withPassCnt` -/

@[simp] theorem State.withPassCnt_params (w : Word) : (s.withPassCnt w).params = s.params := rfl
@[simp] theorem State.withPassCnt_cfg (w : Word) : (s.withPassCnt w).cfg = s.cfg := rfl
@[simp] theorem State.withPassCnt_ds (w : Word) : (s.withPassCnt w).ds = s.ds := rfl
@[simp] theorem State.withPassCnt_crop (w : Word) : (s.withPassCnt w).crop = s.crop := rfl
@[simp] theorem State.withPassCnt_fc (w : Word) : (s.withPassCnt w).fc = s.fc := rfl
@[simp] theorem State.withPassCnt_fs (w : Word) : (s.withPassCnt w).fs = s.fs := rfl
@[simp] theorem State.withPassCnt_len (w : Word) : (s.withPassCnt w).len = s.len := rfl
@[simp] theorem State.withPassCnt_wlen (w : Word) : (s.withPassCnt w).wlen = s.wlen := rfl
@[simp] theorem State.withPassCnt_passCnt (w : Word) : (s.withPassCnt w).passCnt = w := rfl
@[simp] theorem State.withPassCnt_status (w : Word) : (s.withPassCnt w).status = s.status := rfl
@[simp] theorem State.withPassCnt_irqEn (w : Word) : (s.withPassCnt w).irqEn = s.irqEn := rfl
@[simp] theorem State.withPassCnt_pending (w : Word) : (s.withPassCnt w).pending = s.pending := rfl
@[simp] theorem State.withPassCnt_rmsDb (w : Word) : (s.withPassCnt w).rmsDb = s.rmsDb := rfl
@[simp] theorem State.withPassCnt_rmsDcDb (w : Word) : (s.withPassCnt w).rmsDcDb = s.rmsDcDb := rfl
@[simp] theorem State.withPassCnt_emitCnt (w : Word) : (s.withPassCnt w).emitCnt = s.emitCnt := rfl
@[simp] theorem State.withPassCnt_emitSamples (w : Word) : (s.withPassCnt w).emitSamples = s.emitSamples := rfl
@[simp] theorem State.withPassCnt_lowHz (w : Word) : (s.withPassCnt w).lowHz = s.lowHz := rfl
@[simp] theorem State.withPassCnt_highHz (w : Word) : (s.withPassCnt w).highHz = s.highHz := rfl
@[simp] theorem State.withPassCnt_stepChz (w : Word) : (s.withPassCnt w).stepChz = s.stepChz := rfl
@[simp] theorem State.withPassCnt_mem (w : Word) : (s.withPassCnt w).mem = s.mem := rfl
@[simp] theorem State.withPassCnt_readData (w : Word) : (s.withPassCnt w).readData = s.readData := rfl
@[simp] theorem State.withPassCnt_draws (w : Word) : (s.withPassCnt w).draws = s.draws := rfl
@[simp] theorem State.withPassCnt_schedule (w : Word) : (s.withPassCnt w).schedule = s.schedule := rfl

/-! ## `State.withRmsDb` -/

@[simp] theorem State.withRmsDb_params (w : Word) : (s.withRmsDb w).params = s.params := rfl
@[simp] theorem State.withRmsDb_cfg (w : Word) : (s.withRmsDb w).cfg = s.cfg := rfl
@[simp] theorem State.withRmsDb_ds (w : Word) : (s.withRmsDb w).ds = s.ds := rfl
@[simp] theorem State.withRmsDb_crop (w : Word) : (s.withRmsDb w).crop = s.crop := rfl
@[simp] theorem State.withRmsDb_fc (w : Word) : (s.withRmsDb w).fc = s.fc := rfl
@[simp] theorem State.withRmsDb_fs (w : Word) : (s.withRmsDb w).fs = s.fs := rfl
@[simp] theorem State.withRmsDb_len (w : Word) : (s.withRmsDb w).len = s.len := rfl
@[simp] theorem State.withRmsDb_wlen (w : Word) : (s.withRmsDb w).wlen = s.wlen := rfl
@[simp] theorem State.withRmsDb_passCnt (w : Word) : (s.withRmsDb w).passCnt = s.passCnt := rfl
@[simp] theorem State.withRmsDb_status (w : Word) : (s.withRmsDb w).status = s.status := rfl
@[simp] theorem State.withRmsDb_irqEn (w : Word) : (s.withRmsDb w).irqEn = s.irqEn := rfl
@[simp] theorem State.withRmsDb_pending (w : Word) : (s.withRmsDb w).pending = s.pending := rfl
@[simp] theorem State.withRmsDb_rmsDb (w : Word) : (s.withRmsDb w).rmsDb = w := rfl
@[simp] theorem State.withRmsDb_rmsDcDb (w : Word) : (s.withRmsDb w).rmsDcDb = s.rmsDcDb := rfl
@[simp] theorem State.withRmsDb_emitCnt (w : Word) : (s.withRmsDb w).emitCnt = s.emitCnt := rfl
@[simp] theorem State.withRmsDb_emitSamples (w : Word) : (s.withRmsDb w).emitSamples = s.emitSamples := rfl
@[simp] theorem State.withRmsDb_lowHz (w : Word) : (s.withRmsDb w).lowHz = s.lowHz := rfl
@[simp] theorem State.withRmsDb_highHz (w : Word) : (s.withRmsDb w).highHz = s.highHz := rfl
@[simp] theorem State.withRmsDb_stepChz (w : Word) : (s.withRmsDb w).stepChz = s.stepChz := rfl
@[simp] theorem State.withRmsDb_mem (w : Word) : (s.withRmsDb w).mem = s.mem := rfl
@[simp] theorem State.withRmsDb_readData (w : Word) : (s.withRmsDb w).readData = s.readData := rfl
@[simp] theorem State.withRmsDb_draws (w : Word) : (s.withRmsDb w).draws = s.draws := rfl
@[simp] theorem State.withRmsDb_schedule (w : Word) : (s.withRmsDb w).schedule = s.schedule := rfl

/-! ## `State.withRmsDcDb` -/

@[simp] theorem State.withRmsDcDb_params (w : Word) : (s.withRmsDcDb w).params = s.params := rfl
@[simp] theorem State.withRmsDcDb_cfg (w : Word) : (s.withRmsDcDb w).cfg = s.cfg := rfl
@[simp] theorem State.withRmsDcDb_ds (w : Word) : (s.withRmsDcDb w).ds = s.ds := rfl
@[simp] theorem State.withRmsDcDb_crop (w : Word) : (s.withRmsDcDb w).crop = s.crop := rfl
@[simp] theorem State.withRmsDcDb_fc (w : Word) : (s.withRmsDcDb w).fc = s.fc := rfl
@[simp] theorem State.withRmsDcDb_fs (w : Word) : (s.withRmsDcDb w).fs = s.fs := rfl
@[simp] theorem State.withRmsDcDb_len (w : Word) : (s.withRmsDcDb w).len = s.len := rfl
@[simp] theorem State.withRmsDcDb_wlen (w : Word) : (s.withRmsDcDb w).wlen = s.wlen := rfl
@[simp] theorem State.withRmsDcDb_passCnt (w : Word) : (s.withRmsDcDb w).passCnt = s.passCnt := rfl
@[simp] theorem State.withRmsDcDb_status (w : Word) : (s.withRmsDcDb w).status = s.status := rfl
@[simp] theorem State.withRmsDcDb_irqEn (w : Word) : (s.withRmsDcDb w).irqEn = s.irqEn := rfl
@[simp] theorem State.withRmsDcDb_pending (w : Word) : (s.withRmsDcDb w).pending = s.pending := rfl
@[simp] theorem State.withRmsDcDb_rmsDb (w : Word) : (s.withRmsDcDb w).rmsDb = s.rmsDb := rfl
@[simp] theorem State.withRmsDcDb_rmsDcDb (w : Word) : (s.withRmsDcDb w).rmsDcDb = w := rfl
@[simp] theorem State.withRmsDcDb_emitCnt (w : Word) : (s.withRmsDcDb w).emitCnt = s.emitCnt := rfl
@[simp] theorem State.withRmsDcDb_emitSamples (w : Word) : (s.withRmsDcDb w).emitSamples = s.emitSamples := rfl
@[simp] theorem State.withRmsDcDb_lowHz (w : Word) : (s.withRmsDcDb w).lowHz = s.lowHz := rfl
@[simp] theorem State.withRmsDcDb_highHz (w : Word) : (s.withRmsDcDb w).highHz = s.highHz := rfl
@[simp] theorem State.withRmsDcDb_stepChz (w : Word) : (s.withRmsDcDb w).stepChz = s.stepChz := rfl
@[simp] theorem State.withRmsDcDb_mem (w : Word) : (s.withRmsDcDb w).mem = s.mem := rfl
@[simp] theorem State.withRmsDcDb_readData (w : Word) : (s.withRmsDcDb w).readData = s.readData := rfl
@[simp] theorem State.withRmsDcDb_draws (w : Word) : (s.withRmsDcDb w).draws = s.draws := rfl
@[simp] theorem State.withRmsDcDb_schedule (w : Word) : (s.withRmsDcDb w).schedule = s.schedule := rfl

/-! ## `State.countDraw` -/

@[simp] theorem State.countDraw_params : (s.countDraw).params = s.params := rfl
@[simp] theorem State.countDraw_cfg : (s.countDraw).cfg = s.cfg := rfl
@[simp] theorem State.countDraw_ds : (s.countDraw).ds = s.ds := rfl
@[simp] theorem State.countDraw_crop : (s.countDraw).crop = s.crop := rfl
@[simp] theorem State.countDraw_fc : (s.countDraw).fc = s.fc := rfl
@[simp] theorem State.countDraw_fs : (s.countDraw).fs = s.fs := rfl
@[simp] theorem State.countDraw_len : (s.countDraw).len = s.len := rfl
@[simp] theorem State.countDraw_wlen : (s.countDraw).wlen = s.wlen := rfl
@[simp] theorem State.countDraw_passCnt : (s.countDraw).passCnt = s.passCnt := rfl
@[simp] theorem State.countDraw_status : (s.countDraw).status = s.status := rfl
@[simp] theorem State.countDraw_irqEn : (s.countDraw).irqEn = s.irqEn := rfl
@[simp] theorem State.countDraw_pending : (s.countDraw).pending = s.pending := rfl
@[simp] theorem State.countDraw_rmsDb : (s.countDraw).rmsDb = s.rmsDb := rfl
@[simp] theorem State.countDraw_rmsDcDb : (s.countDraw).rmsDcDb = s.rmsDcDb := rfl
@[simp] theorem State.countDraw_emitCnt : (s.countDraw).emitCnt = s.emitCnt := rfl
@[simp] theorem State.countDraw_emitSamples : (s.countDraw).emitSamples = s.emitSamples := rfl
@[simp] theorem State.countDraw_lowHz : (s.countDraw).lowHz = s.lowHz := rfl
@[simp] theorem State.countDraw_highHz : (s.countDraw).highHz = s.highHz := rfl
@[simp] theorem State.countDraw_stepChz : (s.countDraw).stepChz = s.stepChz := rfl
@[simp] theorem State.countDraw_mem : (s.countDraw).mem = s.mem := rfl
@[simp] theorem State.countDraw_readData : (s.countDraw).readData = s.readData := rfl
@[simp] theorem State.countDraw_draws : (s.countDraw).draws = s.draws + 1 := rfl
@[simp] theorem State.countDraw_schedule : (s.countDraw).schedule = s.schedule := rfl

/-! ## `State.withEmit` -/

@[simp] theorem State.withEmit_params (lo hi : DWord) (st n k : Word) : (s.withEmit lo hi st n k).params = s.params := rfl
@[simp] theorem State.withEmit_cfg (lo hi : DWord) (st n k : Word) : (s.withEmit lo hi st n k).cfg = s.cfg := rfl
@[simp] theorem State.withEmit_ds (lo hi : DWord) (st n k : Word) : (s.withEmit lo hi st n k).ds = s.ds := rfl
@[simp] theorem State.withEmit_crop (lo hi : DWord) (st n k : Word) : (s.withEmit lo hi st n k).crop = s.crop := rfl
@[simp] theorem State.withEmit_fc (lo hi : DWord) (st n k : Word) : (s.withEmit lo hi st n k).fc = s.fc := rfl
@[simp] theorem State.withEmit_fs (lo hi : DWord) (st n k : Word) : (s.withEmit lo hi st n k).fs = s.fs := rfl
@[simp] theorem State.withEmit_len (lo hi : DWord) (st n k : Word) : (s.withEmit lo hi st n k).len = s.len := rfl
@[simp] theorem State.withEmit_wlen (lo hi : DWord) (st n k : Word) : (s.withEmit lo hi st n k).wlen = s.wlen := rfl
@[simp] theorem State.withEmit_passCnt (lo hi : DWord) (st n k : Word) : (s.withEmit lo hi st n k).passCnt = s.passCnt := rfl
@[simp] theorem State.withEmit_status (lo hi : DWord) (st n k : Word) : (s.withEmit lo hi st n k).status = s.status := rfl
@[simp] theorem State.withEmit_irqEn (lo hi : DWord) (st n k : Word) : (s.withEmit lo hi st n k).irqEn = s.irqEn := rfl
@[simp] theorem State.withEmit_pending (lo hi : DWord) (st n k : Word) : (s.withEmit lo hi st n k).pending = s.pending := rfl
@[simp] theorem State.withEmit_rmsDb (lo hi : DWord) (st n k : Word) : (s.withEmit lo hi st n k).rmsDb = s.rmsDb := rfl
@[simp] theorem State.withEmit_rmsDcDb (lo hi : DWord) (st n k : Word) : (s.withEmit lo hi st n k).rmsDcDb = s.rmsDcDb := rfl
@[simp] theorem State.withEmit_emitCnt (lo hi : DWord) (st n k : Word) : (s.withEmit lo hi st n k).emitCnt = n := rfl
@[simp] theorem State.withEmit_emitSamples (lo hi : DWord) (st n k : Word) : (s.withEmit lo hi st n k).emitSamples = k := rfl
@[simp] theorem State.withEmit_lowHz (lo hi : DWord) (st n k : Word) : (s.withEmit lo hi st n k).lowHz = lo := rfl
@[simp] theorem State.withEmit_highHz (lo hi : DWord) (st n k : Word) : (s.withEmit lo hi st n k).highHz = hi := rfl
@[simp] theorem State.withEmit_stepChz (lo hi : DWord) (st n k : Word) : (s.withEmit lo hi st n k).stepChz = st := rfl
@[simp] theorem State.withEmit_mem (lo hi : DWord) (st n k : Word) : (s.withEmit lo hi st n k).mem = s.mem := rfl
@[simp] theorem State.withEmit_readData (lo hi : DWord) (st n k : Word) : (s.withEmit lo hi st n k).readData = s.readData := rfl
@[simp] theorem State.withEmit_draws (lo hi : DWord) (st n k : Word) : (s.withEmit lo hi st n k).draws = s.draws := rfl
@[simp] theorem State.withEmit_schedule (lo hi : DWord) (st n k : Word) : (s.withEmit lo hi st n k).schedule = s.schedule := rfl

/-! ## `State.flag` -/

@[simp] theorem State.flag_params (f : Flag) : (s.flag f).params = s.params := rfl
@[simp] theorem State.flag_cfg (f : Flag) : (s.flag f).cfg = s.cfg := rfl
@[simp] theorem State.flag_ds (f : Flag) : (s.flag f).ds = s.ds := rfl
@[simp] theorem State.flag_crop (f : Flag) : (s.flag f).crop = s.crop := rfl
@[simp] theorem State.flag_fc (f : Flag) : (s.flag f).fc = s.fc := rfl
@[simp] theorem State.flag_fs (f : Flag) : (s.flag f).fs = s.fs := rfl
@[simp] theorem State.flag_len (f : Flag) : (s.flag f).len = s.len := rfl
@[simp] theorem State.flag_wlen (f : Flag) : (s.flag f).wlen = s.wlen := rfl
@[simp] theorem State.flag_passCnt (f : Flag) : (s.flag f).passCnt = s.passCnt := rfl
@[simp] theorem State.flag_status (f : Flag) : (s.flag f).status = setFlag s.status f := rfl
@[simp] theorem State.flag_irqEn (f : Flag) : (s.flag f).irqEn = s.irqEn := rfl
@[simp] theorem State.flag_pending (f : Flag) : (s.flag f).pending = s.pending := rfl
@[simp] theorem State.flag_rmsDb (f : Flag) : (s.flag f).rmsDb = s.rmsDb := rfl
@[simp] theorem State.flag_rmsDcDb (f : Flag) : (s.flag f).rmsDcDb = s.rmsDcDb := rfl
@[simp] theorem State.flag_emitCnt (f : Flag) : (s.flag f).emitCnt = s.emitCnt := rfl
@[simp] theorem State.flag_emitSamples (f : Flag) : (s.flag f).emitSamples = s.emitSamples := rfl
@[simp] theorem State.flag_lowHz (f : Flag) : (s.flag f).lowHz = s.lowHz := rfl
@[simp] theorem State.flag_highHz (f : Flag) : (s.flag f).highHz = s.highHz := rfl
@[simp] theorem State.flag_stepChz (f : Flag) : (s.flag f).stepChz = s.stepChz := rfl
@[simp] theorem State.flag_mem (f : Flag) : (s.flag f).mem = s.mem := rfl
@[simp] theorem State.flag_readData (f : Flag) : (s.flag f).readData = s.readData := rfl
@[simp] theorem State.flag_draws (f : Flag) : (s.flag f).draws = s.draws := rfl
@[simp] theorem State.flag_schedule (f : Flag) : (s.flag f).schedule = s.schedule := rfl

/-! ## `State.complete` -/

@[simp] theorem State.complete_params : (s.complete).params = s.params := rfl
@[simp] theorem State.complete_cfg : (s.complete).cfg = s.cfg := rfl
@[simp] theorem State.complete_ds : (s.complete).ds = s.ds := rfl
@[simp] theorem State.complete_crop : (s.complete).crop = s.crop := rfl
@[simp] theorem State.complete_fc : (s.complete).fc = s.fc := rfl
@[simp] theorem State.complete_fs : (s.complete).fs = s.fs := rfl
@[simp] theorem State.complete_len : (s.complete).len = s.len := rfl
@[simp] theorem State.complete_wlen : (s.complete).wlen = s.wlen := rfl
@[simp] theorem State.complete_passCnt : (s.complete).passCnt = s.passCnt := rfl
@[simp] theorem State.complete_status : (s.complete).status = clearFlag (setFlag s.status .done) .busy := rfl
@[simp] theorem State.complete_irqEn : (s.complete).irqEn = s.irqEn := rfl
@[simp] theorem State.complete_pending : (s.complete).pending = s.pending := rfl
@[simp] theorem State.complete_rmsDb : (s.complete).rmsDb = s.rmsDb := rfl
@[simp] theorem State.complete_rmsDcDb : (s.complete).rmsDcDb = s.rmsDcDb := rfl
@[simp] theorem State.complete_emitCnt : (s.complete).emitCnt = s.emitCnt := rfl
@[simp] theorem State.complete_emitSamples : (s.complete).emitSamples = s.emitSamples := rfl
@[simp] theorem State.complete_lowHz : (s.complete).lowHz = s.lowHz := rfl
@[simp] theorem State.complete_highHz : (s.complete).highHz = s.highHz := rfl
@[simp] theorem State.complete_stepChz : (s.complete).stepChz = s.stepChz := rfl
@[simp] theorem State.complete_mem : (s.complete).mem = s.mem := rfl
@[simp] theorem State.complete_readData : (s.complete).readData = s.readData := rfl
@[simp] theorem State.complete_draws : (s.complete).draws = s.draws := rfl
@[simp] theorem State.complete_schedule : (s.complete).schedule = s.schedule := rfl

/-! ## `State.raise` -/

@[simp] theorem State.raise_params (e : CmdError) : (s.raise e).params = s.params := rfl
@[simp] theorem State.raise_cfg (e : CmdError) : (s.raise e).cfg = s.cfg := rfl
@[simp] theorem State.raise_ds (e : CmdError) : (s.raise e).ds = s.ds := rfl
@[simp] theorem State.raise_crop (e : CmdError) : (s.raise e).crop = s.crop := rfl
@[simp] theorem State.raise_fc (e : CmdError) : (s.raise e).fc = s.fc := rfl
@[simp] theorem State.raise_fs (e : CmdError) : (s.raise e).fs = s.fs := rfl
@[simp] theorem State.raise_len (e : CmdError) : (s.raise e).len = s.len := rfl
@[simp] theorem State.raise_wlen (e : CmdError) : (s.raise e).wlen = s.wlen := rfl
@[simp] theorem State.raise_passCnt (e : CmdError) : (s.raise e).passCnt = s.passCnt := rfl
@[simp] theorem State.raise_status (e : CmdError) : (s.raise e).status = clearFlag (setFlag (setFlag (setErr s.status (errCode e)) .errf) .done) .busy := rfl
@[simp] theorem State.raise_irqEn (e : CmdError) : (s.raise e).irqEn = s.irqEn := rfl
@[simp] theorem State.raise_pending (e : CmdError) : (s.raise e).pending = s.pending := rfl
@[simp] theorem State.raise_rmsDb (e : CmdError) : (s.raise e).rmsDb = s.rmsDb := rfl
@[simp] theorem State.raise_rmsDcDb (e : CmdError) : (s.raise e).rmsDcDb = s.rmsDcDb := rfl
@[simp] theorem State.raise_emitCnt (e : CmdError) : (s.raise e).emitCnt = s.emitCnt := rfl
@[simp] theorem State.raise_emitSamples (e : CmdError) : (s.raise e).emitSamples = s.emitSamples := rfl
@[simp] theorem State.raise_lowHz (e : CmdError) : (s.raise e).lowHz = s.lowHz := rfl
@[simp] theorem State.raise_highHz (e : CmdError) : (s.raise e).highHz = s.highHz := rfl
@[simp] theorem State.raise_stepChz (e : CmdError) : (s.raise e).stepChz = s.stepChz := rfl
@[simp] theorem State.raise_mem (e : CmdError) : (s.raise e).mem = s.mem := rfl
@[simp] theorem State.raise_readData (e : CmdError) : (s.raise e).readData = s.readData := rfl
@[simp] theorem State.raise_draws (e : CmdError) : (s.raise e).draws = s.draws := rfl
@[simp] theorem State.raise_schedule (e : CmdError) : (s.raise e).schedule = s.schedule := rfl

/-! ## `State.accept` -/

@[simp] theorem State.accept_params (w : Word) : (s.accept w).params = s.params := rfl
@[simp] theorem State.accept_cfg (w : Word) : (s.accept w).cfg = s.cfg := rfl
@[simp] theorem State.accept_ds (w : Word) : (s.accept w).ds = s.ds := rfl
@[simp] theorem State.accept_crop (w : Word) : (s.accept w).crop = s.crop := rfl
@[simp] theorem State.accept_fc (w : Word) : (s.accept w).fc = s.fc := rfl
@[simp] theorem State.accept_fs (w : Word) : (s.accept w).fs = s.fs := rfl
@[simp] theorem State.accept_len (w : Word) : (s.accept w).len = s.len := rfl
@[simp] theorem State.accept_wlen (w : Word) : (s.accept w).wlen = s.wlen := rfl
@[simp] theorem State.accept_passCnt (w : Word) : (s.accept w).passCnt = s.passCnt := rfl
@[simp] theorem State.accept_status (w : Word) : (s.accept w).status = setErr (clearFlag (setFlag s.status .busy) .done) 0 := rfl
@[simp] theorem State.accept_irqEn (w : Word) : (s.accept w).irqEn = s.irqEn := rfl
@[simp] theorem State.accept_pending (w : Word) : (s.accept w).pending = w := rfl
@[simp] theorem State.accept_rmsDb (w : Word) : (s.accept w).rmsDb = s.rmsDb := rfl
@[simp] theorem State.accept_rmsDcDb (w : Word) : (s.accept w).rmsDcDb = s.rmsDcDb := rfl
@[simp] theorem State.accept_emitCnt (w : Word) : (s.accept w).emitCnt = s.emitCnt := rfl
@[simp] theorem State.accept_emitSamples (w : Word) : (s.accept w).emitSamples = s.emitSamples := rfl
@[simp] theorem State.accept_lowHz (w : Word) : (s.accept w).lowHz = s.lowHz := rfl
@[simp] theorem State.accept_highHz (w : Word) : (s.accept w).highHz = s.highHz := rfl
@[simp] theorem State.accept_stepChz (w : Word) : (s.accept w).stepChz = s.stepChz := rfl
@[simp] theorem State.accept_mem (w : Word) : (s.accept w).mem = s.mem := rfl
@[simp] theorem State.accept_readData (w : Word) : (s.accept w).readData = s.readData := rfl
@[simp] theorem State.accept_draws (w : Word) : (s.accept w).draws = s.draws := rfl
@[simp] theorem State.accept_schedule (w : Word) : (s.accept w).schedule = s.schedule := rfl

/-! ## `State.answer` -/

@[simp] theorem State.answer_params (w : Word) : (s.answer w).params = s.params := rfl
@[simp] theorem State.answer_cfg (w : Word) : (s.answer w).cfg = s.cfg := rfl
@[simp] theorem State.answer_ds (w : Word) : (s.answer w).ds = s.ds := rfl
@[simp] theorem State.answer_crop (w : Word) : (s.answer w).crop = s.crop := rfl
@[simp] theorem State.answer_fc (w : Word) : (s.answer w).fc = s.fc := rfl
@[simp] theorem State.answer_fs (w : Word) : (s.answer w).fs = s.fs := rfl
@[simp] theorem State.answer_len (w : Word) : (s.answer w).len = s.len := rfl
@[simp] theorem State.answer_wlen (w : Word) : (s.answer w).wlen = s.wlen := rfl
@[simp] theorem State.answer_passCnt (w : Word) : (s.answer w).passCnt = s.passCnt := rfl
@[simp] theorem State.answer_status (w : Word) : (s.answer w).status = s.status := rfl
@[simp] theorem State.answer_irqEn (w : Word) : (s.answer w).irqEn = s.irqEn := rfl
@[simp] theorem State.answer_pending (w : Word) : (s.answer w).pending = s.pending := rfl
@[simp] theorem State.answer_rmsDb (w : Word) : (s.answer w).rmsDb = s.rmsDb := rfl
@[simp] theorem State.answer_rmsDcDb (w : Word) : (s.answer w).rmsDcDb = s.rmsDcDb := rfl
@[simp] theorem State.answer_emitCnt (w : Word) : (s.answer w).emitCnt = s.emitCnt := rfl
@[simp] theorem State.answer_emitSamples (w : Word) : (s.answer w).emitSamples = s.emitSamples := rfl
@[simp] theorem State.answer_lowHz (w : Word) : (s.answer w).lowHz = s.lowHz := rfl
@[simp] theorem State.answer_highHz (w : Word) : (s.answer w).highHz = s.highHz := rfl
@[simp] theorem State.answer_stepChz (w : Word) : (s.answer w).stepChz = s.stepChz := rfl
@[simp] theorem State.answer_mem (w : Word) : (s.answer w).mem = s.mem := rfl
@[simp] theorem State.answer_readData (w : Word) : (s.answer w).readData = w := rfl
@[simp] theorem State.answer_draws (w : Word) : (s.answer w).draws = s.draws := rfl
@[simp] theorem State.answer_schedule (w : Word) : (s.answer w).schedule = s.schedule := rfl

/-! ## `State.answerDraw` -/

@[simp] theorem State.answerDraw_params : (s.answerDraw).params = s.params := rfl
@[simp] theorem State.answerDraw_cfg : (s.answerDraw).cfg = s.cfg := rfl
@[simp] theorem State.answerDraw_ds : (s.answerDraw).ds = s.ds := rfl
@[simp] theorem State.answerDraw_crop : (s.answerDraw).crop = s.crop := rfl
@[simp] theorem State.answerDraw_fc : (s.answerDraw).fc = s.fc := rfl
@[simp] theorem State.answerDraw_fs : (s.answerDraw).fs = s.fs := rfl
@[simp] theorem State.answerDraw_len : (s.answerDraw).len = s.len := rfl
@[simp] theorem State.answerDraw_wlen : (s.answerDraw).wlen = s.wlen := rfl
@[simp] theorem State.answerDraw_passCnt : (s.answerDraw).passCnt = s.passCnt := rfl
@[simp] theorem State.answerDraw_status : (s.answerDraw).status = s.status := rfl
@[simp] theorem State.answerDraw_irqEn : (s.answerDraw).irqEn = s.irqEn := rfl
@[simp] theorem State.answerDraw_pending : (s.answerDraw).pending = s.pending := rfl
@[simp] theorem State.answerDraw_rmsDb : (s.answerDraw).rmsDb = s.rmsDb := rfl
@[simp] theorem State.answerDraw_rmsDcDb : (s.answerDraw).rmsDcDb = s.rmsDcDb := rfl
@[simp] theorem State.answerDraw_emitCnt : (s.answerDraw).emitCnt = s.emitCnt := rfl
@[simp] theorem State.answerDraw_emitSamples : (s.answerDraw).emitSamples = s.emitSamples := rfl
@[simp] theorem State.answerDraw_lowHz : (s.answerDraw).lowHz = s.lowHz := rfl
@[simp] theorem State.answerDraw_highHz : (s.answerDraw).highHz = s.highHz := rfl
@[simp] theorem State.answerDraw_stepChz : (s.answerDraw).stepChz = s.stepChz := rfl
@[simp] theorem State.answerDraw_mem : (s.answerDraw).mem = s.mem := rfl
@[simp] theorem State.answerDraw_readData : (s.answerDraw).readData = Config.draw s.draws := rfl
@[simp] theorem State.answerDraw_draws : (s.answerDraw).draws = s.draws + 1 := rfl
@[simp] theorem State.answerDraw_schedule : (s.answerDraw).schedule = s.schedule := rfl

/-! ## `State.flagIf` -/

@[simp] theorem State.flagIf_params (c : Bool) (f : Flag) : (s.flagIf c f).params = s.params := by cases c <;> rfl
@[simp] theorem State.flagIf_cfg (c : Bool) (f : Flag) : (s.flagIf c f).cfg = s.cfg := by cases c <;> rfl
@[simp] theorem State.flagIf_ds (c : Bool) (f : Flag) : (s.flagIf c f).ds = s.ds := by cases c <;> rfl
@[simp] theorem State.flagIf_crop (c : Bool) (f : Flag) : (s.flagIf c f).crop = s.crop := by cases c <;> rfl
@[simp] theorem State.flagIf_fc (c : Bool) (f : Flag) : (s.flagIf c f).fc = s.fc := by cases c <;> rfl
@[simp] theorem State.flagIf_fs (c : Bool) (f : Flag) : (s.flagIf c f).fs = s.fs := by cases c <;> rfl
@[simp] theorem State.flagIf_len (c : Bool) (f : Flag) : (s.flagIf c f).len = s.len := by cases c <;> rfl
@[simp] theorem State.flagIf_wlen (c : Bool) (f : Flag) : (s.flagIf c f).wlen = s.wlen := by cases c <;> rfl
@[simp] theorem State.flagIf_passCnt (c : Bool) (f : Flag) : (s.flagIf c f).passCnt = s.passCnt := by cases c <;> rfl
@[simp] theorem State.flagIf_status (c : Bool) (f : Flag) : (s.flagIf c f).status = if c then setFlag s.status f else s.status := by cases c <;> rfl
@[simp] theorem State.flagIf_irqEn (c : Bool) (f : Flag) : (s.flagIf c f).irqEn = s.irqEn := by cases c <;> rfl
@[simp] theorem State.flagIf_pending (c : Bool) (f : Flag) : (s.flagIf c f).pending = s.pending := by cases c <;> rfl
@[simp] theorem State.flagIf_rmsDb (c : Bool) (f : Flag) : (s.flagIf c f).rmsDb = s.rmsDb := by cases c <;> rfl
@[simp] theorem State.flagIf_rmsDcDb (c : Bool) (f : Flag) : (s.flagIf c f).rmsDcDb = s.rmsDcDb := by cases c <;> rfl
@[simp] theorem State.flagIf_emitCnt (c : Bool) (f : Flag) : (s.flagIf c f).emitCnt = s.emitCnt := by cases c <;> rfl
@[simp] theorem State.flagIf_emitSamples (c : Bool) (f : Flag) : (s.flagIf c f).emitSamples = s.emitSamples := by cases c <;> rfl
@[simp] theorem State.flagIf_lowHz (c : Bool) (f : Flag) : (s.flagIf c f).lowHz = s.lowHz := by cases c <;> rfl
@[simp] theorem State.flagIf_highHz (c : Bool) (f : Flag) : (s.flagIf c f).highHz = s.highHz := by cases c <;> rfl
@[simp] theorem State.flagIf_stepChz (c : Bool) (f : Flag) : (s.flagIf c f).stepChz = s.stepChz := by cases c <;> rfl
@[simp] theorem State.flagIf_mem (c : Bool) (f : Flag) : (s.flagIf c f).mem = s.mem := by cases c <;> rfl
@[simp] theorem State.flagIf_readData (c : Bool) (f : Flag) : (s.flagIf c f).readData = s.readData := by cases c <;> rfl
@[simp] theorem State.flagIf_draws (c : Bool) (f : Flag) : (s.flagIf c f).draws = s.draws := by cases c <;> rfl
@[simp] theorem State.flagIf_schedule (c : Bool) (f : Flag) : (s.flagIf c f).schedule = s.schedule := by cases c <;> rfl

/-! ## `State.applyReset` -/

@[simp] theorem State.applyReset_params : s.applyReset.params = s.params := rfl
@[simp] theorem State.applyReset_cfg : s.applyReset.cfg = 0 := rfl
@[simp] theorem State.applyReset_ds : s.applyReset.ds = 1 := rfl
@[simp] theorem State.applyReset_crop : s.applyReset.crop = 0 := rfl
@[simp] theorem State.applyReset_fc : s.applyReset.fc = 0 := rfl
@[simp] theorem State.applyReset_fs : s.applyReset.fs = 0 := rfl
@[simp] theorem State.applyReset_len : s.applyReset.len = 0 := rfl
@[simp] theorem State.applyReset_wlen : s.applyReset.wlen = 0 := rfl
@[simp] theorem State.applyReset_passCnt : s.applyReset.passCnt = 0 := rfl
@[simp] theorem State.applyReset_status : s.applyReset.status = 0 := rfl
@[simp] theorem State.applyReset_irqEn : s.applyReset.irqEn = 0 := rfl
@[simp] theorem State.applyReset_pending : s.applyReset.pending = 0 := rfl
@[simp] theorem State.applyReset_rmsDb : s.applyReset.rmsDb = 0 := rfl
@[simp] theorem State.applyReset_rmsDcDb : s.applyReset.rmsDcDb = 0 := rfl
@[simp] theorem State.applyReset_emitCnt : s.applyReset.emitCnt = 0 := rfl
@[simp] theorem State.applyReset_emitSamples : s.applyReset.emitSamples = 0 := rfl
@[simp] theorem State.applyReset_lowHz : s.applyReset.lowHz = 0 := rfl
@[simp] theorem State.applyReset_highHz : s.applyReset.highHz = 0 := rfl
@[simp] theorem State.applyReset_stepChz : s.applyReset.stepChz = 0 := rfl
@[simp] theorem State.applyReset_mem : s.applyReset.mem = [] := rfl
@[simp] theorem State.applyReset_readData : s.applyReset.readData = s.readData := rfl
@[simp] theorem State.applyReset_draws : s.applyReset.draws = s.draws := rfl
@[simp] theorem State.applyReset_schedule : s.applyReset.schedule = s.schedule := rfl

end Sys2Proof.Machine
end

