-- ==== Sys2Proof/Laws/Flags.lean ====
section
/-! SUPPORT. The laws of STATUS: each flag and the error field after each update, and the reserved bits. -/

namespace Sys2Proof.Machine

theorem Flag.bit_lt (f : Flag) : f.bit < 32 := by cases f <;> decide

theorem Flag.bit_inj {f g : Flag} (h : f.bit = g.bit) : f = g := by cases f <;> cases g <;> first | rfl | cases h

@[simp] theorem getFlag_setFlag (w : Word) (f g : Flag) : getFlag (setFlag w f) g = (decide (f = g) || getFlag w g) := by
  unfold getFlag setFlag
  rw [BitVec.getLsbD_or, BitVec.getLsbD_twoPow, Bool.or_comm]
  congr 1
  have := f.bit_lt
  by_cases h : f = g
  · subst h; simp [this]
  · have h' : ¬ f.bit = g.bit := fun e => h (Flag.bit_inj e)
    simp [h, h']

@[simp] theorem getFlag_clearFlag (w : Word) (f g : Flag) :
    getFlag (clearFlag w f) g = (getFlag w g && !decide (f = g)) := by
  unfold getFlag clearFlag
  have hg := g.bit_lt
  rw [BitVec.getLsbD_and, BitVec.getLsbD_not, BitVec.getLsbD_twoPow]
  have := f.bit_lt
  by_cases h : f = g
  · subst h; simp [this]
  · have h' : ¬ f.bit = g.bit := fun e => h (Flag.bit_inj e)
    simp [h, h', hg]

@[simp] theorem getFlag_setErr (w : Word) (e : BitVec 4) (f : Flag) : getFlag (setErr w e) f = getFlag w f := by
  unfold getFlag setErr errMask
  rw [BitVec.getLsbD_or, BitVec.getLsbD_and, BitVec.getLsbD_not]
  cases f <;> simp [Flag.bit]

theorem getFlag_w1c (w v : Word) (f : Flag) :
    getFlag (w1c w v) f = (getFlag w f && !(v.getLsbD f.bit && w1cMask.getLsbD f.bit)) := by
  have := f.bit_lt
  unfold getFlag w1c
  simp [this]

@[simp] theorem errField_setErr (w : Word) (e : BitVec 4) : errField (setErr w e) = e := by
  apply BitVec.eq_of_getLsbD_eq
  intro i hi
  unfold errField setErr errMask
  have : i = 0 ∨ i = 1 ∨ i = 2 ∨ i = 3 := by omega
  rcases this with rfl | rfl | rfl | rfl <;> simp

theorem errField_eq_of_bits {w v : Word} (h : ∀ i, 4 ≤ i → i < 8 → w.getLsbD i = v.getLsbD i) : errField w = errField v := by
  apply BitVec.eq_of_getLsbD_eq
  intro i hi
  unfold errField
  simp only [BitVec.getLsbD_extractLsb', hi, decide_true, Bool.true_and]
  exact h (4 + i) (by omega) (by omega)

theorem Flag.bit_not_err (f : Flag) {i : Nat} (h4 : 4 ≤ i) (h8 : i < 8) : f.bit ≠ i := by
  cases f <;> simp only [Flag.bit] <;> omega

@[simp] theorem errField_setFlag (w : Word) (f : Flag) : errField (setFlag w f) = errField w :=
  errField_eq_of_bits fun i h4 h8 => by
    have := f.bit_not_err h4 h8
    simp [setFlag, BitVec.getLsbD_twoPow, this]

@[simp] theorem errField_clearFlag (w : Word) (f : Flag) : errField (clearFlag w f) = errField w :=
  errField_eq_of_bits fun i h4 h8 => by
    have := f.bit_not_err h4 h8
    simp [clearFlag, show i < 32 by omega]; intro _ e; exact this e.symm

@[simp] theorem errField_w1c (w v : Word) : errField (w1c w v) = errField w :=
  errField_eq_of_bits fun i h4 h8 => by
    have : i = 4 ∨ i = 5 ∨ i = 6 ∨ i = 7 := by omega
    unfold w1c w1cMask
    rcases this with rfl | rfl | rfl | rfl <;> simp

/-! ## The reserved bits of STATUS -/

theorem and_not_statusMask_or (w v : Word) (h : v &&& ~~~statusMask = 0) :
    (w ||| v) &&& ~~~statusMask = w &&& ~~~statusMask := by
  apply BitVec.eq_of_getLsbD_eq
  intro i hi
  have := congrArg (·.getLsbD i) h
  simp only [BitVec.getLsbD_and, BitVec.getLsbD_or, BitVec.getLsbD_not] at this ⊢
  rw [Bool.and_or_distrib_right, this]
  simp

theorem and_not_statusMask_and (w v : Word) (h : w &&& ~~~statusMask = 0) : (w &&& v) &&& ~~~statusMask = 0 := by
  rw [BitVec.and_assoc, BitVec.and_comm v, ← BitVec.and_assoc, h]; exact BitVec.zero_and

theorem setFlag_reserved (w : Word) (f : Flag) : setFlag w f &&& ~~~statusMask = w &&& ~~~statusMask :=
  and_not_statusMask_or w _ (by cases f <;> decide)

theorem clearFlag_reserved {w : Word} (f : Flag) (h : w &&& ~~~statusMask = 0) : clearFlag w f &&& ~~~statusMask = 0 :=
  and_not_statusMask_and w _ h

theorem setErr_reserved {w : Word} (e : BitVec 4) (h : w &&& ~~~statusMask = 0) : setErr w e &&& ~~~statusMask = 0 := by
  unfold setErr
  rw [and_not_statusMask_or _ _ (by revert e; decide)]
  exact and_not_statusMask_and w _ h

theorem w1c_reserved {w : Word} (v : Word) (h : w &&& ~~~statusMask = 0) : w1c w v &&& ~~~statusMask = 0 :=
  and_not_statusMask_and w _ h

/-! ## BUSY -/

@[simp] theorem State.busy_complete (s : State) : s.complete.busy = false := by simp [State.busy]

@[simp] theorem State.busy_raise (s : State) (e : CmdError) : (s.raise e).busy = false := by simp [State.busy]

@[simp] theorem State.busy_accept (s : State) (w : Word) : (s.accept w).busy = true := by simp [State.busy]

theorem State.busy_flag (s : State) {f : Flag} (h : f ≠ .busy) : (s.flag f).busy = s.busy := by simp [State.busy, h]

theorem errCode_le (e : CmdError) : (errCode e).toNat ≤ 5 := by cases e <;> decide

theorem errCode_ne_zero (e : CmdError) : errCode e ≠ 0 := by cases e <;> decide

end Sys2Proof.Machine
end

