-- ==== Sys2Proof/Laws/Commands.lean ====
section
/-! SUPPORT. What a command can do: its checks, its body and its completion, said once for every command. -/

namespace Sys2Proof.Machine

/-! ## The checks -/

/-- The first failure is none exactly when every check holds. -/
theorem firstFailure_eq_none {cs : List Check} : firstFailure cs = none ↔ ∀ c ∈ cs, c.1 = true := by
  induction cs with
  | nil => simp [firstFailure]
  | cons c cs ih =>
    unfold firstFailure
    cases h : c.1 <;> simp [h, ih]

/-- A first failure is the error of a check that fails. -/
theorem firstFailure_mem {cs : List Check} {e : CmdError} (h : firstFailure cs = some e) : ∃ c ∈ cs, c.1 = false ∧ c.2 = e := by
  induction cs with
  | nil => simp [firstFailure] at h
  | cons c cs ih =>
    unfold firstFailure at h
    split at h
    · obtain ⟨d, hd, h⟩ := ih h
      exact ⟨d, List.mem_cons_of_mem _ hd, h⟩
    · next hc => exact ⟨c, List.mem_cons_self, by simpa using hc, by simpa using h⟩

theorem firstFailure_append (as bs : List Check) :
    firstFailure (as ++ bs) = (firstFailure as).orElse fun _ => firstFailure bs := by
  induction as with
  | nil => simp [firstFailure]
  | cons a as ih =>
    simp only [List.cons_append, firstFailure]
    split
    · exact ih
    · rfl

theorem commonOk_iff (s : State) : (∀ c ∈ s.commonChecks, c.1 = true) ↔ s.CommonOk := by
  simp only [State.commonChecks, State.fftCheck, List.mem_cons, List.not_mem_nil, or_false, forall_eq_or_imp, forall_eq,
    decide_eq_true_eq, State.CommonOk]

/-! ## One command -/

/-- The pseudocode of each command. -/
def bodyOf : Instr → State → Option State
  | .nop => some
  | .conv => convBody
  | .dcr => dcrBody
  | .boxcar => boxcarBody
  | .rdec => rdecBody
  | .comp => compBody
  | .win => winBody
  | .xform => xformBody
  | .acc => accBody
  | .clracc => fun s => some (clearAccumulator s)
  | .rms => rmsBody
  | .emit => fun s => some (emitBody s)
  | .run => runBody

/-- Every command is its checks and its pseudocode, run by `runCommand`. -/
theorem exec_eq (i : Instr) (s : State) : exec i s = runCommand (checksOf i s) (bodyOf i) s := by cases i <;> rfl

/-- All that running a command can answer. -/
theorem runCommand_cases (cs : List Check) (body : State → Option State) (s : State) :
    (∃ e, firstFailure cs = some e ∧ runCommand cs body s = .next (s.raise e)) ∨
    (firstFailure cs = none ∧ ∃ t, body s = some t ∧ runCommand cs body s = .next t.complete) ∨
    (firstFailure cs = none ∧ body s = none ∧ runCommand cs body s = .fault .uninit) := by
  unfold runCommand
  cases firstFailure cs with
  | some e => exact .inl ⟨e, rfl, rfl⟩
  | none =>
    cases h : body s with
    | some t => exact .inr (.inl ⟨rfl, t, rfl, rfl⟩)
    | none => exact .inr (.inr ⟨rfl, rfl, rfl⟩)

theorem runCommand_next {cs : List Check} {body : State → Option State} {s t : State} (h : runCommand cs body s = .next t) :
    (∃ e, firstFailure cs = some e ∧ t = s.raise e) ∨ (firstFailure cs = none ∧ ∃ u, body s = some u ∧ t = u.complete) := by
  rcases runCommand_cases cs body s with ⟨e, he, h'⟩ | ⟨hn, u, hu, h'⟩ | ⟨-, -, h'⟩
  · rw [h'] at h; cases h; exact .inl ⟨e, he, rfl⟩
  · rw [h'] at h; cases h; exact .inr ⟨hn, u, hu, rfl⟩
  · rw [h'] at h; cases h

/-- A command whose checks hold and whose pseudocode answers completes. -/
theorem runCommand_ok {cs : List Check} {body : State → Option State} {s t : State} (hc : ∀ c ∈ cs, c.1 = true)
    (hb : body s = some t) : runCommand cs body s = .next t.complete := by
  simp [runCommand, firstFailure_eq_none.2 hc, hb]

/-! ## What a body never writes -/

/-- What no command's pseudocode changes: the parameters, the configuration registers, LEN, IRQ_EN, PENDING, the host's read data,
the schedule, the error code, and BUSY, DONE, ERRF, WRBUSY and BUSERR. -/
structure Keeps (s t : State) : Prop where
  params : t.params = s.params
  cfg : t.cfg = s.cfg
  ds : t.ds = s.ds
  crop : t.crop = s.crop
  fc : t.fc = s.fc
  fs : t.fs = s.fs
  len : t.len = s.len
  irqEn : t.irqEn = s.irqEn
  pending : t.pending = s.pending
  readData : t.readData = s.readData
  schedule : t.schedule = s.schedule
  err : errField t.status = errField s.status
  flags : ∀ f, f = .busy ∨ f = .done ∨ f = .errf ∨ f = .wrbusy ∨ f = .buserr → getFlag t.status f = getFlag s.status f
  reserved : s.status &&& ~~~statusMask = 0 → t.status &&& ~~~statusMask = 0

theorem Keeps.refl (s : State) : Keeps s s := ⟨rfl, rfl, rfl, rfl, rfl, rfl, rfl, rfl, rfl, rfl, rfl, rfl, fun _ _ => rfl, id⟩

theorem Keeps.trans {s t u : State} (h : Keeps s t) (k : Keeps t u) : Keeps s u :=
  ⟨k.params.trans h.params, k.cfg.trans h.cfg, k.ds.trans h.ds, k.crop.trans h.crop, k.fc.trans h.fc, k.fs.trans h.fs,
   k.len.trans h.len, k.irqEn.trans h.irqEn, k.pending.trans h.pending, k.readData.trans h.readData,
   k.schedule.trans h.schedule, k.err.trans h.err, fun f hf => (k.flags f hf).trans (h.flags f hf),
   fun hr => k.reserved (h.reserved hr)⟩

theorem Keeps.withMem (s : State) (m : Memory) : Keeps s (s.withMem m) :=
  ⟨rfl, rfl, rfl, rfl, rfl, rfl, rfl, rfl, rfl, rfl, rfl, rfl, fun _ _ => rfl, id⟩

theorem Keeps.withWlen (s : State) (n : Nat) : Keeps s (s.withWlen n) :=
  ⟨rfl, rfl, rfl, rfl, rfl, rfl, rfl, rfl, rfl, rfl, rfl, rfl, fun _ _ => rfl, id⟩

theorem Keeps.withPassCnt (s : State) (w : Word) : Keeps s (s.withPassCnt w) :=
  ⟨rfl, rfl, rfl, rfl, rfl, rfl, rfl, rfl, rfl, rfl, rfl, rfl, fun _ _ => rfl, id⟩

theorem Keeps.flag (s : State) {f : Flag} (h : f = .compskip ∨ f = .logdom ∨ f = .logzero ∨ f = .noblk) : Keeps s (s.flag f) :=
  ⟨rfl, rfl, rfl, rfl, rfl, rfl, rfl, rfl, rfl, rfl, rfl, by simp,
   fun g hg => by
    rcases h with rfl | rfl | rfl | rfl <;> rcases hg with rfl | rfl | rfl | rfl | rfl <;> simp,
   fun hr => by rw [State.flag_status, setFlag_reserved]; exact hr⟩

theorem Keeps.flagIf (s : State) (c : Bool) {f : Flag} (h : f = .compskip ∨ f = .logdom ∨ f = .logzero ∨ f = .noblk) :
    Keeps s (s.flagIf c f) := by
  cases c
  · exact Keeps.refl s
  · exact Keeps.flag s h

theorem keeps_convBody {s t : State} (h : convBody s = some t) : Keeps s t := by
  unfold convBody at h
  split at h
  · cases h
  · cases h
    exact (Keeps.withMem s _).trans (Keeps.withWlen _ _)

/-- DCR changes memory alone. -/
theorem dcrBody_some {s t : State} (h : dcrBody s = some t) : ∃ m, t = s.withMem m := by
  simp only [dcrBody] at h
  split at h
  · cases h; exact ⟨s.mem, rfl⟩
  · split at h
    · cases h
    · split at h
      · cases h
      · cases h; exact ⟨_, rfl⟩

/-- BOXCAR changes memory and WLEN alone. -/
theorem boxcarBody_some {s t : State} (h : boxcarBody s = some t) : t = s ∨ ∃ m n, t = (s.withMem m).withWlen n := by
  simp only [boxcarBody] at h
  split at h
  · cases h; exact .inl rfl
  · split at h
    · cases h; exact .inr ⟨_, _, rfl⟩
    · cases h

/-- RDEC changes memory and WLEN alone. -/
theorem rdecBody_some {s t : State} (h : rdecBody s = some t) :
    ∃ m, rdecPasses s.wlenN s.passes 0 s.mem = some m ∧ t = (s.withMem m).withWlen (s.wlenN / 2 ^ s.passes) := by
  simp only [rdecBody] at h
  split at h
  · cases h
  · next m hm => cases h; exact ⟨m, hm, rfl⟩

/-- COMP flags COMPSKIP, or changes memory alone. -/
theorem compBody_some {s t : State} (h : compBody s = some t) : t = s.flag .compskip ∨ ∃ m, t = s.withMem m := by
  simp only [compBody] at h
  split at h
  · cases h; exact .inl rfl
  · split at h
    · cases h
    · split at h
      · cases h
      · cases h; exact .inr ⟨_, rfl⟩

/-- WIN flags NOBLK, or changes memory alone. -/
theorem winBody_some {s t : State} (h : winBody s = some t) : t = s.flag .noblk ∨ ∃ m, t = s.withMem m := by
  simp only [winBody] at h
  split at h
  · cases h; exact .inl rfl
  · split at h
    · cases h; exact .inr ⟨_, rfl⟩
    · cases h

/-- XFORM flags NOBLK, or changes memory alone. -/
theorem xformBody_some {s t : State} (h : xformBody s = some t) : t = s.flag .noblk ∨ ∃ m, t = s.withMem m := by
  simp only [xformBody] at h
  split at h
  · cases h; exact .inl rfl
  · split at h
    · cases h
    · cases h; exact .inr ⟨_, rfl⟩

/-- ACC flags NOBLK, or changes memory and PASS_CNT alone. -/
theorem accBody_some {s t : State} (h : accBody s = some t) :
    t = s.flag .noblk ∨ ∃ m w, t = (s.withMem m).withPassCnt w := by
  simp only [accBody] at h
  split at h
  · cases h; exact .inl rfl
  · split at h
    · cases h
    · cases h; exact .inr ⟨_, _, rfl⟩

theorem keeps_clearAccumulator (s : State) : Keeps s (clearAccumulator s) :=
  (Keeps.withMem s _).trans (Keeps.withPassCnt _ _)

theorem Keeps.withRmsDb (s : State) (w : Word) : Keeps s (s.withRmsDb w) :=
  ⟨rfl, rfl, rfl, rfl, rfl, rfl, rfl, rfl, rfl, rfl, rfl, rfl, fun _ _ => rfl, id⟩

theorem Keeps.withRmsDcDb (s : State) (w : Word) : Keeps s (s.withRmsDcDb w) :=
  ⟨rfl, rfl, rfl, rfl, rfl, rfl, rfl, rfl, rfl, rfl, rfl, rfl, fun _ _ => rfl, id⟩

theorem Keeps.countDraw (s : State) : Keeps s s.countDraw :=
  ⟨rfl, rfl, rfl, rfl, rfl, rfl, rfl, rfl, rfl, rfl, rfl, rfl, fun _ _ => rfl, id⟩

theorem Keeps.withEmit (s : State) (low high : DWord) (chz cnt samples : Word) : Keeps s (s.withEmit low high chz cnt samples) :=
  ⟨rfl, rfl, rfl, rfl, rfl, rfl, rfl, rfl, rfl, rfl, rfl, rfl, fun _ _ => rfl, id⟩

/-- RMS writes RMS_DB, RMS_DC_DB, the flags LOGZERO and LOGDOM and the draw counter alone. -/
theorem rmsWrite_cases (ms : List Nat) (s : State) :
    ∃ u, (u = s ∨ u = s.flag .logzero) ∧ ∃ w, ∃ v, (v = u.withRmsDb w ∨ v = (u.withRmsDb w).flag .logdom) ∧
      ∃ x, rmsWrite ms s = v.withRmsDcDb x ∨ rmsWrite ms s = (v.withRmsDcDb x).countDraw := by
  obtain ⟨u, hu, w, hw⟩ : ∃ u, (u = s ∨ u = s.flag .logzero) ∧ ∃ w, rmsWriteDb ms s = u.withRmsDb w := by
    unfold rmsWriteDb
    split
    · exact ⟨_, .inr rfl, _, rfl⟩
    · exact ⟨_, .inl rfl, _, rfl⟩
  refine ⟨u, hu, w, ?_⟩
  rw [rmsWrite, hw, rmsWriteDc]
  split
  · exact ⟨_, .inr rfl, _, .inl rfl⟩
  · split
    · exact ⟨_, .inl rfl, _, .inl rfl⟩
    · exact ⟨_, .inl rfl, _, .inr rfl⟩

theorem keeps_rmsWrite (ms : List Nat) (s : State) : Keeps s (rmsWrite ms s) := by
  obtain ⟨u, hu, w, v, hv, x, hx⟩ := rmsWrite_cases ms s
  have h1 : Keeps s u := by
    rcases hu with rfl | rfl
    · exact Keeps.refl _
    · exact Keeps.flag s (by simp)
  have h2 : Keeps u v := by
    rcases hv with rfl | rfl
    · exact Keeps.withRmsDb u w
    · exact (Keeps.withRmsDb u w).trans (Keeps.flag _ (by simp))
  rcases hx with hx | hx <;> rw [hx]
  · exact h1.trans (h2.trans (Keeps.withRmsDcDb v x))
  · exact h1.trans (h2.trans ((Keeps.withRmsDcDb v x).trans (Keeps.countDraw _)))

/-- RMS leaves memory, WLEN, PASS_CNT and the emitter's registers alone. -/
theorem rmsWrite_frame (ms : List Nat) (s : State) : (rmsWrite ms s).mem = s.mem ∧ (rmsWrite ms s).wlen = s.wlen ∧
    (rmsWrite ms s).passCnt = s.passCnt ∧ (rmsWrite ms s).emitCnt = s.emitCnt ∧
    (rmsWrite ms s).emitSamples = s.emitSamples ∧ (rmsWrite ms s).lowHz = s.lowHz ∧ (rmsWrite ms s).highHz = s.highHz ∧
    (rmsWrite ms s).stepChz = s.stepChz := by
  obtain ⟨u, hu, w, v, hv, x, hx⟩ := rmsWrite_cases ms s
  rcases hx with hx | hx <;> rcases hv with hv | hv <;> rcases hu with hu | hu <;> simp [hx, hv, hu]

theorem rmsBody_some {s t : State} (h : rmsBody s = some t) : ∃ ms, t = rmsWrite ms s := by
  simp only [rmsBody] at h
  split at h
  · cases h
  · cases h; exact ⟨_, rfl⟩

/-- RMS's writes do not depend on memory and leave it. -/
theorem rmsWrite_withMem (ms : List Nat) (s : State) (m : Memory) : rmsWrite ms (s.withMem m) = (rmsWrite ms s).withMem m := by
  have hdb : rmsWriteDb ms (s.withMem m) = (rmsWriteDb ms s).withMem m := by
    unfold rmsWriteDb
    rw [show (s.withMem m).refDen = s.refDen from rfl]
    generalize rmsValue s.refDen ms = k
    by_cases h : ms.sum = 0
    · rw [if_pos h, if_pos h]; rfl
    · rw [if_neg h, if_neg h]; rfl
  unfold rmsWrite
  rw [hdb]
  generalize rmsWriteDb ms s = t
  unfold rmsWriteDc
  rw [show (t.withMem m).refDen = t.refDen from rfl, show (t.withMem m).draws = t.draws from rfl]
  generalize dcNearest ms refNum t.refDen dcRounds dcStartBits = d
  cases rmsLeDc ms
  · cases d <;> rfl
  · rfl

/-- RMS reads of memory only RAW below LEN. -/
theorem rmsBody_withMem {s : State} {m : Memory} (h : ∀ j < s.lenN, m.raw j = s.mem.raw j) :
    rmsBody (s.withMem m) = (rmsBody s).map fun t => t.withMem m := by
  have e : (s.withMem m).mem.raws (s.withMem m).lenN = s.mem.raws s.lenN :=
    gather_congr fun k hk => by rw [Nat.zero_add]; exact h k hk
  unfold rmsBody
  rw [e, show (s.withMem m).bias = s.bias from rfl]
  cases s.mem.raws s.lenN with
  | none => rfl
  | some bs => simp only [rmsWrite_withMem, Option.map_some]

theorem keeps_emitBody (s : State) : Keeps s (emitBody s) :=
  (Keeps.withMem s _).trans ((Keeps.flagIf _ _ (by simp)).trans ((Keeps.withEmit _ _ _ _ _ _).trans
    (keeps_clearAccumulator _)))

theorem keeps_dcrBody {s t : State} (h : dcrBody s = some t) : Keeps s t := by
  obtain ⟨m, rfl⟩ := dcrBody_some h; exact Keeps.withMem s m

theorem keeps_boxcarBody {s t : State} (h : boxcarBody s = some t) : Keeps s t := by
  obtain rfl | ⟨m, n, rfl⟩ := boxcarBody_some h
  · exact Keeps.refl _
  · exact (Keeps.withMem s m).trans (Keeps.withWlen _ n)

theorem keeps_rdecBody {s t : State} (h : rdecBody s = some t) : Keeps s t := by
  obtain ⟨m, -, rfl⟩ := rdecBody_some h; exact (Keeps.withMem s m).trans (Keeps.withWlen _ _)

theorem keeps_compBody {s t : State} (h : compBody s = some t) : Keeps s t := by
  obtain rfl | ⟨m, rfl⟩ := compBody_some h
  · exact Keeps.flag s (by simp)
  · exact Keeps.withMem s m

theorem keeps_winBody {s t : State} (h : winBody s = some t) : Keeps s t := by
  obtain rfl | ⟨m, rfl⟩ := winBody_some h
  · exact Keeps.flag s (by simp)
  · exact Keeps.withMem s m

theorem keeps_xformBody {s t : State} (h : xformBody s = some t) : Keeps s t := by
  obtain rfl | ⟨m, rfl⟩ := xformBody_some h
  · exact Keeps.flag s (by simp)
  · exact Keeps.withMem s m

theorem keeps_accBody {s t : State} (h : accBody s = some t) : Keeps s t := by
  obtain rfl | ⟨m, w, rfl⟩ := accBody_some h
  · exact Keeps.flag s (by simp)
  · exact (Keeps.withMem s m).trans (Keeps.withPassCnt _ w)

/-- RUN's decimation step does nothing, or runs BOXCAR, or RDEC and perhaps COMP. -/
theorem runDecimate_some {s t : State} (h : runDecimate s = some t) :
    t = s ∨ boxcarBody s = some t ∨ ∃ u, rdecBody s = some u ∧ (t = u ∨ compBody u = some t) := by
  unfold runDecimate at h
  split at h
  · split at h
    · exact .inr (.inl h)
    · cases h; exact .inl rfl
  · split at h
    · split at h
      · cases h
      · next u hu =>
        refine .inr (.inr ⟨u, hu, ?_⟩)
        split at h
        · exact .inr h
        · cases h; exact .inl rfl
    · cases h; exact .inl rfl
  · cases h; exact .inl rfl
  · cases h; exact .inl rfl

/-- RUN is RMS, or its seven steps in order. -/
theorem runBody_some {s t : State} (h : runBody s = some t) :
    (s.fftLog2 = 0 ∧ rmsBody s = some t) ∨
    (s.fftLog2 ≠ 0 ∧ ∃ s₁ s₂ s₃ s₄ s₅, convBody s = some s₁ ∧ runDecimate s₁ = some s₂ ∧ dcrBody s₂ = some s₃ ∧
      winBody s₃ = some s₄ ∧ xformBody s₄ = some s₅ ∧ accBody s₅ = some t) := by
  unfold runBody at h
  split at h
  · next h0 => exact .inl ⟨h0, h⟩
  · next h0 =>
    simp only [Option.bind_eq_bind, Option.bind_eq_some_iff] at h
    obtain ⟨s₁, h1, s₂, h2, s₃, h3, s₄, h4, s₅, h5, h6⟩ := h
    exact .inr ⟨h0, s₁, s₂, s₃, s₄, s₅, h1, h2, h3, h4, h5, h6⟩

theorem keeps_runDecimate {s t : State} (h : runDecimate s = some t) : Keeps s t := by
  obtain rfl | h | ⟨u, hu, rfl | h⟩ := runDecimate_some h
  · exact Keeps.refl _
  · exact keeps_boxcarBody h
  · exact keeps_rdecBody hu
  · exact (keeps_rdecBody hu).trans (keeps_compBody h)

theorem keeps_runBody {s t : State} (h : runBody s = some t) : Keeps s t := by
  obtain ⟨-, h⟩ | ⟨-, s₁, s₂, s₃, s₄, s₅, h1, h2, h3, h4, h5, h6⟩ := runBody_some h
  · obtain ⟨ms, rfl⟩ := rmsBody_some h; exact keeps_rmsWrite ms s
  · exact (keeps_convBody h1).trans ((keeps_runDecimate h2).trans ((keeps_dcrBody h3).trans ((keeps_winBody h4).trans
      ((keeps_xformBody h5).trans (keeps_accBody h6)))))

/-- What no command's pseudocode changes. -/
theorem keeps_bodyOf {i : Instr} {s t : State} (h : bodyOf i s = some t) : Keeps s t := by
  cases i with
  | nop => cases h; exact Keeps.refl s
  | conv => exact keeps_convBody h
  | dcr => exact keeps_dcrBody h
  | boxcar => exact keeps_boxcarBody h
  | rdec => exact keeps_rdecBody h
  | comp => exact keeps_compBody h
  | win => exact keeps_winBody h
  | xform => exact keeps_xformBody h
  | acc => exact keeps_accBody h
  | clracc => cases h; exact keeps_clearAccumulator s
  | rms => obtain ⟨ms, rfl⟩ := rmsBody_some h; exact keeps_rmsWrite ms s
  | emit => cases h; exact keeps_emitBody s
  | run => exact keeps_runBody h

end Sys2Proof.Machine
end

