-- ==== Sys2Proof/Laws/Errors.lean ====
section
/-! SUPPORT. The checks of each command hold exactly when none of the causes that 60_exceptions R301 lists does. -/

namespace Sys2Proof.Machine

theorem recursiveLength_iff (s : State) (l : Nat) : s.recursiveLength l = true ↔ s.RecursiveOk l := by
  simp only [State.recursiveLength, State.RecursiveOk, decide_eq_true_eq]

/-- The first failing check of a command is none exactly when the command is not rejected. -/
theorem firstFailure_checksOf (i : Instr) (s : State) : firstFailure (checksOf i s) = none ↔ ¬Rejected i s := by
  rw [firstFailure_eq_none]
  have hc := commonOk_iff s
  have hr := recursiveLength_iff s
  cases i <;>
    simp only [checksOf, State.convChecks, State.dcrChecks, State.boxcarChecks, State.rdecChecks, State.compChecks,
      State.blockChecks, State.clraccChecks, State.rmsChecks, State.emitChecks, State.runChecks, List.forall_mem_append, hc,
      State.modeCheck, State.workLengthCheck, State.spectralCheck, State.fftCheck, State.rmsLengthCheck, List.mem_cons,
      List.not_mem_nil, or_false, forall_eq_or_imp, forall_eq, decide_eq_true_eq, Rejected, BadConfig, BadLength,
      EmptyAtEmit, State.WorkOk, State.LenOk, hr, reduceCtorEq, false_and, false_imp_iff, implies_true, true_and] <;>
    first
    | tauto
    | (split_ifs <;>
        simp only [List.mem_cons, List.not_mem_nil, or_false, forall_eq_or_imp, forall_eq, decide_eq_true_eq, hr] <;>
        constructor <;> intro h <;> (try simp only [not_or, not_and, not_not, not_lt] at h ⊢) <;> grind)
    | grind

/-- A raised error is the failing completion with its code (R303). -/
theorem raise_eq_failed (s : State) (e : CmdError) : s.raise e = failed s (errCode e) := rfl

/-- The first failing check names the error that R302's order gives: BAD_CONFIG, then BAD_LENGTH, then EMPTY. -/
theorem firstFailure_error (i : Instr) (s : State) :
    (BadConfig i s → firstFailure (checksOf i s) = some .badConfig) ∧
    (¬BadConfig i s → BadLength i s → firstFailure (checksOf i s) = some .badLength) ∧
    (¬BadConfig i s → ¬BadLength i s → EmptyAtEmit i s → firstFailure (checksOf i s) = some .empty) := by
  have hr := recursiveLength_iff s
  by_cases hf : s.fftLog2 = 0 <;> cases i <;>
    simp only [hf, checksOf, State.convChecks, State.dcrChecks, State.boxcarChecks, State.rdecChecks, State.compChecks,
      State.blockChecks, State.clraccChecks, State.rmsChecks, State.emitChecks, State.runChecks, State.commonChecks, if_true,
      if_false,
      List.cons_append, List.nil_append, firstFailure, State.modeCheck, State.workLengthCheck, State.spectralCheck,
      State.fftCheck, State.rmsLengthCheck, decide_eq_true_eq, BadConfig, BadLength, EmptyAtEmit, State.CommonOk,
      State.WorkOk, State.LenOk, hr, reduceCtorEq, false_and, true_and] <;>
    grind

/-- What each error of a command's checks says about its causes, in both directions (R302). -/
theorem firstFailure_iff (i : Instr) (s : State) :
    (firstFailure (checksOf i s) = some .badConfig ↔ BadConfig i s) ∧
    (firstFailure (checksOf i s) = some .badLength ↔ ¬BadConfig i s ∧ BadLength i s) ∧
    (firstFailure (checksOf i s) = some .empty ↔ ¬BadConfig i s ∧ ¬BadLength i s ∧ EmptyAtEmit i s) := by
  obtain ⟨h1, h2, h3⟩ := firstFailure_error i s
  have h0 := firstFailure_checksOf i s
  simp only [Rejected, not_or] at h0
  by_cases hc : BadConfig i s
  · simp [h1 hc, hc]
  · by_cases hl : BadLength i s
    · simp [h2 hc hl, hc, hl]
    · by_cases he : EmptyAtEmit i s
      · simp [h3 hc hl he, hc, hl, he]
      · simp [h0.2 ⟨hc, hl, he⟩, hc, hl, he]

end Sys2Proof.Machine
end

