-- ==== Sys2Proof/Laws/Windows.lean ====
section
/-! SUPPORT. The windows of the address map: where each cell lies, that a write to one window leaves the others alone, and that the
named writes stay inside their windows. -/

namespace Sys2Proof.Machine

/-- The bounds of a legal instance (00_scope R6, R7). -/
theorem Params.legal_bounds {p : Params} (h : p.legal = true) :
    1 ≤ p.fftLog2Max ∧ p.fftLog2Max ≤ 25 ∧ p.rawCap % 4 = 0 ∧ 4 * 2 ^ p.fftLog2Max ≤ p.rawCap ∧ p.rawCap ≤ 2 ^ 27 := by
  simp only [Params.legal, Params.fftLegal, Params.capLegal, Bool.and_eq_true, decide_eq_true_eq] at h
  tauto

theorem two_pow_le_bins {p : Params} (h : p.legal = true) : 2 ^ p.fftLog2Max ≤ 2 ^ 25 :=
  Nat.pow_le_pow_right (by omega) (Params.legal_bounds h).2.1

/-- N ≤ 2^FFT_LOG2_MAX ≤ 2^25 once the common checks hold. -/
theorem State.bins_le {s : State} (h : s.params.legal = true) (hf : s.fftLog2 ≤ s.params.fftLog2Max) :
    s.bins ≤ 2 ^ s.params.fftLog2Max ∧ s.bins ≤ 2 ^ 25 := by
  have h1 : s.bins ≤ 2 ^ s.params.fftLog2Max := Nat.pow_le_pow_right (by omega) hf
  exact ⟨h1, le_trans h1 (two_pow_le_bins h)⟩

theorem windowOf_raw {p : Params} (h : p.legal = true) {x : Nat} (h1 : rawAddr 0 ≤ x) (h2 : x < rawAddr p.rawCap) :
    windowOf p x = .ram := by
  obtain ⟨-, -, -, -, h4⟩ := Params.legal_bounds h
  simp only [rawAddr, rawBase] at h1 h2
  have hd : x / slotSize = 1 := by simp only [slotSize]; omega
  have hm : x % slotSize < p.rawCap := by simp only [slotSize]; omega
  simp [windowOf, hd, hm]

theorem windowOf_work {p : Params} (h : p.legal = true) {x : Nat} (h1 : workAddr 0 ≤ x) (h2 : x < workAddr p.rawCap) :
    windowOf p x = .ram := by
  obtain ⟨-, -, -, -, h4⟩ := Params.legal_bounds h
  simp only [workAddr, workBase] at h1 h2
  have hd : x / slotSize = 2 := by simp only [slotSize]; omega
  have hm : x % slotSize < 2 * p.rawCap := by simp only [slotSize]; omega
  simp [windowOf, hd, hm]

theorem windowOf_win {p : Params} (h : p.legal = true) {x : Nat} (h1 : winAddr 0 ≤ x)
    (h2 : x < winAddr (2 ^ p.fftLog2Max)) : windowOf p x = .ram := by
  have h4 := two_pow_le_bins h
  simp only [winAddr, winBase] at h1 h2
  have hd : x / slotSize = 3 := by simp only [slotSize]; omega
  have hm : x % slotSize < 2 * 2 ^ p.fftLog2Max := by simp only [slotSize]; omega
  simp [windowOf, hd, hm]

theorem windowOf_acc {p : Params} (h : p.legal = true) {x : Nat} (h1 : accAddr 0 ≤ x)
    (h2 : x < accAddr (2 ^ p.fftLog2Max)) : windowOf p x = .ram := by
  have h4 := two_pow_le_bins h
  simp only [accAddr, accBase] at h1 h2
  have hd : x / slotSize = 4 := by simp only [slotSize]; omega
  have hm : x % slotSize < 8 * 2 ^ p.fftLog2Max := by simp only [slotSize]; omega
  simp [windowOf, hd, hm]

theorem windowOf_out {p : Params} (h : p.legal = true) {x : Nat} (h1 : outAddr 0 ≤ x)
    (h2 : x < outAddr (2 ^ p.fftLog2Max)) : windowOf p x = .out := by
  have h4 := two_pow_le_bins h
  simp only [outAddr, outBase] at h1 h2
  have hd : x / slotSize = 5 := by simp only [slotSize]; omega
  have hm : x % slotSize < 4 * 2 ^ p.fftLog2Max := by simp only [slotSize]; omega
  simp [windowOf, hd, hm]

/-! ## The named writes stay in their windows -/

theorem Memory.mapped_setWork {p : Params} (h : p.legal = true) {m : Memory} (hm : m.mapped p) {xs : List Sample}
    (hx : xs.length ≤ p.rawCap) : (m.setWork xs).mapped p := by
  intro c hc
  rcases Memory.mem_writeCells hc with ⟨k, hk, h1, h2⟩ | hc
  · simp only [List.length_map] at hk
    refine .inl (windowOf_work h (by omega) ?_)
    simp only [workAddr] at *
    omega
  · exact hm c hc

theorem Memory.mapped_setStream {p : Params} (h : p.legal = true) {m : Memory} (hm : m.mapped p) {o : Nat} {xs : List Sample}
    (hx : ∀ k < xs.length, o + 2 * k < p.rawCap) : (m.setStream o xs).mapped p := by
  intro c hc
  rcases Memory.mem_writeCells hc with ⟨k, hk, h1, h2⟩ | hc
  · simp only [List.length_map] at hk
    have := hx k hk
    refine .inl (windowOf_work h ?_ ?_) <;> simp only [workAddr] at * <;> omega
  · exact hm c hc

theorem Memory.mapped_setPairs {p : Params} (h : p.legal = true) {m : Memory} (hm : m.mapped p) {ps : List Pair}
    (hx : 2 * ps.length ≤ p.rawCap) : (m.setPairs ps).mapped p :=
  Memory.mapped_setWork h hm (by simpa using hx)

theorem Memory.mapped_setAccs {p : Params} (h : p.legal = true) {m : Memory} (hm : m.mapped p) {xs : List DWord}
    (hx : xs.length ≤ 2 ^ p.fftLog2Max) : (m.setAccs xs).mapped p := by
  intro c hc
  rcases Memory.mem_writeCells hc with ⟨k, hk, h1, h2⟩ | hc
  · simp only [List.length_map] at hk
    refine .inl (windowOf_acc h (by omega) ?_)
    simp only [accAddr] at *
    omega
  · exact hm c hc

theorem Memory.mapped_setOut {p : Params} (h : p.legal = true) {m : Memory} (hm : m.mapped p) {xs : List Word}
    (hx : xs.length ≤ 2 ^ p.fftLog2Max) : (m.setOut xs).mapped p := by
  intro c hc
  rcases Memory.mem_writeCells hc with ⟨k, hk, h1, h2⟩ | hc
  · simp only [List.length_map] at hk
    refine .inr (windowOf_out h (by omega) ?_)
    simp only [outAddr] at *
    omega
  · exact hm c hc

theorem Memory.mapped_zeroAccs {p : Params} {m : Memory} (hm : m.mapped p) (n : Nat) : (m.zeroAccs n).mapped p :=
  fun c hc => hm c (List.mem_of_mem_filter hc)

/-! ## A write to one window leaves the cells of the others -/

theorem Memory.raw_setWork (m : Memory) (xs : List Sample) {j : Nat} (hj : j < 2 ^ 28) : (m.setWork xs).raw j = m.raw j := by
  apply Memory.read_setWork_outside
  simp only [rawAddr, rawBase, workAddr, workBase]
  omega

theorem Memory.raw_setStream (m : Memory) (o : Nat) (xs : List Sample) {j : Nat} (hj : j < 2 ^ 28) :
    (m.setStream o xs).raw j = m.raw j := by
  apply Memory.read_setStream_outside
  intro k hk
  simp only [rawAddr, rawBase, workAddr, workBase]
  omega

theorem Memory.win_setWork (m : Memory) {xs : List Sample} (hx : xs.length ≤ 2 ^ 27) (j : Nat) :
    (m.setWork xs).win j = m.win j := by
  apply Memory.win_congr
  intro k hk
  apply Memory.read_setWork_outside
  simp only [winAddr, winBase, workAddr, workBase]
  omega

theorem Memory.win_setStream (m : Memory) {o : Nat} {xs : List Sample} (hx : ∀ k < xs.length, o + 2 * k < 2 ^ 27) (j : Nat) :
    (m.setStream o xs).win j = m.win j := by
  apply Memory.win_congr
  intro i hi
  apply Memory.read_setStream_outside
  intro k hk
  have := hx k hk
  simp only [winAddr, winBase, workAddr, workBase]
  omega

theorem Memory.acc_setWork (m : Memory) {xs : List Sample} (hx : xs.length ≤ 2 ^ 27) (j : Nat) :
    (m.setWork xs).acc j = m.acc j := by
  apply Memory.acc_congr
  intro k hk
  apply Memory.read_setWork_outside
  simp only [accAddr, accBase, workAddr, workBase]
  omega

theorem Memory.acc_setStream (m : Memory) {o : Nat} {xs : List Sample} (hx : ∀ k < xs.length, o + 2 * k < 2 ^ 27) (j : Nat) :
    (m.setStream o xs).acc j = m.acc j := by
  apply Memory.acc_congr
  intro i hi
  apply Memory.read_setStream_outside
  intro k hk
  have := hx k hk
  simp only [accAddr, accBase, workAddr, workBase]
  omega

theorem Memory.acc_setOut (m : Memory) (xs : List Word) {j : Nat} (hj : j < 2 ^ 25) : (m.setOut xs).acc j = m.acc j := by
  apply Memory.acc_congr
  intro k hk
  apply Memory.read_setOut_outside
  simp only [accAddr, accBase, outAddr, outBase]
  omega

theorem Memory.out_zeroAccs (m : Memory) {n : Nat} (hn : n ≤ 2 ^ 25) (i : Nat) : (m.zeroAccs n).out i = m.out i := by
  apply Memory.out_congr
  intro k hk
  apply Memory.read_zeroAccs_outside
  simp only [accAddr, accBase, outAddr, outBase]
  omega

end Sys2Proof.Machine
end

