-- ==== Sys2Proof/Laws/Conditioning.lean ====
section
/-! SUPPORT. What the bodies of the conditioning commands do to the cells (40_conditioning), in the terms of Safety.lean. -/

namespace Sys2Proof.Machine

/-! ## Reading ranges of cells -/

/-- Every byte outside the cells of the first n samples of a stream reads as before. -/
def StreamFrame (m m' : Memory) (o n : Nat) : Prop :=
  ∀ x, (∀ k < n, ¬(workAddr (o + 2 * k) ≤ x ∧ x < workAddr (o + 2 * k) + 2)) → m'.read x = m.read x

theorem StreamFrame.refl (m : Memory) (o n : Nat) : StreamFrame m m o n := fun _ _ => rfl

/-- The cells of a stream frame outside the stream are as before. -/
theorem StreamFrame.work {m m' : Memory} {o n : Nat} (h : StreamFrame m m' o n) {j : Nat} (hj : ∀ k < n, j ≠ o + 2 * k) :
    m'.work j = m.work j :=
  Memory.work_congr fun i hi => h _ fun k hk => by
    have := hj k hk
    simp only [workAddr]
    omega

/-- Two stream frames make a frame of a range of cells. -/
theorem StreamFrame.same {m m' m'' : Memory} {n l : Nat} (h : StreamFrame m m' 0 n) (h' : StreamFrame m' m'' 1 n)
    (hl : 2 * n ≤ l) : SameOutside m m'' (workAddr 0) (2 * l) := by
  intro x hx
  rw [h' x, h x] <;> intro k hk <;> simp only [workAddr] at * <;> omega

theorem SameOutside.refl (m : Memory) (a n : Nat) : SameOutside m m a n := fun _ _ => rfl

theorem SameOutside.mono {m m' : Memory} {a n k : Nat} (h : SameOutside m m' a n) (hk : n ≤ k) : SameOutside m m' a k :=
  fun x hx => h x (by omega)

theorem SameOutside.trans {m m' m'' : Memory} {a n : Nat} (h : SameOutside m m' a n) (h' : SameOutside m' m'' a n) :
    SameOutside m m'' a n := fun x hx => (h' x hx).trans (h x hx)

theorem SameOutside.work {m m' : Memory} {n : Nat} (h : SameOutside m m' (workAddr 0) (2 * n)) {j : Nat} (hj : n ≤ j) :
    m'.work j = m.work j :=
  Memory.work_congr fun i hi => h _ (by simp only [workAddr]; omega)

/-- Outside WORK's cells below 2^27, RAW's, WIN's and ACC's cells are as before. -/
theorem SameOutside.raw {m m' : Memory} {n : Nat} (h : SameOutside m m' (workAddr 0) n) {j : Nat} (hj : j < 2 ^ 28) :
    m'.raw j = m.raw j := h _ (by simp only [workAddr, workBase, rawAddr, rawBase]; omega)

theorem SameOutside.win {m m' : Memory} {n : Nat} (h : SameOutside m m' (workAddr 0) n) (hn : n ≤ 2 ^ 28) (j : Nat) :
    m'.win j = m.win j :=
  Memory.win_congr fun i hi => h _ (by simp only [workAddr, workBase, winAddr, winBase]; omega)

theorem SameOutside.acc {m m' : Memory} {n : Nat} (h : SameOutside m m' (workAddr 0) n) (hn : n ≤ 2 ^ 28) (j : Nat) :
    m'.acc j = m.acc j :=
  Memory.acc_congr fun i hi => h _ (by simp only [workAddr, workBase, accAddr, accBase]; omega)

theorem SameOutside.out {m m' : Memory} {n : Nat} (h : SameOutside m m' (workAddr 0) n) (hn : n ≤ 2 ^ 28) (j : Nat) :
    m'.out j = m.out j :=
  Memory.out_congr fun i hi => h _ (by simp only [workAddr, workBase, outAddr, outBase]; omega)

/-- A range of cells that are all written, as the list of their values. -/
theorem gather_written {α : Type} {f : Nat → Option α} {n : Nat} (d : α) (h : ∀ k < n, (f k).isSome) :
    gather f 0 n = some ((List.range n).map fun k => (f k).getD d) := by
  rw [gather_eq_some]
  refine ⟨by simp, fun k hk => ?_⟩
  obtain ⟨x, hx⟩ := Option.isSome_iff_exists.1 (h k hk)
  simp [hx, hk]

theorem gather_unwritten {α : Type} {f : Nat → Option α} {n : Nat} (h : ¬∀ k < n, (f k).isSome) : gather f 0 n = none := by
  rw [← Option.not_isSome_iff_eq_none, gather_isSome]
  simpa using h

theorem workWritten_stream {m : Memory} {n l : Nat} (h : m.workWritten l) {o : Nat} (ho : o < 2) (hl : 2 * n ≤ l) :
    ∀ k < n, (m.work (o + 2 * k)).isSome := fun k hk => h _ (by omega)

/-- Both streams written is the range written. -/
theorem workWritten_of_streams {m : Memory} {n : Nat} (h0 : ∀ k < n, (m.work (0 + 2 * k)).isSome)
    (h1 : ∀ k < n, (m.work (1 + 2 * k)).isSome) : m.workWritten (2 * n) := by
  intro j hj
  rcases Nat.even_or_odd' j with ⟨k, rfl | rfl⟩
  · simpa using h0 k (by omega)
  · simpa [Nat.add_comm] using h1 k (by omega)

/-- The value of a stream's sample, as a list entry. -/
theorem streamList_toInt (m : Memory) (o n : Nat) :
    ((List.range n).map fun k => (m.work (o + 2 * k)).getD 0).map BitVec.toInt =
      (List.range n).map fun k => m.workV (o + 2 * k) := by
  simp [Memory.workV, Function.comp_def]

theorem sum_range_map {α : Type} [AddCommMonoid α] (f : Nat → α) (n : Nat) :
    ((List.range n).map f).sum = ∑ k ∈ Finset.range n, f k := by
  induction n with
  | zero => simp
  | succ n ih => rw [List.range_succ, List.map_append, List.sum_append, ih, Finset.sum_range_succ]; simp

/-- Replacing a stream's samples by a function of their index. -/
theorem setStream_map (m : Memory) (o n : Nat) (g : Nat → Sample) :
    (∀ k < n, (m.setStream o ((List.range n).map g)).work (o + 2 * k) = some (g k)) ∧
    StreamFrame m (m.setStream o ((List.range n).map g)) o n := by
  constructor
  · intro k hk
    rw [Memory.work_setStream_same m o _ (by simpa using hk)]
    simp
  · intro x hx
    apply Memory.read_setStream_outside
    simpa using hx

/-! ## CONV -/

/-- CONV's body when RAW is written (R140). -/
theorem convBody_written {s : State} (h : s.mem.rawWritten s.lenN) :
    ∃ m, convBody s = some ((s.withMem m).withWlen s.lenN) ∧ SameOutside s.mem m (workAddr 0) (2 * s.lenN) ∧
      ∀ j < s.lenN, ∃ b, s.mem.raw j = some b ∧ m.work j = some (convSample s.bias b) := by
  refine ⟨s.mem.setWork (((List.range s.lenN).map fun k => (s.mem.raw k).getD 0).map (convSample s.bias)),
    by simp only [convBody, Memory.raws, gather_written 0 h], ?_, fun j hj => ?_⟩
  · intro x hx
    apply Memory.read_setWork_outside
    simpa using hx
  · obtain ⟨b, hb⟩ := Option.isSome_iff_exists.1 (h j hj)
    refine ⟨b, hb, ?_⟩
    rw [Memory.work_setWork, dif_pos (by simpa using hj)]
    simp [hb]

theorem convBody_unwritten {s : State} (h : ¬s.mem.rawWritten s.lenN) : convBody s = none := by
  simp only [convBody, Memory.raws, gather_unwritten h]

/-! ## DCR -/

/-- One stream of DCR (R145). -/
theorem dcrStream_written {m : Memory} {o n : Nat} (h : ∀ k < n, (m.work (o + 2 * k)).isSome) :
    ∃ m', dcrStream o n m = some m' ∧ StreamFrame m m' o n ∧
      ∀ k < n, m'.work (o + 2 * k) =
        some (wrap16 (m.workV (o + 2 * k) - (∑ i ∈ Finset.range n, m.workV (o + 2 * i)).tdiv n)) := by
  have hs : truncMean ((List.range n).map fun k => (m.work (o + 2 * k)).getD 0) =
      (∑ i ∈ Finset.range n, m.workV (o + 2 * i)).tdiv n := by
    rw [truncMean, sumSamples, streamList_toInt, sum_range_map]; simp
  simp only [dcrStream, Memory.stream, gather_written (0 : Sample) h]
  rw [hs]
  set mean := (∑ i ∈ Finset.range n, m.workV (o + 2 * i)).tdiv n
  by_cases h0 : mean = 0
  · refine ⟨m, by simp [h0], StreamFrame.refl _ _ _, fun k hk => ?_⟩
    obtain ⟨x, hx⟩ := Option.isSome_iff_exists.1 (h k hk)
    rw [h0, hx, Memory.workV, hx]
    simp [wrap16]
  · rw [if_neg h0, List.map_map]
    obtain ⟨h1, h2⟩ := setStream_map m o n fun k => wrap16 (((m.work (o + 2 * k)).getD 0).toInt - mean)
    exact ⟨_, rfl, h2, h1⟩

theorem dcrStream_unwritten {m : Memory} {o n : Nat} (h : ¬∀ k < n, (m.work (o + 2 * k)).isSome) : dcrStream o n m = none := by
  simp only [dcrStream, Memory.stream, gather_unwritten h]

/-- DCR's body when WORK is written (R145). -/
theorem dcrBody_written {s : State} (h : s.mem.workWritten (2 * (s.wlenN / 2))) :
    ∃ m, dcrBody s = some (s.withMem m) ∧ SameOutside s.mem m (workAddr 0) (2 * (2 * (s.wlenN / 2))) ∧
      ∀ o < 2, ∀ k < s.wlenN / 2, m.work (2 * k + o) = some (wrap16 (s.mem.workV (2 * k + o) -
        (∑ i ∈ Finset.range (s.wlenN / 2), s.mem.workV (2 * i + o)).tdiv (s.wlenN / 2 : Nat))) := by
  simp only [dcrBody]
  generalize hn : s.wlenN / 2 = n at h
  by_cases h0 : n = 0
  · refine ⟨s.mem, by simp [h0, State.withMem], SameOutside.refl _ _ _, fun o _ k hk => by omega⟩
  obtain ⟨m1, e1, f1, v1⟩ := dcrStream_written (workWritten_stream (o := 0) h (by omega) le_rfl)
  have hw : ∀ k < n, (m1.work (1 + 2 * k)).isSome := fun k hk => by
    rw [f1.work (by omega)]; exact workWritten_stream (o := 1) h (by omega) le_rfl k hk
  obtain ⟨m2, e2, f2, v2⟩ := dcrStream_written hw
  refine ⟨m2, by simp [h0, e1, e2], f1.same f2 le_rfl, fun o ho k hk => ?_⟩
  have hv : ∀ i, m1.workV (1 + 2 * i) = s.mem.workV (1 + 2 * i) := fun i => by
    rw [Memory.workV, Memory.workV, f1.work (by omega)]
  rcases (show o = 0 ∨ o = 1 by omega) with rfl | rfl
  · rw [show 2 * k + 0 = 0 + 2 * k by omega, f2.work (by omega), v1 k hk]
    simp
  · rw [show 2 * k + 1 = 1 + 2 * k by omega, v2 k hk]
    simp only [hv]
    simp [Nat.add_comm]

theorem dcrBody_unwritten {s : State} (h : ¬s.mem.workWritten (2 * (s.wlenN / 2))) : dcrBody s = none := by
  have h0 : s.wlenN / 2 ≠ 0 := fun e => h (by rw [e]; intro j hj; omega)
  simp only [dcrBody, if_neg h0]
  by_cases hw : ∀ k < s.wlenN / 2, (s.mem.work (0 + 2 * k)).isSome
  · obtain ⟨m1, e1, f1, -⟩ := dcrStream_written hw
    have hu : ¬∀ k < s.wlenN / 2, (m1.work (1 + 2 * k)).isSome := fun h1 =>
      h (workWritten_of_streams hw fun k hk => by rw [← f1.work (j := 1 + 2 * k) (by omega)]; exact h1 k hk)
    simp only [e1, dcrStream_unwritten hu]
  · simp only [dcrStream_unwritten hw]

/-! ## BOXCAR -/

/-- A group's sum, as BOXCAR wraps it (R150). -/
theorem boxSums_range (d g : Nat) (f : Nat → Sample) :
    boxSums d g ((List.range (g * d)).map f) =
      (List.range g).map fun m => wrap16 (∑ r ∈ Finset.range d, (f (m * d + r)).toInt) := by
  apply List.ext_getElem
  · simp [boxSums]
  intro m hm _
  have hg : m < g := by simpa [boxSums] using hm
  simp only [boxSums, List.getElem_map, blocks_getElem, List.getElem_range, sumSamples]
  congr 1
  rw [← sum_range_map]
  congr 1
  have hl : m * d + d ≤ g * d := by rw [← Nat.succ_mul]; exact Nat.mul_le_mul_right d hg
  apply List.ext_getElem
  · rw [Nat.mul_comm g d] at *
    simp only [List.length_map, List.length_take, List.length_drop, List.length_range]
    rw [Nat.mul_comm d m]; omega
  intro r h1 h2
  simp [Nat.mul_comm d m]

/-- BOXCAR's body when D ≥ 2 and the complete groups are written (R150). -/
theorem boxcarBody_written {s : State} (hd : 2 ≤ s.dsD) (h : s.mem.workWritten (2 * (s.wlenN / 2 / s.dsD * s.dsD))) :
    ∃ m, boxcarBody s = some ((s.withMem m).withWlen (2 * (s.wlenN / 2 / s.dsD))) ∧
      SameOutside s.mem m (workAddr 0) (2 * s.wlenN) ∧
      (∀ o < 2, ∀ k < s.wlenN / 2 / s.dsD, m.work (2 * k + o) =
        some (wrap16 (∑ r ∈ Finset.range s.dsD, s.mem.workV (2 * (k * s.dsD + r) + o)))) ∧
      ∀ j, 2 * (s.wlenN / 2 / s.dsD) ≤ j → j < s.wlenN → m.work j = some 0 := by
  have h1 : s.dsD ≠ 1 := by omega
  have hgd : s.wlenN / 2 / s.dsD * s.dsD ≤ s.wlenN / 2 := Nat.div_mul_le_self _ _
  have hg : s.wlenN / 2 / s.dsD ≤ s.wlenN / 2 := Nat.div_le_self _ _
  simp only [boxcarBody, if_neg h1, Memory.stream]
  generalize s.wlenN / 2 / s.dsD = g at *
  rw [gather_written (0 : Sample) (workWritten_stream (o := 0) h (by omega) le_rfl),
    gather_written (0 : Sample) (workWritten_stream (o := 1) h (by omega) le_rfl)]
  simp only [boxSums_range]
  set z := s.mem.setWork (List.replicate s.wlenN 0)
  obtain ⟨v0, f0⟩ := setStream_map z 0 g fun m =>
    wrap16 (∑ r ∈ Finset.range s.dsD, ((s.mem.work (0 + 2 * (m * s.dsD + r))).getD 0).toInt)
  set z0 := z.setStream 0 ((List.range g).map fun m =>
    wrap16 (∑ r ∈ Finset.range s.dsD, ((s.mem.work (0 + 2 * (m * s.dsD + r))).getD 0).toInt))
  obtain ⟨v1, f1⟩ := setStream_map z0 1 g fun m =>
    wrap16 (∑ r ∈ Finset.range s.dsD, ((s.mem.work (1 + 2 * (m * s.dsD + r))).getD 0).toInt)
  refine ⟨_, rfl, ?_, fun o ho k hk => ?_, fun j h1 h2 => ?_⟩
  · refine SameOutside.trans (m' := z) (fun x hx => ?_) (f0.same f1 (by omega))
    exact Memory.read_setWork_outside _ _ (by simpa using hx)
  · rcases (show o = 0 ∨ o = 1 by omega) with rfl | rfl
    · rw [show 2 * k + 0 = 0 + 2 * k by omega, f1.work (by omega), v0 k hk]
      simp [Memory.workV]
    · rw [show 2 * k + 1 = 1 + 2 * k by omega, v1 k hk]
      simp [Memory.workV, Nat.add_comm]
  · rw [f1.work (by omega), f0.work (by omega), Memory.work_setWork, dif_pos (by simpa using h2)]
    simp

theorem boxcarBody_one {s : State} (hd : s.dsD = 1) : boxcarBody s = some s := by simp [boxcarBody, hd]

theorem boxcarBody_unwritten {s : State} (hd : s.dsD ≠ 1) (h : ¬s.mem.workWritten (2 * (s.wlenN / 2 / s.dsD * s.dsD))) :
    boxcarBody s = none := by
  simp only [boxcarBody, if_neg hd, Memory.stream]
  by_cases h0 : ∀ k < s.wlenN / 2 / s.dsD * s.dsD, (s.mem.work (0 + 2 * k)).isSome
  · have h1 : ¬∀ k < s.wlenN / 2 / s.dsD * s.dsD, (s.mem.work (1 + 2 * k)).isSome := fun h1 =>
      h (workWritten_of_streams h0 h1)
    rw [gather_unwritten h1]
    split
    · simp_all
    · rfl
  · rw [gather_unwritten h0]

/-! ## COMP -/

/-- One stream of COMP (R170). -/
theorem compStream_written {c : Nat → Int} {m : Memory} {o n : Nat} (h : ∀ k < n, (m.work (o + 2 * k)).isSome) :
    ∃ m', compStream c o n m = some m' ∧ StreamFrame m m' o n ∧
      (∀ k < n, k < 18 → m'.work (o + 2 * k) = m.work (o + 2 * k)) ∧
      ∀ k < n, 18 ≤ k → m'.work (o + 2 * k) =
        some (wrap16 (asr (∑ t ∈ Finset.range 9, c t * m.workV (o + 2 * (k - 9 + t))) 15)) := by
  simp only [compStream, Memory.stream, gather_written (0 : Sample) h, compFilter, List.length_map, List.length_range]
  obtain ⟨v, f⟩ := setStream_map m o n fun k =>
    if k < compSkip then ((List.range n).map fun i => (m.work (o + 2 * i)).getD 0).getD k 0
    else compOut c ((List.range n).map fun i => (m.work (o + 2 * i)).getD 0) k
  refine ⟨_, rfl, f, fun k hk h18 => ?_, fun k hk h18 => ?_⟩
  · obtain ⟨x, hx⟩ := Option.isSome_iff_exists.1 (h k hk)
    rw [v k hk, if_pos (by simpa [compSkip] using h18)]
    simp [hk, hx]
  · rw [v k hk, if_neg (by simpa [compSkip] using h18)]
    simp only [compOut, sum_range_map]
    congr 3
    refine Finset.sum_congr rfl fun t ht => ?_
    have ht : t < 9 := by simpa using ht
    rw [Memory.workV]
    congr 2
    simp [show k - 9 + t < n by omega]

theorem compStream_unwritten {c : Nat → Int} {m : Memory} {o n : Nat} (h : ¬∀ k < n, (m.work (o + 2 * k)).isSome) :
    compStream c o n m = none := by
  simp only [compStream, Memory.stream, gather_unwritten h]

/-- COMP's body outside the table (R172). -/
theorem compBody_skipped {s : State} (h : s.passes < 1 ∨ s.params.compTable.length < s.passes) :
    compBody s = some (s.flag .compskip) := by
  have h' : s.passes < 1 ∨ s.compTableMax < s.passes := h
  simp only [compBody, if_pos h']

/-- COMP's body when its row is in the table and WORK is written (R170). -/
theorem compBody_written {s : State} (h1 : 1 ≤ s.passes) (h2 : s.passes ≤ s.params.compTable.length)
    (h : s.mem.workWritten (2 * (s.wlenN / 2))) :
    ∃ m, compBody s = some (s.withMem m) ∧ SameOutside s.mem m (workAddr 0) (2 * (2 * (s.wlenN / 2))) ∧
      (∀ o < 2, ∀ k < s.wlenN / 2, k < 18 → m.work (2 * k + o) = s.mem.work (2 * k + o)) ∧
      ∀ o < 2, ∀ k < s.wlenN / 2, 18 ≤ k → m.work (2 * k + o) = some (wrap16 (asr
        (∑ t ∈ Finset.range 9, Params.ctab s.params s.passes t * s.mem.workV (2 * (k - 9 + t) + o)) 15)) := by
  have hn : ¬(s.passes < 1 ∨ s.compTableMax < s.passes) := by simp only [State.compTableMax]; omega
  simp only [compBody, if_neg hn]
  generalize s.wlenN / 2 = n at *
  obtain ⟨m1, e1, f1, u1, v1⟩ := compStream_written (c := Params.ctab s.params s.passes)
    (workWritten_stream (o := 0) h (by omega) le_rfl)
  have hw : ∀ k < n, (m1.work (1 + 2 * k)).isSome := fun k hk => by
    rw [f1.work (by omega)]; exact workWritten_stream (o := 1) h (by omega) le_rfl k hk
  obtain ⟨m2, e2, f2, u2, v2⟩ := compStream_written (c := Params.ctab s.params s.passes) hw
  have hv : ∀ i, m1.workV (1 + 2 * i) = s.mem.workV (1 + 2 * i) := fun i => by
    rw [Memory.workV, Memory.workV, f1.work (by omega)]
  refine ⟨m2, by simp only [e1, e2], f1.same f2 le_rfl, fun o ho k hk h18 => ?_, fun o ho k hk h18 => ?_⟩
  · rcases (show o = 0 ∨ o = 1 by omega) with rfl | rfl
    · rw [show 2 * k + 0 = 0 + 2 * k by omega, f2.work (by omega), u1 k hk h18]
    · rw [show 2 * k + 1 = 1 + 2 * k by omega, u2 k hk h18, f1.work (by omega)]
  · rcases (show o = 0 ∨ o = 1 by omega) with rfl | rfl
    · rw [show 2 * k + 0 = 0 + 2 * k by omega, f2.work (by omega), v1 k hk h18]
      simp
    · rw [show 2 * k + 1 = 1 + 2 * k by omega, v2 k hk h18]
      simp only [hv]
      simp [Nat.add_comm]

theorem compBody_unwritten {s : State} (h1 : 1 ≤ s.passes) (h2 : s.passes ≤ s.params.compTable.length)
    (h : ¬s.mem.workWritten (2 * (s.wlenN / 2))) : compBody s = none := by
  have hn : ¬(s.passes < 1 ∨ s.compTableMax < s.passes) := by simp only [State.compTableMax]; omega
  simp only [compBody, if_neg hn]
  by_cases hw : ∀ k < s.wlenN / 2, (s.mem.work (0 + 2 * k)).isSome
  · obtain ⟨m1, e1, f1, -⟩ := compStream_written (c := Params.ctab s.params s.passes) hw
    have hu : ¬∀ k < s.wlenN / 2, (m1.work (1 + 2 * k)).isSome := fun h1 =>
      h (workWritten_of_streams hw fun k hk => by rw [← f1.work (j := 1 + 2 * k) (by omega)]; exact h1 k hk)
    simp only [e1, compStream_unwritten hu]
  · simp only [compStream_unwritten hw]

/-! ## RDEC -/

/-- The registers of STAGE after output j + 2 (R161). -/
def tapsAt (x : Nat → Int) : Nat → Taps
  | 0 => ⟨x 0, x 1, x 2, x 3, x 4, x 5⟩
  | 1 => ⟨x 2, x 3, x 4, x 5, x 5, x 6⟩
  | 2 => ⟨x 4, x 5, x 5, x 6, x 7, x 8⟩
  | j + 3 => ⟨x (2 * j + 5), x (2 * j + 6), x (2 * j + 7), x (2 * j + 8), x (2 * j + 9), x (2 * j + 10)⟩

theorem tapsAt_succ (x : Nat → Int) (j : Nat) :
    tapsAt x (j + 1) = ⟨(tapsAt x j).c, (tapsAt x j).d, (tapsAt x j).e, (tapsAt x j).f, x (2 * j + 5), x (2 * j + 6)⟩ := by
  rcases j with _ | _ | _ | j
  · rfl
  · rfl
  · rfl
  · simp only [tapsAt]
    rfl

/-- An output after the bootstrap is the half-band response of R163. -/
theorem stageTap_tapsAt (x : Nat → Int) (j : Nat) : stageTap (tapsAt x (j + 1)) = halfBand x (j + 3) := by
  rcases j with _ | _ | j
  · simp only [tapsAt, stageTap, halfBand]; congr 1; ring
  · simp only [tapsAt, stageTap, halfBand]; congr 1; ring
  · simp only [tapsAt, stageTap, halfBand]; congr 1; ring

theorem range_two_map {α : Type} (f : Nat → α) (q : Nat) :
    (List.range (2 * (q + 1))).map f = f 0 :: f 1 :: (List.range (2 * q)).map fun i => f (i + 2) := by
  rw [show 2 * (q + 1) = 2 * q + 1 + 1 by omega, List.range_succ_eq_map, List.range_succ_eq_map]
  simp [Function.comp_def]

theorem stageSteady_range (x : Nat → Int) (q j : Nat) :
    stageSteady (tapsAt x j) ((List.range (2 * q)).map fun i => x (2 * j + 5 + i)) =
      (List.range q).map fun i => halfBand x (j + 3 + i) := by
  induction q generalizing j with
  | zero => simp [stageSteady]
  | succ q ih =>
    have ih := ih (j + 1)
    rw [tapsAt_succ] at ih
    rw [range_two_map, List.range_succ_eq_map, List.map_cons, List.map_map, stageSteady]
    congr 1
    · rw [← stageTap_tapsAt, tapsAt_succ]
    · refine Eq.trans ?_ (ih.trans ?_)
      · congr 1
        refine List.map_congr_left fun i _ => ?_
        congr 1; omega
      · refine List.map_congr_left fun i _ => ?_
        simp only [Function.comp_apply]
        congr 1; omega

/-- The K outputs of STAGE are the half-band response of R163. -/
theorem stageOut_range (x : Nat → Int) {k : Nat} (hk : 3 ≤ k) :
    (stageOut ((List.range (stageReads k)).map x)).take k = (List.range k).map (halfBand x) := by
  obtain ⟨q, hq⟩ : ∃ q, k = q + 3 := ⟨k - 3, by omega⟩
  have h6 : ∀ r, (List.range (6 + r)).map x = x 0 :: x 1 :: x 2 :: x 3 :: x 4 :: x 5 :: (List.range r).map fun i => x (6 + i) := by
    intro r
    rw [List.range_add, List.map_append, List.map_map]
    rfl
  have hb : stageBoot (tapsAt x 0) = (List.range 3).map (halfBand x) := by
    have e0 : asr (10 * (x 0 + x 1) + 5 * (x 2 + x 3) + x 3 + x 5) 4 = halfBand x 0 := by
      simp only [halfBand]; congr 1; ring
    have e1 : asr (10 * (x 1 + x 2) + 5 * (x 0 + x 3) + x 4 + x 5) 4 = halfBand x 1 := by
      simp only [halfBand]; congr 1; ring
    have e2 : asr (x 0 + 5 * (x 1 + x 4) + 10 * (x 2 + x 3) + x 5) 4 = halfBand x 2 := by
      simp only [halfBand]; congr 1; ring
    simp only [stageBoot, tapsAt, stageTap, e0, e1, e2]
    rfl
  rcases q with _ | q
  · subst hq
    rw [show stageReads (0 + 3) = 6 + 0 from rfl, h6]
    simp only [stageOut, List.range_zero, List.map_nil, stageSteady, List.append_nil]
    exact hb
  · rw [show stageReads k = 6 + (2 * q + 1) by simp only [stageReads]; omega, h6, stageOut]
    have hs : x 5 :: (List.range (2 * q + 1)).map (fun i => x (6 + i)) =
        (List.range (2 * (q + 1))).map fun i => x (2 * 0 + 5 + i) := by
      rw [show 2 * (q + 1) = 2 * q + 1 + 1 by omega, List.range_succ_eq_map (n := 2 * q + 1)]
      simp only [List.map_cons, List.map_map]
      congr 1
      refine List.map_congr_left fun i _ => ?_
      simp only [Function.comp_apply]
      congr 1; omega
    rw [hs]
    have h := stageSteady_range x (q + 1) 0
    have ht : (⟨x 0, x 1, x 2, x 3, x 4, x 5⟩ : Taps) = tapsAt x 0 := rfl
    simp only [ht, h, hb]
    rw [List.take_of_length_le (by simp; omega), hq]
    have h3 := (List.range_add (n := 3) (m := q + 1))
    rw [show q + 1 + 3 = 3 + (q + 1) by omega, h3, List.map_append, List.map_map]
    congr 1

/-- One stage on one stream (R161): K outputs, when the samples it reads are written. -/
theorem stage_written {m : Memory} {o lim k : Nat} (hk : stageCount lim = k) (h : ∀ i < stageReads k, (m.work (o + 2 * i)).isSome) :
    ∃ m', stage o lim m = some m' ∧ StreamFrame m m' o k ∧
      ∀ i < k, m'.work (o + 2 * i) = some (wrap16 (halfBand (fun i => m.workV (o + 2 * i)) i)) := by
  have h3 : 3 ≤ k := by rw [← hk]; exact le_max_left _ _
  simp only [stage, hk, Memory.stream, gather_written (0 : Sample) h]
  rw [streamList_toInt, stageOut_range _ h3, List.map_map]
  obtain ⟨v, f⟩ := setStream_map m o k fun i => wrap16 (halfBand (fun i => m.workV (o + 2 * i)) i)
  exact ⟨_, rfl, f, v⟩

theorem stage_unwritten {m : Memory} {o lim k : Nat} (hk : stageCount lim = k)
    (h : ¬∀ i < stageReads k, (m.work (o + 2 * i)).isSome) : stage o lim m = none := by
  simp only [stage, hk, Memory.stream, gather_unwritten h]

/-- One pass on both streams of a length 4K (R160, R164). -/
theorem pass_written {m : Memory} {k : Nat} (h3 : 3 ≤ k) (h : m.workWritten (2 * stageReads k)) :
    ∃ m' m'', stage 0 (4 * k) m = some m' ∧ stage 1 (4 * k - 1) m' = some m'' ∧
      SameOutside m m'' (workAddr 0) (2 * (2 * k)) ∧
      ∀ o < 2, ∀ i < k, m''.work (2 * i + o) = some (wrap16 (halfBand (fun i => m.workV (2 * i + o)) i)) := by
  obtain ⟨m1, e1, f1, v1⟩ := stage_written (o := 0) (lim := 4 * k) (k := k) (by simp only [stageCount]; omega)
    (workWritten_stream (o := 0) h (by omega) le_rfl)
  obtain ⟨m2, e2, f2, v2⟩ := stage_written (m := m1) (o := 1) (lim := 4 * k - 1) (k := k) (by simp only [stageCount]; omega)
    (fun i hi => by rw [f1.work (by omega)]; exact workWritten_stream (o := 1) h (by omega) le_rfl i hi)
  refine ⟨m1, m2, e1, e2, f1.same f2 le_rfl, fun o ho i hi => ?_⟩
  rcases (show o = 0 ∨ o = 1 by omega) with rfl | rfl
  · rw [show 2 * i + 0 = 0 + 2 * i by omega, f2.work (by omega), v1 i hi]
    simp
  · rw [show 2 * i + 1 = 1 + 2 * i by omega, v2 i hi]
    have hv : ∀ i, m1.workV (1 + 2 * i) = m.workV (1 + 2 * i) := fun i => by
      rw [Memory.workV, Memory.workV, f1.work (by omega)]
    simp only [hv]
    simp [Nat.add_comm]

theorem pass_unwritten {m : Memory} {k : Nat} (h3 : 3 ≤ k) (h : ¬m.workWritten (2 * stageReads k)) :
    (match stage 0 (4 * k) m with
      | none => none
      | some m' => stage 1 (4 * k - 1) m') = none := by
  by_cases h0 : ∀ i < stageReads k, (m.work (0 + 2 * i)).isSome
  · obtain ⟨m1, e1, f1, -⟩ := stage_written (o := 0) (lim := 4 * k) (k := k) (by simp only [stageCount]; omega) h0
    simp only [e1]
    refine stage_unwritten (k := k) (by simp only [stageCount]; omega) fun h1 => h (workWritten_of_streams h0 fun i hi => ?_)
    rw [← f1.work (j := 1 + 2 * i) (by omega)]
    exact h1 i hi
  · simp only [stage_unwritten (k := k) (o := 0) (lim := 4 * k) (by simp only [stageCount]; omega) h0]

/-- The k-th output of a pass needs the samples below 2K alone, for K ≥ 3 outputs (R163). -/
theorem halfBand_congr {x y : Nat → Int} {n : Nat} (hn : 3 ≤ n) (h : ∀ i < 2 * n, x i = y i) {k : Nat} (hk : k < n) :
    halfBand x k = halfBand y k := by
  have g : ∀ i, i < 2 * n → x i = y i := h
  rcases k with _ | _ | _ | _ | _ | k <;> simp only [halfBand]
  · rw [g 0 (by omega), g 1 (by omega), g 2 (by omega), g 3 (by omega), g 5 (by omega)]
  · rw [g 0 (by omega), g 1 (by omega), g 2 (by omega), g 3 (by omega), g 4 (by omega), g 5 (by omega)]
  · rw [g 0 (by omega), g 1 (by omega), g 2 (by omega), g 3 (by omega), g 4 (by omega), g 5 (by omega)]
  · rw [g 2 (by omega), g 3 (by omega), g 4 (by omega), g 5 (by omega), g 6 (by omega)]
  · rw [g 4 (by omega), g 5 (by omega), g 6 (by omega), g 7 (by omega), g 8 (by omega)]
  · rw [g (2 * k + 5) (by omega), g (2 * k + 6) (by omega), g (2 * k + 7) (by omega), g (2 * k + 8) (by omega),
      g (2 * k + 9) (by omega), g (2 * k + 10) (by omega)]

/-- The passes after the first are the passes of the first one's outputs. -/
theorem passes_succ (x : Nat → Int) (p : Nat) : passes x (p + 1) = passes (passes x 1) p := by
  induction p with
  | zero => rfl
  | succ p ih => funext k; rw [passes, ih]; rfl

theorem passes_congr {x y : Nat → Int} {n p : Nat} (hn : 3 ≤ n) (h : ∀ i < 2 ^ p * n, x i = y i) {k : Nat} (hk : k < n) :
    passes x p k = passes y p k := by
  induction p generalizing n k with
  | zero => exact h k (by simpa using hk)
  | succ p ih =>
    simp only [passes]
    rw [halfBand_congr hn (fun i hi => ih (n := 2 * n) (by omega) (fun i hi => h i (by rw [pow_succ, mul_assoc]; exact hi)) hi) hk]

/-- The passes of RDEC (R160, R161, R163), on a length of which every pass's share is a multiple of 4 and at least 12 (R164). -/
theorem rdecPasses_written (l : Nat) (count j : Nat) (m : Memory) (hl : ∀ i < count, l / 2 ^ (j + i) % 4 = 0 ∧ 12 ≤ l / 2 ^ (j + i))
    (h : 1 ≤ count → m.workWritten (2 * stageReads (l / 2 ^ (j + 2)))) :
    ∃ m', rdecPasses l count j m = some m' ∧ SameOutside m m' (workAddr 0) (2 * (l / 2 ^ (j + 1))) ∧
      ∀ o < 2, ∀ p, 1 ≤ p → p ≤ count → ∀ k < l / 2 ^ (j + p + 1), p = count ∨ l / 2 ^ (j + p + 2) ≤ k →
        ∃ x : Sample, m'.work (2 * k + o) = some x ∧ x.toInt = passes (fun i => m.workV (2 * i + o)) p k := by
  have hdiv : ∀ a, l / 2 ^ (a + 1) = l / 2 ^ a / 2 := fun a => by rw [pow_succ, Nat.div_div_eq_div_mul]
  induction count generalizing j m with
  | zero => exact ⟨m, rfl, SameOutside.refl _ _ _, fun o _ p h1 h2 => by omega⟩
  | succ count ih =>
    have hl0 := hl 0 (by omega)
    have d1 := hdiv j
    have d2 := hdiv (j + 1)
    rw [Nat.add_zero] at hl0
    rw [show j + 1 + 1 = j + 2 by omega] at d2
    generalize hk : l / 2 ^ (j + 2) = k at *
    have h4 : l / 2 ^ j = 4 * k := by omega
    obtain ⟨m1, m2, e1, e2, f, v⟩ := pass_written (m := m) (k := k) (by omega) (h (by omega))
    obtain ⟨m', e', f', v'⟩ := ih (j + 1) m2
      (fun i hi => by have := hl (i + 1) (by omega); rwa [show j + (i + 1) = j + 1 + i by omega] at this)
      (fun h1 i hi => by
        have d3 := hdiv (j + 2)
        have hl1 := hl 1 (by omega)
        rw [show j + 1 + 2 = j + 2 + 1 by omega, d3, hk] at hi
        obtain ⟨c, rfl | rfl⟩ := Nat.even_or_odd' i
        · have := v 0 (by omega) c (by simp only [stageReads] at hi; omega)
          simp only [Nat.add_zero] at this
          simp [this]
        · have := v 1 (by omega) c (by simp only [stageReads] at hi; omega)
          simp [this])
    rw [show j + 1 + 1 = j + 2 by omega, hk] at f'
    refine ⟨m', ?_, ?_, fun o ho p h1 h2 i hi hs => ?_⟩
    · simp only [rdecPasses, h4, e1, e2, e']
    · refine SameOutside.trans (m' := m2) ?_ (f'.mono (by omega))
      rw [d1, h4]
      exact f.mono (by omega)
    · rcases Nat.lt_or_ge 1 p with hp | hp
      · obtain ⟨q, rfl⟩ : ∃ q, p = q + 1 := ⟨p - 1, by omega⟩
        obtain ⟨x, hx, hx'⟩ := v' o ho q (by omega) (by omega) i
          (by rwa [show j + 1 + q + 1 = j + (q + 1) + 1 by omega])
          (by rw [show j + 1 + q + 2 = j + (q + 1) + 2 by omega]; omega)
        refine ⟨x, hx, hx'.trans ?_⟩
        rw [passes_succ]
        have hq := hl q (by omega)
        have e3 := hdiv (j + q)
        have e4 := hdiv (j + q + 1)
        refine passes_congr (n := l / 2 ^ (j + (q + 1) + 1)) ?_ (fun c hc => ?_) hi
        · rw [show j + (q + 1) + 1 = j + q + 1 + 1 by omega]; omega
        · have hck : c < k := by
            refine lt_of_lt_of_le hc ?_
            rw [← hk, show j + (q + 1) + 1 = j + 2 + q by omega, pow_add, ← Nat.div_div_eq_div_mul, Nat.mul_comm]
            exact Nat.div_mul_le_self _ _
          rw [Memory.workV, v o ho c hck]
          rfl
      · obtain rfl : p = 1 := by omega
        rw [show j + 1 + 1 = j + 2 by omega, hk] at hi
        have : m'.work (2 * i + o) = m2.work (2 * i + o) := by
          rcases Nat.eq_zero_or_pos count with hc | hc
          · subst hc
            simp only [rdecPasses, Option.some.injEq] at e'
            rw [e']
          · refine f'.work ?_
            have d3 := hdiv (j + 2)
            have h1 := (hl 1 (by omega)).1
            rcases hs with hs | hs
            · omega
            · rw [show j + 1 + 2 = j + 2 + 1 by omega, d3, hk] at hs
              omega
        rw [this, v o ho i hi]
        exact ⟨_, rfl, rfl⟩

/-- The length checks of RDEC and RUN, pass by pass (R164). -/
theorem recursive_lengths {l p : Nat} (hp : 1 ≤ p) (h : l % 2 ^ (p + 1) = 0 ∧ 12 ≤ l / 2 ^ (p - 1)) :
    ∀ i < p, l / 2 ^ i % 4 = 0 ∧ 12 ≤ l / 2 ^ i := by
  intro i hi
  constructor
  · obtain ⟨c, hc⟩ := Nat.dvd_of_mod_eq_zero h.1
    have e : 2 ^ (p + 1) * c = 2 ^ i * (4 * (2 ^ (p - 1 - i) * c)) := by
      rw [show p + 1 = i + 2 + (p - 1 - i) by omega, pow_add, pow_add]; ring
    rw [hc, e, Nat.mul_div_cancel_left _ (by positivity)]
    exact Nat.mul_mod_right _ _
  · refine le_trans h.2 (Nat.div_le_div_left (Nat.pow_le_pow_right (by omega) (by omega)) (by positivity))

/-- The samples RDEC's first pass reads, as a range of cells. -/
theorem two_stageReads {l : Nat} (h : l % 4 = 0) (h12 : 12 ≤ l) : 2 * stageReads (l / 4) = max 12 (l - 2) := by
  simp only [stageReads]; omega

/-- RDEC's body when P ≥ 1, its length checks hold and the samples its first pass names are written (R160). -/
theorem rdecBody_written {s : State} (hp : 1 ≤ s.passes) (hr : s.RecursiveOk s.wlenN)
    (h : s.mem.workWritten (max 12 (s.wlenN - 2))) :
    ∃ m, rdecBody s = some ((s.withMem m).withWlen (s.wlenN / 2 ^ s.passes)) ∧
      SameOutside s.mem m (workAddr 0) (2 * (s.wlenN / 2)) ∧
      ∀ o < 2, ∀ p, 1 ≤ p → p ≤ s.passes → ∀ k < s.wlenN / 2 ^ (p + 1), p = s.passes ∨ s.wlenN / 2 ^ (p + 2) ≤ k →
        ∃ x : Sample, m.work (2 * k + o) = some x ∧ x.toInt = passes (fun i => s.mem.workV (2 * i + o)) p k := by
  have hl := recursive_lengths hp (hr hp)
  have hl0 := hl 0 (by omega)
  rw [pow_zero, Nat.div_one] at hl0
  obtain ⟨m, e, f, v⟩ := rdecPasses_written s.wlenN s.passes 0 s.mem (by simpa using hl)
    (fun _ => by rw [show 2 ^ (0 + 2) = 4 from rfl, two_stageReads hl0.1 hl0.2]; exact h)
  refine ⟨m, by simp only [rdecBody, e], by simpa using f, fun o ho p h1 h2 k hk hs => ?_⟩
  exact v o ho p h1 h2 k (by simpa using hk) (by simpa using hs)

theorem rdecBody_zero {s : State} (hp : s.passes = 0) : rdecBody s = some s := by
  have : (s.withMem s.mem).withWlen s.wlenN = s := by
    simp only [State.withMem, State.withWlen, State.wlenN, BitVec.ofNat_toNat, BitVec.setWidth_eq]
  simp only [rdecBody, hp, rdecPasses, pow_zero, Nat.div_one, this]

theorem rdecBody_unwritten {s : State} (hp : 1 ≤ s.passes) (hr : s.RecursiveOk s.wlenN)
    (h : ¬s.mem.workWritten (max 12 (s.wlenN - 2))) : rdecBody s = none := by
  have hl0 := recursive_lengths hp (hr hp) 0 (by omega)
  rw [pow_zero, Nat.div_one] at hl0
  rw [← two_stageReads hl0.1 hl0.2] at h
  have hu := pass_unwritten (m := s.mem) (k := s.wlenN / 4) (by omega) h
  rw [show 4 * (s.wlenN / 4) = s.wlenN by omega] at hu
  obtain ⟨q, hq⟩ : ∃ q, s.passes = q + 1 := ⟨s.passes - 1, by omega⟩
  simp only [rdecBody, hq, rdecPasses, pow_zero, Nat.div_one]
  split at hu
  · next h0 => simp only [h0]
  · next m' h0 => simp only [h0, hu]

end Sys2Proof.Machine
end

