-- ==== Sys2Proof/Laws/Spectral.lean ====
section
/-! SUPPORT. What the bodies of the spectral commands do to the cells (41_spectral), in the terms of Safety.lean. -/

namespace Sys2Proof.Machine

/-! ## Blocks of pairs -/

/-- The pairs of the full blocks, when they are written. -/
theorem pairs_written {m : Memory} {n : Nat} (h : m.workWritten (2 * n)) :
    m.pairs n = some ((List.range n).map (workPair m)) := by
  have hs : ∀ k < n, (match m.work (2 * k), m.work (2 * k + 1) with
      | some i, some q => some (i, q)
      | _, _ => none) = some (workPair m k) := fun k hk => by
    obtain ⟨i, hi⟩ := Option.isSome_iff_exists.1 (h (2 * k) (by omega))
    obtain ⟨q, hq⟩ := Option.isSome_iff_exists.1 (h (2 * k + 1) (by omega))
    simp [hi, hq, workPair]
  rw [Memory.pairs, gather_eq_some]
  refine ⟨by simp, fun k hk => ?_⟩
  rw [Nat.zero_add]
  exact (hs k hk).trans (by simp [hk])

theorem pairs_unwritten {m : Memory} {n : Nat} (h : ¬m.workWritten (2 * n)) : m.pairs n = none := by
  rw [Memory.pairs]
  refine gather_unwritten fun hp => h (workWritten_of_streams (fun k hk => ?_) fun k hk => ?_)
  · have := hp k hk
    split at this
    · next i q hi hq => simp [hi]
    · simp at this
  · have := hp k hk
    split at this
    · next i q hi hq => simp [hq, Nat.add_comm 1]
    · simp at this

/-- Block c of the pairs of b blocks of n. -/
theorem blocks_range {α : Type} (n b : Nat) (f : Nat → α) :
    blocks n b ((List.range (n * b)).map f) = (List.range b).map fun c => (List.range n).map fun j => f (n * c + j) := by
  apply List.ext_getElem
  · simp
  intro c hc _
  have hb : c < b := by simpa using hc
  have hl : n * c + n ≤ n * b := by rw [← Nat.mul_succ]; exact Nat.mul_le_mul_left n hb
  rw [blocks_getElem]
  simp only [List.getElem_map, List.getElem_range]
  apply List.ext_getElem
  · simp; omega
  intro j h1 h2
  simp

/-- A list of b rows of n, flattened: row c's entry j. -/
theorem flatMap_range_getElem {α : Type} (n b : Nat) (g : Nat → Nat → α) {c j : Nat} (hc : c < b) (hj : j < n) :
    ((List.range b).flatMap fun c => (List.range n).map (g c))[n * c + j]? = some (g c j) := by
  induction b with
  | zero => omega
  | succ b ih =>
    have hl : ((List.range b).flatMap fun c => (List.range n).map (g c)).length = n * b := by
      simp [List.length_flatMap, Nat.mul_comm]
    rw [List.range_succ, List.flatMap_append]
    rcases Nat.lt_or_ge c b with h | h
    · have : n * c + n ≤ n * b := by rw [← Nat.mul_succ]; exact Nat.mul_le_mul_left n h
      rw [List.getElem?_append_left (by rw [hl]; omega)]
      exact ih h
    · obtain rfl : c = b := by omega
      rw [List.getElem?_append_right (by rw [hl]; omega), hl]
      simp [hj]

theorem flatMap_range_length {α : Type} (n b : Nat) (g : Nat → Nat → α) :
    ((List.range b).flatMap fun c => (List.range n).map (g c)).length = n * b := by
  simp [List.length_flatMap, Nat.mul_comm]

/-- Pairs written from WORK[0] up: the two cells of each, and the frame. -/
theorem setPairs_spec (m : Memory) (ps : List Pair) :
    SameOutside m (m.setPairs ps) (workAddr 0) (2 * (2 * ps.length)) ∧
    ∀ k z, ps[k]? = some z → (m.setPairs ps).work (2 * k) = some z.1 ∧ (m.setPairs ps).work (2 * k + 1) = some z.2 := by
  constructor
  · intro x hx
    apply Memory.read_setWork_outside
    simpa using hx
  · intro k z hz
    have hk : k < ps.length := (List.getElem?_eq_some_iff.1 hz).1
    have h0 := interleave_even ps k
    have h1 := interleave_odd ps k
    rw [hz] at h0 h1
    simp only [Memory.setPairs, Memory.work_setWork]
    rw [dif_pos (by simp; omega), dif_pos (by simp; omega)]
    rw [List.getElem?_eq_getElem (by simp; omega)] at h0 h1
    exact ⟨h0, h1⟩

/-- The number of blocks is 0 exactly when WLEN < 2N. -/
theorem blockCount_zero (s : State) : s.blockCount = 0 ↔ s.wlenN < 2 * s.bins := by
  rw [State.blockCount, Nat.div_eq_zero_iff]
  have : 0 < s.bins := by simp [State.bins]
  omega

/-! ## WIN -/

theorem winBody_noblk {s : State} (h : s.blockCount = 0) : winBody s = some (s.flag .noblk) := by simp [winBody, h]

theorem winBody_written {s : State} (h : s.blockCount ≠ 0) (hw : s.mem.winWritten s.bins)
    (hp : s.mem.workWritten (2 * (s.bins * s.blockCount))) :
    ∃ m, winBody s = some (s.withMem m) ∧ SameOutside s.mem m (workAddr 0) (2 * (2 * (s.bins * s.blockCount))) ∧
      ∀ q < 2, ∀ c < s.blockCount, ∀ j < s.bins, m.work (2 * (s.bins * c + j) + q) =
        some (wrap16 (asr (s.mem.workV (2 * (s.bins * c + j) + q) * s.mem.winV j) s.winShift)) := by
  have hwn : s.mem.wins s.bins = some ((List.range s.bins).map fun j => (s.mem.win j).getD 0) :=
    gather_written (0 : Sample) hw
  have hr : (blocks s.bins s.blockCount ((List.range (s.bins * s.blockCount)).map (workPair s.mem))).flatMap
      (winBlock s.winShift ((List.range s.bins).map fun j => (s.mem.win j).getD 0)) =
      (List.range s.blockCount).flatMap fun c => (List.range s.bins).map fun j =>
        (winSample s.winShift (workPair s.mem (s.bins * c + j)).1 ((s.mem.win j).getD 0),
         winSample s.winShift (workPair s.mem (s.bins * c + j)).2 ((s.mem.win j).getD 0)) := by
    rw [blocks_range, List.flatMap_map]
    congr 1
    funext c
    simp only [winBlock, List.zipWith_map_left, List.zipWith_map_right, List.zipWith_self]
  simp only [winBody, if_neg h, hwn, pairs_written hp, hr]
  generalize hl : ((List.range s.blockCount).flatMap fun c => (List.range s.bins).map fun j =>
        (winSample s.winShift (workPair s.mem (s.bins * c + j)).1 ((s.mem.win j).getD 0),
         winSample s.winShift (workPair s.mem (s.bins * c + j)).2 ((s.mem.win j).getD 0))) = l
  obtain ⟨f, v⟩ := setPairs_spec s.mem l
  refine ⟨_, rfl, ?_, fun q hq c hc j hj => ?_⟩
  · rwa [show l.length = s.bins * s.blockCount by rw [← hl]; exact flatMap_range_length _ _ _] at f
  · have := v (s.bins * c + j) _ (by rw [← hl]; exact flatMap_range_getElem _ _ _ hc hj)
    rcases (show q = 0 ∨ q = 1 by omega) with rfl | rfl
    · rw [Nat.add_zero, this.1]; rfl
    · rw [this.2]; rfl

theorem winBody_unwritten {s : State} (h : s.blockCount ≠ 0)
    (hw : ¬(s.mem.winWritten s.bins ∧ s.mem.workWritten (2 * (s.bins * s.blockCount)))) : winBody s = none := by
  simp only [winBody, if_neg h]
  by_cases h1 : s.mem.winWritten s.bins
  · rw [pairs_unwritten fun h2 => hw ⟨h1, h2⟩]
    split
    · simp_all
    · rfl
  · have : s.mem.wins s.bins = none := gather_unwritten h1
    rw [this]

/-! ## XFORM -/

theorem xformBody_noblk {s : State} (h : s.blockCount = 0) : xformBody s = some (s.flag .noblk) := by simp [xformBody, h]

theorem xformBody_written {s : State} (h : s.blockCount ≠ 0) (hp : s.mem.workWritten (2 * (s.bins * s.blockCount))) :
    ∃ m, xformBody s = some (s.withMem m) ∧ SameOutside s.mem m (workAddr 0) (2 * (2 * (s.bins * s.blockCount))) ∧
      ∀ c < s.blockCount, ∀ k < s.bins,
        let z := Config.fftBin s.fftLog2 ((List.range s.bins).map fun i => workPair s.mem (s.bins * c + i)) k
        m.work (2 * (s.bins * c + k)) = some z.1 ∧ m.work (2 * (s.bins * c + k) + 1) = some z.2 := by
  have hr : (blocks s.bins s.blockCount ((List.range (s.bins * s.blockCount)).map (workPair s.mem))).flatMap
      (fftN s.fftLog2) = (List.range s.blockCount).flatMap fun c => (List.range s.bins).map
        (Config.fftBin s.fftLog2 ((List.range s.bins).map fun i => workPair s.mem (s.bins * c + i))) := by
    rw [blocks_range, List.flatMap_map]
    rfl
  simp only [xformBody, if_neg h, pairs_written hp, hr]
  generalize hl : ((List.range s.blockCount).flatMap fun c => (List.range s.bins).map
        (Config.fftBin s.fftLog2 ((List.range s.bins).map fun i => workPair s.mem (s.bins * c + i)))) = l
  obtain ⟨f, v⟩ := setPairs_spec s.mem l
  refine ⟨_, rfl, ?_, fun c hc k hk => ?_⟩
  · rwa [show l.length = s.bins * s.blockCount by rw [← hl]; exact flatMap_range_length _ _ _] at f
  · exact v (s.bins * c + k) _ (by rw [← hl]; exact flatMap_range_getElem _ _ _ hc hk)

theorem xformBody_unwritten {s : State} (h : s.blockCount ≠ 0) (hp : ¬s.mem.workWritten (2 * (s.bins * s.blockCount))) :
    xformBody s = none := by simp only [xformBody, if_neg h, pairs_unwritten hp]

/-! ## ACC -/

theorem accBody_noblk {s : State} (h : s.blockCount = 0) : accBody s = some (s.flag .noblk) := by simp [accBody, h]

theorem power_workPair (m : Memory) (k : Nat) : power (workPair m k) = workPower m k := by
  simp only [power, workPair, workPower, Memory.workV, sq]

/-- The accumulators after the first b blocks: bin j takes the powers of its column one after the other (R210). -/
theorem accFold (peak : Bool) (n b : Nat) (a : Nat → DWord) (p : Nat → Pair) :
    ((List.range b).map fun c => (List.range n).map fun j => p (n * c + j)).foldl (accBlock peak) ((List.range n).map a) =
      (List.range n).map fun j => (List.range b).foldl (fun x c => accumulate peak x (power (p (n * c + j)))) (a j) := by
  induction b with
  | zero => rfl
  | succ b ih =>
    rw [List.range_succ, List.map_append, List.foldl_append, ih]
    simp only [List.map_cons, List.map_nil, List.foldl_cons, List.foldl_nil, accBlock, List.zipWith_map_left,
      List.zipWith_map_right, List.zipWith_self, List.foldl_append]

theorem accumulate_sum (x : DWord) (b : Nat) (p : Nat → Nat) :
    ((List.range b).foldl (fun x c => accumulate false x (p c)) x).toNat = (x.toNat + ∑ c ∈ Finset.range b, p c) % 2 ^ 64 := by
  induction b with
  | zero => simp [Nat.mod_eq_of_lt x.isLt]
  | succ b ih =>
    rw [List.range_succ, List.foldl_append, Finset.sum_range_succ, List.foldl_cons, List.foldl_nil]
    generalize (List.range b).foldl (fun x c => accumulate false x (p c)) x = y at ih ⊢
    simp only [accumulate, Bool.false_eq_true, if_false, BitVec.toNat_ofNat, ih]
    omega

theorem accumulate_max (x : DWord) (b : Nat) (p : Nat → Nat) (hp : ∀ c < b, p c < 2 ^ 64) :
    ((List.range b).foldl (fun x c => accumulate true x (p c)) x).toNat = max x.toNat ((Finset.range b).sup p) := by
  induction b with
  | zero => simp
  | succ b ih =>
    rw [List.range_succ, List.foldl_append, Finset.range_add_one, Finset.sup_insert, List.foldl_cons, List.foldl_nil]
    have ih := ih fun c hc => hp c (by omega)
    generalize (List.range b).foldl (fun x c => accumulate true x (p c)) x = y at ih ⊢
    simp only [accumulate, if_true, BitVec.toNat_ofNat, ih]
    have h1 := hp b (by omega)
    have h2 : (Finset.range b).sup p < 2 ^ 64 := by
      rw [Finset.sup_lt_iff (by norm_num)]
      intro c hc
      exact hp c (by have : c < b := by simpa using hc
                     omega)
    have h3 := x.isLt
    simp only [max_def] at *
    split_ifs at * <;> omega

/-- R211: a power is at most 2^31. -/
theorem power_le (p : Pair) : power p ≤ 2 ^ 31 := by
  have h1 : p.1.toInt * p.1.toInt ≤ 2 ^ 30 := by
    have a := BitVec.toInt_lt (x := p.1); have b := BitVec.le_toInt p.1; norm_num at a b; nlinarith
  have h2 : p.2.toInt * p.2.toInt ≤ 2 ^ 30 := by
    have a := BitVec.toInt_lt (x := p.2); have b := BitVec.le_toInt p.2; norm_num at a b; nlinarith
  simp only [power]
  omega

/-- ACC's body when the full blocks are written (R210). -/
theorem accBody_written {s : State} (h : s.blockCount ≠ 0) (hp : s.mem.workWritten (2 * (s.bins * s.blockCount))) :
    ∃ m, accBody s = some ((s.withMem m).withPassCnt (BitVec.ofNat 32 (s.passCnt.toNat + s.blockCount * s.deff))) ∧
      SameOutside s.mem m (accAddr 0) (8 * s.bins) ∧
      ∀ j < s.bins, m.acc j = (List.range s.blockCount).foldl
        (fun x c => accumulate s.peak x (workPower s.mem (s.bins * c + j))) (s.mem.acc j) := by
  simp only [accBody, if_neg h, pairs_written hp, blocks_range, Memory.accs, accFold, power_workPair]
  refine ⟨_, rfl, fun x hx => ?_, fun j hj => ?_⟩
  · apply Memory.read_setAccs_outside
    simpa using hx
  · rw [Memory.acc_setAccs, dif_pos (by simpa using hj)]
    simp

theorem accBody_unwritten {s : State} (h : s.blockCount ≠ 0) (hp : ¬s.mem.workWritten (2 * (s.bins * s.blockCount))) :
    accBody s = none := by simp only [accBody, if_neg h, pairs_unwritten hp]

end Sys2Proof.Machine
end

