-- ==== Sys2Proof/Laws/Run.lean ====
section
/-! SUPPORT. RUN step by step (44_control R285, R287): what the state is after the conditioning steps and after the spectral ones. -/

namespace Sys2Proof.Machine

/-- u is s after some conditioning or spectral steps: WORK below LEN, WLEN and STATUS may differ, and the working buffer is written. -/
structure Conditioned (s u : State) : Prop where
  eq : u = { s with mem := u.mem, wlen := u.wlen, status := u.status }
  frame : SameOutside s.mem u.mem (workAddr 0) (2 * s.lenN)
  written : u.mem.workWritten u.wlenN
  even : u.wlenN % 2 = 0
  le : u.wlenN ≤ s.lenN

namespace Conditioned

theorem params {s u : State} (h : Conditioned s u) : u.params = s.params := by rw [h.eq]
theorem cfg {s u : State} (h : Conditioned s u) : u.cfg = s.cfg := by rw [h.eq]
theorem ds {s u : State} (h : Conditioned s u) : u.ds = s.ds := by rw [h.eq]
theorem passCnt {s u : State} (h : Conditioned s u) : u.passCnt = s.passCnt := by rw [h.eq]
theorem mode {s u : State} (h : Conditioned s u) : u.mode = s.mode := by simp only [State.mode, h.cfg]
theorem dsD {s u : State} (h : Conditioned s u) : u.dsD = s.dsD := by simp only [State.dsD, h.ds]
theorem passes {s u : State} (h : Conditioned s u) : u.passes = s.passes := by simp only [State.passes, h.cfg]
theorem compEn {s u : State} (h : Conditioned s u) : u.compEn = s.compEn := by simp only [State.compEn, h.cfg]
theorem fftLog2 {s u : State} (h : Conditioned s u) : u.fftLog2 = s.fftLog2 := by simp only [State.fftLog2, h.cfg]
theorem bins {s u : State} (h : Conditioned s u) : u.bins = s.bins := by simp only [State.bins, h.fftLog2]
theorem peak {s u : State} (h : Conditioned s u) : u.peak = s.peak := by simp only [State.peak, h.cfg]
theorem deff {s u : State} (h : Conditioned s u) : u.deff = s.deff := by simp only [State.deff, h.mode, h.dsD, h.passes]
theorem commonOk {s u : State} (h : Conditioned s u) : u.CommonOk ↔ s.CommonOk := by
  simp only [State.CommonOk, h.mode, h.fftLog2, h.params, h.dsD]

/-- A step that rewrites WORK below WLEN and keeps it written. -/
theorem withMem {s u : State} (h : Conditioned s u) {m : Memory} (f : SameOutside u.mem m (workAddr 0) (2 * u.wlenN))
    (w : m.workWritten u.wlenN) : Conditioned s (u.withMem m) :=
  ⟨by rw [h.eq]; rfl, h.frame.trans (f.mono (by have := h.le; omega)), w, h.even, h.le⟩

theorem flag {s u : State} (h : Conditioned s u) (f : Flag) : Conditioned s (u.flag f) :=
  ⟨by rw [h.eq]; rfl, h.frame, h.written, h.even, h.le⟩

end Conditioned

theorem wlenN_withWlen (s : State) {n : Nat} (h : n < 2 ^ 32) : (s.withWlen n).wlenN = n := by
  simp only [State.wlenN, State.withWlen_wlen, BitVec.toNat_ofNat, Nat.mod_eq_of_lt h]

theorem workWritten_of_pairs {m : Memory} {n : Nat} (h : ∀ o < 2, ∀ k < n, (m.work (2 * k + o)).isSome) :
    m.workWritten (2 * n) := by
  intro j hj
  obtain ⟨k, rfl | rfl⟩ := Nat.even_or_odd' j
  · exact h 0 (by omega) k (by omega)
  · exact h 1 (by omega) k (by omega)

/-- After CONV. -/
theorem conditioned_conv {s : State} (he : s.lenN % 2 = 0) (hr : s.mem.rawWritten s.lenN) :
    ∃ u, convBody s = some u ∧ Conditioned s u ∧ u.wlenN = s.lenN ∧ u.status = s.status := by
  obtain ⟨m, e, f, v⟩ := convBody_written hr
  have hw : ((s.withMem m).withWlen s.lenN).wlenN = s.lenN := wlenN_withWlen _ s.len.isLt
  refine ⟨_, e, ⟨rfl, f, ?_, ?_, ?_⟩, hw, rfl⟩
  · rw [hw]
    intro j hj
    obtain ⟨b, -, hb⟩ := v j hj
    simp [hb]
  · rw [hw]; exact he
  · rw [hw]

/-- After DCR. -/
theorem conditioned_dcr {s u : State} (h : Conditioned s u) :
    ∃ v, dcrBody u = some v ∧ Conditioned s v ∧ v.wlen = u.wlen ∧ v.status = u.status := by
  have he := h.even
  have e2 : 2 * (u.wlenN / 2) = u.wlenN := by omega
  obtain ⟨m, e, f, w⟩ := dcrBody_written (s := u) (by rw [e2]; exact h.written)
  refine ⟨_, e, h.withMem (f.mono (by omega)) ?_, rfl, rfl⟩
  rw [← e2]
  exact workWritten_of_pairs fun o ho k hk => by simp [w o ho k hk]

/-- After BOXCAR with D ≥ 2. -/
theorem conditioned_boxcar {s u : State} (h : Conditioned s u) (hd : 2 ≤ u.dsD) :
    ∃ v, boxcarBody u = some v ∧ Conditioned s v ∧ v.wlenN = 2 * (u.wlenN / 2 / u.dsD) ∧ v.status = u.status := by
  have hgd : u.wlenN / 2 / u.dsD * u.dsD ≤ u.wlenN / 2 := Nat.div_mul_le_self _ _
  have hg : u.wlenN / 2 / u.dsD ≤ u.wlenN / 2 := Nat.div_le_self _ _
  obtain ⟨m, e, f, w, -⟩ := boxcarBody_written (s := u) hd fun j hj => h.written j (by omega)
  have hlt : u.wlenN < 2 ^ 32 := u.wlen.isLt
  have hw : ((u.withMem m).withWlen (2 * (u.wlenN / 2 / u.dsD))).wlenN = 2 * (u.wlenN / 2 / u.dsD) :=
    wlenN_withWlen _ (by omega)
  have hl := h.le
  refine ⟨_, e, ⟨by rw [h.eq]; rfl, h.frame.trans (f.mono (by omega)), ?_, ?_, ?_⟩, hw, rfl⟩
  · rw [hw]; exact workWritten_of_pairs fun o ho k hk => by simp [w o ho k hk]
  · rw [hw]; omega
  · rw [hw]; omega

/-- After RDEC with P ≥ 1. -/
theorem conditioned_rdec {s u : State} (h : Conditioned s u) (hp : 1 ≤ u.passes) (hr : u.RecursiveOk u.wlenN) :
    ∃ v, rdecBody u = some v ∧ Conditioned s v ∧ v.wlenN = u.wlenN / 2 ^ u.passes ∧ v.status = u.status := by
  have h0 := recursive_lengths hp (hr hp) 0 (by omega)
  rw [pow_zero, Nat.div_one] at h0
  obtain ⟨m, e, f, w⟩ := rdecBody_written hp hr fun j hj => h.written j (by omega)
  have hdl : u.wlenN / 2 ^ u.passes ≤ u.wlenN := Nat.div_le_self _ _
  have hlt : u.wlenN < 2 ^ 32 := u.wlen.isLt
  have hw : ((u.withMem m).withWlen (u.wlenN / 2 ^ u.passes)).wlenN = u.wlenN / 2 ^ u.passes := wlenN_withWlen _ (by omega)
  have he : 2 * (u.wlenN / 2 ^ (u.passes + 1)) = u.wlenN / 2 ^ u.passes := by
    obtain ⟨c, hc⟩ := Nat.dvd_of_mod_eq_zero (hr hp).1
    have e1 : u.wlenN / 2 ^ (u.passes + 1) = c := by rw [hc, Nat.mul_div_cancel_left _ (by positivity)]
    have e2 : u.wlenN / 2 ^ u.passes = 2 * c := by
      rw [hc, pow_succ, mul_assoc, Nat.mul_div_cancel_left _ (by positivity)]
    omega
  have hl := h.le
  refine ⟨_, e, ⟨by rw [h.eq]; rfl, h.frame.trans (f.mono (by omega)), ?_, ?_, ?_⟩, hw, rfl⟩
  · rw [hw, ← he]
    exact workWritten_of_pairs fun o ho k hk => by
      obtain ⟨x, hx, -⟩ := w o ho u.passes hp le_rfl k hk (.inl rfl)
      simp [hx]
  · rw [hw, ← he]; omega
  · rw [hw]; omega

/-- After COMP, filtered or skipped. -/
theorem conditioned_comp {s u : State} (h : Conditioned s u) (hp : 1 ≤ u.passes) :
    ∃ v, compBody u = some v ∧ Conditioned s v ∧ v.wlen = u.wlen ∧
      (u.params.compTable.length < u.passes → v.status = setFlag u.status .compskip) ∧
      (¬u.params.compTable.length < u.passes → v.status = u.status) := by
  by_cases hs : u.params.compTable.length < u.passes
  · exact ⟨_, compBody_skipped (.inr hs), h.flag _, rfl, fun _ => rfl, fun h => absurd hs h⟩
  · have he := h.even
    have e2 : 2 * (u.wlenN / 2) = u.wlenN := by omega
    obtain ⟨m, e, f, w1, w2⟩ := compBody_written hp (by omega) (by rw [e2]; exact h.written)
    refine ⟨_, e, h.withMem (f.mono (by omega)) ?_, rfl, fun h => absurd h hs, fun _ => rfl⟩
    rw [← e2]
    refine workWritten_of_pairs fun o ho k hk => ?_
    rcases Nat.lt_or_ge k 18 with h18 | h18
    · rw [w1 o ho k hk h18]; exact h.written _ (by omega)
    · simp [w2 o ho k hk h18]

theorem blockCount_mul_le (s : State) : 2 * (s.bins * s.blockCount) ≤ s.wlenN := by
  rw [State.blockCount, ← Nat.mul_assoc, Nat.mul_comm]
  exact Nat.div_mul_le_self _ _

/-- A range of which a prefix is written anew and the rest is as before stays written. -/
theorem workWritten_prefix {m m' : Memory} {k n : Nat} (h : m.workWritten n) (f : SameOutside m m' (workAddr 0) (2 * k))
    (w : m'.workWritten k) : m'.workWritten n := fun j hj => by
  rcases Nat.lt_or_ge j k with hk | hk
  · exact w j hk
  · rw [f.work hk]; exact h j hj

theorem index_block {n b j : Nat} (h : j < n * b) : ∃ c < b, ∃ i < n, j = n * c + i := by
  have hn : 0 < n := Nat.pos_of_ne_zero fun e => by simp [e] at h
  exact ⟨j / n, Nat.div_lt_of_lt_mul h, j % n, Nat.mod_lt _ hn, (Nat.div_add_mod j n).symm⟩

/-- After WIN with a full block. -/
theorem conditioned_win {s u : State} (h : Conditioned s u) (hb : u.blockCount ≠ 0) (hw : u.mem.winWritten u.bins) :
    ∃ v, winBody u = some v ∧ Conditioned s v ∧ v.wlen = u.wlen ∧ v.status = u.status := by
  have hle := blockCount_mul_le u
  obtain ⟨m, e, f, w⟩ := winBody_written hb hw fun j hj => h.written j (by omega)
  refine ⟨_, e, h.withMem (f.mono (by omega)) (workWritten_prefix h.written f ?_), rfl, rfl⟩
  refine workWritten_of_pairs fun o ho k hk => ?_
  obtain ⟨c, hc, i, hi, rfl⟩ := index_block hk
  simp [w o ho c hc i hi]

/-- After XFORM with a full block. -/
theorem conditioned_xform {s u : State} (h : Conditioned s u) (hb : u.blockCount ≠ 0) :
    ∃ v, xformBody u = some v ∧ Conditioned s v ∧ v.wlen = u.wlen ∧ v.status = u.status := by
  have hle := blockCount_mul_le u
  obtain ⟨m, e, f, w⟩ := xformBody_written hb fun j hj => h.written j (by omega)
  refine ⟨_, e, h.withMem (f.mono (by omega)) (workWritten_prefix h.written f ?_), rfl, rfl⟩
  refine workWritten_of_pairs fun o ho k hk => ?_
  obtain ⟨c, hc, i, hi, rfl⟩ := index_block hk
  have := w c hc i hi
  rcases (show o = 0 ∨ o = 1 by omega) with rfl | rfl
  · simp [this.1]
  · simp [this.2]

/-- WLEN after RUN's decimation, by mode (R288). -/
def State.runLength (s : State) : Nat :=
  match s.mode with
  | .boxcar => 2 * (s.lenN / (2 * s.dsD))
  | .recursive => s.lenN / 2 ^ s.passes
  | .none | .reserved => s.lenN

/-- RUN's compensation is skipped: enabled, in recursive mode, and asked beyond the table. -/
def State.runSkips (s : State) : Prop := s.mode = .recursive ∧ s.compEn = true ∧ s.params.compTable.length < s.passes

/-- After RUN's decimation (R285). -/
theorem conditioned_decimate {s u : State} (h : Conditioned s u) (hw : u.wlenN = s.lenN) (hc : s.CommonOk)
    (hr : s.mode = .recursive → s.RecursiveOk s.lenN) :
    ∃ v, runDecimate u = some v ∧ Conditioned s v ∧ v.wlenN = s.runLength ∧
      (s.runSkips → v.status = setFlag u.status .compskip) ∧ (¬s.runSkips → v.status = u.status) := by
  have he := h.even
  unfold runDecimate
  rw [h.mode, h.dsD, h.passes]
  cases hm : s.mode with
  | none => exact ⟨u, rfl, h, by simp [State.runLength, hm, hw], fun hs => by simp [State.runSkips, hm] at hs, fun _ => rfl⟩
  | reserved => exact absurd hm hc.1
  | boxcar =>
    have hns : ¬s.runSkips := by simp [State.runSkips, hm]
    by_cases hd : 2 ≤ s.dsD
    · obtain ⟨v, e, hv, hl, hs⟩ := conditioned_boxcar h (by rw [h.dsD]; exact hd)
      refine ⟨v, by simp only [if_pos hd, e], hv, ?_, fun hs => absurd hs hns, fun _ => hs⟩
      rw [hl, hw, h.dsD, State.runLength, hm, Nat.div_div_eq_div_mul]
    · refine ⟨u, by simp only [if_neg hd], h, ?_, fun hs => absurd hs hns, fun _ => rfl⟩
      have : s.dsD = 1 := by have := hc.2.2 hm; omega
      simp only [State.runLength, hm, this, hw]
      omega
  | recursive =>
    by_cases hp : 1 ≤ s.passes
    · obtain ⟨v, e, hv, hl, hs⟩ := conditioned_rdec h (by rw [h.passes]; exact hp) (by
        have := hr hm
        simp only [State.RecursiveOk] at this ⊢
        rwa [hw, h.passes])
      rw [hw, h.passes] at hl
      by_cases hce : s.compEn = true
      · obtain ⟨x, e', hx, hl', hs1, hs2⟩ := conditioned_comp hv (by rw [hv.passes]; exact hp)
        rw [hv.params, hv.passes] at hs1 hs2
        refine ⟨x, by simp only [if_pos hp, e, hv.compEn, if_pos hce, e'], hx, ?_, fun hsk => ?_, fun hsk => ?_⟩
        · rw [State.wlenN, hl', ← State.wlenN, hl, State.runLength, hm]
        · rw [hs1 hsk.2.2, hs]
        · rw [hs2 fun hlt => hsk ⟨hm, hce, hlt⟩, hs]
      · refine ⟨v, by simp only [if_pos hp, e, hv.compEn, if_neg hce], hv, ?_, fun hsk => absurd hsk.2.1 hce, fun _ => hs⟩
        rw [hl, State.runLength, hm]
    · have hp0 : s.passes = 0 := by omega
      refine ⟨u, by simp only [if_neg hp], h, ?_, fun hsk => ?_, fun _ => rfl⟩
      · simp only [State.runLength, hm, hp0, hw, pow_zero, Nat.div_one]
      · have := hsk.2.2; omega

/-- R287: the decimated buffer holds a full block. -/
theorem two_bins_le_runLength {s : State} (hc : s.CommonOk) (hl : 2 * s.bins * s.deff ≤ s.lenN) :
    2 * s.bins ≤ s.runLength := by
  unfold State.runLength
  unfold State.deff at hl
  cases hm : s.mode with
  | none => simpa [hm] using hl
  | reserved => exact absurd hm hc.1
  | boxcar =>
    have hd := hc.2.2 hm
    simp only [hm] at hl ⊢
    have : s.bins ≤ s.lenN / (2 * s.dsD) := by
      rw [Nat.le_div_iff_mul_le (by omega)]
      calc s.bins * (2 * s.dsD) = 2 * s.bins * s.dsD := by ring
        _ ≤ _ := hl
    omega
  | recursive =>
    simp only [hm] at hl ⊢
    rw [Nat.le_div_iff_mul_le (by positivity)]
    exact hl

/-- What RUN's own checks give above bin count 1 (R285). -/
theorem run_checks {s : State} (h : ¬Rejected .run s) (hf : s.fftLog2 ≠ 0) :
    s.CommonOk ∧ s.LenOk ∧ 2 * s.bins * s.deff ≤ s.lenN ∧ (s.mode = .recursive → s.RecursiveOk s.lenN) := by
  simp only [Rejected, BadConfig, BadLength, if_neg hf, not_or, not_not, not_and, not_lt] at h
  exact ⟨h.1, h.2.1.1, h.2.1.2.1, h.2.1.2.2⟩

/-- RUN above bin count 1, up to ACC: conditioned, windowed and transformed, with at least one full block (R285, R287). -/
theorem runBody_ready {s : State} (hlegal : s.params.legal = true) (h : ¬Rejected .run s) (hf : s.fftLog2 ≠ 0)
    (hr : s.mem.rawWritten s.lenN) (hw : s.mem.winWritten s.bins) :
    ∃ v, runBody s = accBody v ∧ Conditioned s v ∧ v.wlenN = s.runLength ∧ v.blockCount ≠ 0 ∧
      (s.runSkips → v.status = setFlag s.status .compskip) ∧ (¬s.runSkips → v.status = s.status) := by
  obtain ⟨hc, hl, hb, hrec⟩ := run_checks h hf
  obtain ⟨u1, e1, c1, l1, s1⟩ := conditioned_conv hl.1 hr
  obtain ⟨u2, e2, c2, l2, s2, s2'⟩ := conditioned_decimate c1 l1 hc hrec
  obtain ⟨u3, e3, c3, l3, s3⟩ := conditioned_dcr c2
  have hcap := (Params.legal_bounds hlegal).2.2.2.2
  have hlen : 2 * s.lenN ≤ 2 ^ 28 := by have := hl.2; omega
  have hbc : ∀ v, Conditioned s v → v.wlenN = s.runLength → v.blockCount ≠ 0 := fun v cv lv => by
    rw [Ne, blockCount_zero, cv.bins, lv, not_lt]
    exact two_bins_le_runLength hc hb
  have l3' : u3.wlenN = s.runLength := by rw [State.wlenN, l3]; exact l2
  obtain ⟨u4, e4, c4, l4, s4⟩ := conditioned_win c3 (hbc _ c3 l3') (fun j hj => by
    rw [c3.frame.win hlen]; exact hw j (by rwa [c3.bins] at hj))
  have l4' : u4.wlenN = s.runLength := by rw [State.wlenN, l4]; exact l3'
  obtain ⟨u5, e5, c5, l5, s5⟩ := conditioned_xform c4 (hbc _ c4 l4')
  have l5' : u5.wlenN = s.runLength := by rw [State.wlenN, l5]; exact l4'
  refine ⟨u5, ?_, c5, l5', hbc _ c5 l5', fun hs => ?_, fun hs => ?_⟩
  · unfold runBody
    rw [if_neg hf, e1]
    simp only [Option.bind_eq_bind, Option.bind_some, e2, e3, e4, e5]
  · rw [s5, s4, s3, s2 hs, s1]
  · rw [s5, s4, s3, s2' hs, s1]

/-- RUN reads RAW first and WIN after its conditioning (R310). -/
theorem runBody_unwritten {s : State} (hlegal : s.params.legal = true) (h : ¬Rejected .run s) (hf : s.fftLog2 ≠ 0)
    (hn : ¬(s.mem.rawWritten s.lenN ∧ s.mem.winWritten s.bins)) : runBody s = none := by
  obtain ⟨hc, hl, hb, hrec⟩ := run_checks h hf
  unfold runBody
  rw [if_neg hf]
  by_cases hr : s.mem.rawWritten s.lenN
  · obtain ⟨u1, e1, c1, l1, s1⟩ := conditioned_conv hl.1 hr
    obtain ⟨u2, e2, c2, l2, s2, s2'⟩ := conditioned_decimate c1 l1 hc hrec
    obtain ⟨u3, e3, c3, l3, s3⟩ := conditioned_dcr c2
    have hcap := (Params.legal_bounds hlegal).2.2.2.2
    have hlen : 2 * s.lenN ≤ 2 ^ 28 := by have := hl.2; omega
    have hbc : u3.blockCount ≠ 0 := by
      have l3' : u3.wlenN = s.runLength := by rw [State.wlenN, l3]; exact l2
      rw [Ne, blockCount_zero, c3.bins, l3', not_lt]
      exact two_bins_le_runLength hc hb
    have hw : ¬u3.mem.winWritten u3.bins := fun hw => hn ⟨hr, fun j hj => by
      rw [← c3.frame.win hlen]; exact hw j (by rwa [c3.bins])⟩
    rw [e1]
    simp only [Option.bind_eq_bind, Option.bind_some, e2, e3, winBody_unwritten hbc fun h => hw h.1, Option.bind_none]
  · rw [convBody_unwritten hr]
    rfl

end Sys2Proof.Machine
end

