-- ==== Sys2Proof/Laws/Bodies.lean ====
section
/-! SUPPORT. What running a command comes to, by its checks and its body, and when a body answers: the lemmas that proofs about `exec`
cite in place of unfolding it. -/

namespace Sys2Proof.Machine

/-- A command that passes its checks and whose body answers completes with that answer. -/
theorem exec_body {i : Instr} {s u : State} (h : ¬Rejected i s) (hb : bodyOf i s = some u) : exec i s = .next u.complete := by
  rw [exec_eq, runCommand, (firstFailure_checksOf i s).2 h, hb]

/-- A command that passes its checks and whose body answers nothing faults. -/
theorem exec_none {i : Instr} {s : State} (h : ¬Rejected i s) (hb : bodyOf i s = none) : exec i s = .fault .uninit := by
  rw [exec_eq, runCommand, (firstFailure_checksOf i s).2 h, hb]

/-- A rejected command raises one of the error codes. -/
theorem exec_rejected {i : Instr} {s : State} (h : Rejected i s) : ∃ e, exec i s = .next (failed s (errCode e)) := by
  rcases hf : firstFailure (checksOf i s) with _ | e
  · exact absurd h ((firstFailure_checksOf i s).1 hf)
  · exact ⟨e, by rw [exec_eq, runCommand, hf]; rfl⟩

/-- A command that passes its checks and completes has run its body. -/
theorem exec_passed {i : Instr} {s t : State} (h : ¬Rejected i s) (ht : exec i s = .next t) : ∃ u, bodyOf i s = some u ∧ t = u.complete := by
    rw [← firstFailure_checksOf] at h
    rw [exec_eq] at ht
    rcases runCommand_next ht with ⟨e, he, -⟩ | ⟨-, u, hu, rfl⟩
    · rw [h] at he; cases he
    · exact ⟨u, hu, rfl⟩

/-- Every command but NOP and CLRACC makes the common checks (R302). -/
theorem commonOk_of_passed {i : Instr} {s : State} (h : ¬Rejected i s) (h1 : i ≠ .nop) (h2 : i ≠ .clracc) : s.CommonOk := by
  simp only [Rejected, not_or] at h
  have := h.1
  cases i <;> simp_all [BadConfig]

/-- The commands that make the WORK length check. -/
theorem workOk_of_passed {i : Instr} {s : State} (h : ¬Rejected i s) (hi : i = .dcr ∨ i = .boxcar ∨ i = .rdec ∨ i = .comp ∨ i = .win ∨ i = .xform ∨ i = .acc) : s.WorkOk := by
  simp only [Rejected, not_or] at h
  have := h.2.1
  rcases hi with rfl | rfl | rfl | rfl | rfl | rfl | rfl <;> simp_all [BadLength]

/-- The spectral commands refuse bin count 1. -/
theorem fft_of_passed {i : Instr} {s : State} (h : ¬Rejected i s) (hi : i = .win ∨ i = .xform ∨ i = .acc ∨ i = .emit) : s.fftLog2 ≠ 0 := by
  simp only [Rejected, not_or] at h
  have := h.1
  rcases hi with rfl | rfl | rfl | rfl <;> simp_all [BadConfig]

/-- The elements of the full blocks. -/
theorem blockCount_mul_eq (s : State) : s.wlenN / (2 * s.bins) * (2 * s.bins) = 2 * (s.bins * s.blockCount) := by simp only [State.blockCount]; ring

/-- Half of an even WLEN, doubled. -/
theorem even_wlen {s : State} (h : s.WorkOk) : 2 * (s.wlenN / 2) = s.wlenN := by have := h.1; omega

/-- On a legal instance the body of a command that passes its checks answers exactly when its operands are written (R310). -/
theorem bodyOf_none_iff {i : Instr} {s : State} (hl : s.params.legal = true) (h : ¬Rejected i s) : bodyOf i s = none ↔ ¬OperandsWritten i s := by
  rw [← not_iff_not, not_not]
  have key : (OperandsWritten i s → ∃ u, bodyOf i s = some u) ∧ (¬OperandsWritten i s → bodyOf i s = none) → (¬bodyOf i s = none ↔ OperandsWritten i s) := by
    rintro ⟨h1, h2⟩
    constructor
    · intro h; by_contra hc; exact h (h2 hc)
    · intro h hn; obtain ⟨u, hu⟩ := h1 h; rw [hu] at hn; cases hn
  apply key
  cases i with
  | nop => exact ⟨fun _ => ⟨s, rfl⟩, fun h => absurd trivial h⟩
  | conv => exact ⟨fun h => by obtain ⟨m, e, -⟩ := convBody_written h; exact ⟨_, e⟩, fun h => convBody_unwritten h⟩
  | dcr =>
    have e2 := even_wlen (workOk_of_passed h (by simp))
    refine ⟨fun h => ?_, fun h => dcrBody_unwritten (by rw [e2]; exact h)⟩
    obtain ⟨m, e, -⟩ := dcrBody_written (s := s) (by rw [e2]; exact h); exact ⟨_, e⟩
  | boxcar =>
    have hd : 1 ≤ s.dsD := (commonOk_of_passed h (by simp) (by simp)).2.2 (by simp only [Rejected, BadConfig, not_or, not_not] at h; exact h.1.2)
    by_cases h1 : s.dsD = 1
    · exact ⟨fun _ => ⟨_, boxcarBody_one h1⟩, fun h => absurd (.inl h1) h⟩
    · refine ⟨fun h => ?_, fun h => boxcarBody_unwritten h1 fun h2 => h (.inr h2)⟩
      obtain ⟨m, e, -⟩ := boxcarBody_written (s := s) (by omega) (h.resolve_left h1); exact ⟨_, e⟩
  | rdec =>
    have hr : s.RecursiveOk s.wlenN := by
      simp only [Rejected, BadLength, not_or, not_not] at h; exact h.2.1.2
    by_cases h1 : s.passes = 0
    · exact ⟨fun _ => ⟨_, rdecBody_zero h1⟩, fun h => absurd (.inl h1) h⟩
    · refine ⟨fun h => ?_, fun h => rdecBody_unwritten (by omega) hr fun h2 => h (.inr h2)⟩
      obtain ⟨m, e, -⟩ := rdecBody_written (s := s) (by omega) hr (h.resolve_left h1); exact ⟨_, e⟩
  | comp =>
    have e2 := even_wlen (workOk_of_passed h (by simp))
    by_cases h1 : s.passes < 1 ∨ s.params.compTable.length < s.passes
    · exact ⟨fun _ => ⟨_, compBody_skipped h1⟩, fun h => absurd (by simp only [OperandsWritten]; tauto) h⟩
    · refine ⟨fun h => ?_, fun h => compBody_unwritten (by omega) (by omega) fun h2 => h (.inr (.inr (by rwa [e2] at h2)))⟩
      obtain ⟨m, e, -⟩ := compBody_written (s := s) (by omega) (by omega) (by rw [e2]; simp only [OperandsWritten] at h; tauto); exact ⟨_, e⟩
  | win =>
    by_cases hb : s.blockCount = 0
    · exact ⟨fun _ => ⟨_, winBody_noblk hb⟩, fun h => absurd (.inl ((blockCount_zero s).1 hb)) h⟩
    · refine ⟨fun h => ?_, fun h => winBody_unwritten hb fun h2 => h (.inr (by rw [blockCount_mul_eq]; exact h2))⟩
      have h := h.resolve_left (by rw [← blockCount_zero]; exact hb)
      rw [blockCount_mul_eq] at h
      obtain ⟨m, e, -⟩ := winBody_written hb h.1 h.2; exact ⟨_, e⟩
  | xform =>
    by_cases hb : s.blockCount = 0
    · refine ⟨fun _ => ⟨_, xformBody_noblk hb⟩, fun h => absurd ?_ h⟩
      intro j hj; rw [blockCount_mul_eq, hb] at hj; omega
    · refine ⟨fun h => ?_, fun h => xformBody_unwritten hb fun h2 => h (by simp only [OperandsWritten, blockCount_mul_eq]; exact h2)⟩
      simp only [OperandsWritten, blockCount_mul_eq] at h
      obtain ⟨m, e, -⟩ := xformBody_written hb h; exact ⟨_, e⟩
  | acc =>
    by_cases hb : s.blockCount = 0
    · refine ⟨fun _ => ⟨_, accBody_noblk hb⟩, fun h => absurd ?_ h⟩
      intro j hj; rw [blockCount_mul_eq, hb] at hj; omega
    · refine ⟨fun h => ?_, fun h => accBody_unwritten hb fun h2 => h (by simp only [OperandsWritten, blockCount_mul_eq]; exact h2)⟩
      simp only [OperandsWritten, blockCount_mul_eq] at h
      obtain ⟨m, e, -⟩ := accBody_written hb h; exact ⟨_, e⟩
  | clracc => exact ⟨fun _ => ⟨_, rfl⟩, fun h => absurd trivial h⟩
  | rms =>
    refine ⟨fun h => ⟨_, by simp only [bodyOf, rmsBody, Memory.raws, gather_written (0 : Byte) h]; rfl⟩, fun h => ?_⟩
    simp only [bodyOf, rmsBody, Memory.raws, gather_unwritten h]
  | emit => exact ⟨fun _ => ⟨_, rfl⟩, fun h => absurd trivial h⟩
  | run =>
    by_cases hf : s.fftLog2 = 0
    · simp only [bodyOf, runBody, hf, if_true, OperandsWritten, true_or, and_true]
      refine ⟨fun h => ⟨_, by simp only [rmsBody, Memory.raws, gather_written (0 : Byte) h]; rfl⟩, fun h => ?_⟩
      simp only [rmsBody, Memory.raws, gather_unwritten h]
    · refine ⟨fun ho => ?_, fun ho => runBody_unwritten hl h hf fun h2 => ho ⟨h2.1, .inr h2.2⟩⟩
      obtain ⟨v, e, c, l, hb, -, -⟩ := runBody_ready hl h hf ho.1 (ho.2.resolve_left hf)
      obtain ⟨m, e', -⟩ := accBody_written hb fun j hj => c.written j (by have := blockCount_mul_le v; omega)
      exact ⟨_, e.trans e'⟩

/-- A command whose checks hold and whose body answers is ready: the evaluable form of `Ready`. -/
theorem ready_of_body {i : Instr} {s : State} (hl : s.params.legal = true) (hc : firstFailure (checksOf i s) = none)
    (hb : (bodyOf i s).isSome = true) : Ready i s := by
  have hr := (firstFailure_checksOf i s).1 hc
  refine ⟨hl, hr, ?_⟩
  by_contra hn
  rw [(bodyOf_none_iff hl hr).2 hn] at hb
  cases hb

end Sys2Proof.Machine
end

