-- ==== Sys2Proof/Laws/Step.lean ====
section
/-! SUPPORT. What one step can do: the engine's turn, the host's accesses and reset, each said once. -/

namespace Sys2Proof.Machine

/-- All the engine's turn can answer: nothing when idle, a raised decode error, or the decoded command. -/
theorem engineTurn_cases (s : State) :
    (s.busy = false ∧ engineTurn s = .next s) ∨
    (s.busy = true ∧ ∃ e, decode s.pending = .error e ∧ engineTurn s = .next (s.raise e)) ∨
    (s.busy = true ∧ ∃ i, decode s.pending = .ok i ∧ engineTurn s = exec i s) := by
  unfold engineTurn runPending
  cases hb : s.busy with
  | false => exact .inl ⟨rfl, rfl⟩
  | true =>
    cases hd : decode s.pending with
    | error e => exact .inr (.inl ⟨rfl, e, rfl, rfl⟩)
    | ok i => exact .inr (.inr ⟨rfl, i, rfl, rfl⟩)

/-- All a step that answers a next state can have done. -/
theorem step_next_cases {s t : State} (h : step s = .next t) :
    (s.schedule = [] ∧ engineTurn s = .next t) ∨
    (∃ rest, s.schedule = .engine :: rest ∧ engineTurn { s with schedule := rest } = .next t) ∨
    (∃ a v rest, s.schedule = .write a v :: rest ∧ t = State.busWrite { s with schedule := rest } a v) ∨
    (∃ a rest, s.schedule = .read a :: rest ∧ t = State.busRead { s with schedule := rest } a) ∨
    (∃ rest, s.schedule = .reset :: rest ∧ t = State.applyReset { s with schedule := rest }) := by
  unfold step at h
  split at h
  · next h0 => exact .inl ⟨h0, h⟩
  · next e rest h0 =>
    cases e with
    | engine => exact .inr (.inl ⟨rest, h0, h⟩)
    | write a v => cases h; exact .inr (.inr (.inl ⟨a, v, rest, h0, rfl⟩))
    | read a => cases h; exact .inr (.inr (.inr (.inl ⟨a, rest, h0, rfl⟩)))
    | reset => cases h; exact .inr (.inr (.inr (.inr ⟨rest, h0, rfl⟩)))

/-- All a bus write can do (R88, R350). -/
theorem busWrite_cases (s : State) (a v : Word) :
    ((target s.params a = .bad ∨ ∃ k, target s.params a = .ctab k) ∧ s.busWrite a v = s.flag .buserr) ∨
    (s.busy = true ∧ s.busWrite a v = s.flag .wrbusy) ∨
    (∃ r, target s.params a = .reg r ∧ (s.busy = true → r.writableBusy = true) ∧ s.busWrite a v = s.writeReg r v) ∨
    (s.busy = false ∧ target s.params a = .ram ∧
      s.busWrite a v = s.withMem (s.mem.writeBytes a.toNat (bytesLe 4 v.toNat))) ∨
    (s.busy = false ∧ target s.params a = .out ∧ s.busWrite a v = s) := by
  unfold State.busWrite
  cases ht : target s.params a with
  | bad => exact .inl ⟨.inl rfl, rfl⟩
  | ctab k => exact .inl ⟨.inr ⟨k, rfl⟩, rfl⟩
  | reg r =>
    cases hb : s.busy <;> cases hw : r.writableBusy
    · exact .inr (.inr (.inl ⟨r, rfl, by simp, by simp⟩))
    · exact .inr (.inr (.inl ⟨r, rfl, by simp, by simp⟩))
    · exact .inr (.inl ⟨rfl, by simp [hw]⟩)
    · exact .inr (.inr (.inl ⟨r, rfl, fun _ => hw, by simp [hw]⟩))
  | ram =>
    cases hb : s.busy
    · exact .inr (.inr (.inr (.inl ⟨rfl, rfl, by simp⟩)))
    · exact .inr (.inl ⟨rfl, by simp⟩)
  | out =>
    cases hb : s.busy
    · exact .inr (.inr (.inr (.inr ⟨rfl, rfl, by simp⟩)))
    · exact .inr (.inl ⟨rfl, by simp⟩)

/-- A bus read changes only the read data, the draw counter and, on a bus error, BUSERR (R86, R88). -/
theorem busRead_cases (s : State) (a : Word) :
    ∃ w n, s.busRead a = { s with readData := w, draws := n } ∨
      (target s.params a = .bad ∧ s.busRead a = { s.flag .buserr with readData := w, draws := n }) := by
  unfold State.busRead
  cases ht : target s.params a with
  | bad => exact ⟨0, s.draws, .inr ⟨rfl, rfl⟩⟩
  | ctab k => exact ⟨_, s.draws, .inl rfl⟩
  | reg r =>
    dsimp only
    split
    · exact ⟨_, _, .inl rfl⟩
    · exact ⟨_, s.draws, .inl rfl⟩
  | ram =>
    dsimp only [State.readRam]
    split
    · exact ⟨_, _, .inl rfl⟩
    · split
      · exact ⟨_, s.draws, .inl rfl⟩
      · exact ⟨_, _, .inl rfl⟩
  | out =>
    dsimp only [State.readRam]
    split
    · exact ⟨_, _, .inl rfl⟩
    · split
      · exact ⟨_, s.draws, .inl rfl⟩
      · exact ⟨_, _, .inl rfl⟩

end Sys2Proof.Machine
end

