-- ==== Sys2Proof/Laws/Bus.lean ====
section
/-! SUPPORT. What a bus access comes to, by the address: which target an address names, and each access to a known target. -/

namespace Sys2Proof.Machine

/-! ## Which target an address names (R82, R88) -/

/-- The register of an aligned offset of the register window. -/
theorem target_reg (p : Params) {a : Word} {r : Reg} (h : regAt a.toNat = some r) : a.toNat < 0x58 → a.toNat % 4 = 0 →
    target p a = .reg r := by
  intro h1 h4
  have e1 : a.toNat % slotSize = a.toNat := by simp only [slotSize]; omega
  have e2 : a.toNat / slotSize = 0 := by simp only [slotSize]; omega
  simp [target, windowOf, h4, e1, e2, h, show a.toNat < 0x1000 by omega]

/-- A misaligned address names nothing. -/
theorem target_misaligned (p : Params) {a : Word} (h : a.toNat % 4 ≠ 0) : target p a = .bad := by simp [target, h]

/-- An aligned address names what its window names. -/
theorem target_aligned (p : Params) {a : Word} (h : a.toNat % 4 = 0) : target p a = windowOf p a.toNat := by simp [target, h]

/-- Every aligned offset below 0x58 is a register, and no other offset is. -/
theorem regAt_some {n : Nat} (h : n % 4 = 0) (hn : n < 0x58) : ∃ r, regAt n = some r := by
  have : ∀ k < 22, (regAt (4 * k)).isSome = true := by decide
  obtain ⟨r, hr⟩ := Option.isSome_iff_exists.1 (this (n / 4) (by omega))
  exact ⟨r, by rwa [show 4 * (n / 4) = n by omega] at hr⟩

theorem regAt_none {n : Nat} (h : 0x58 ≤ n) : regAt n = none := by
  unfold regAt
  split <;> first | omega | rfl

/-- The offset of a register that is named. -/
theorem regAt_lt {n : Nat} {r : Reg} (h : regAt n = some r) : n < 0x58 := by
  by_contra hn
  rw [regAt_none (by omega)] at h
  cases h

/-- The register window beyond its last register is unmapped (R49). -/
theorem windowOf_reg_hole (p : Params) {n : Nat} (h : 0x58 ≤ n) (h' : n < slotSize) : windowOf p n = .bad := by
  have e1 : n % slotSize = n := Nat.mod_eq_of_lt h'
  have e2 : n / slotSize = 0 := Nat.div_eq_of_lt h'
  simp [windowOf, e1, e2, regAt_none h]

/-- All an address of the map can name, on a legal instance. -/
theorem windowOf_cases {p : Params} (hl : p.legal = true) (n : Nat) :
    (n < 0x58 ∧ windowOf p n = (match regAt n with | some r => .reg r | none => .bad)) ∨
    (0x58 ≤ n ∧ n < 0x60000000 ∧ inMap p n ∧ (windowOf p n = .ram ∨ windowOf p n = .out)) ∨
    (0x60000000 ≤ n ∧ inMap p n ∧ windowOf p n = .ctab ((n - 0x60000000) / 4)) ∨
    (0x58 ≤ n ∧ ¬inMap p n ∧ windowOf p n = .bad) := by
  obtain ⟨-, h1, -, -, h3⟩ := Params.legal_bounds hl
  have h2 := two_pow_le_bins hl
  have h4 : p.compTable.length < 256 := by
    simp only [Params.legal, Params.tableLegal, Bool.and_eq_true, decide_eq_true_eq] at hl
    exact hl.2.1
  generalize hw : 2 ^ p.fftLog2Max = w at *
  have e := Nat.div_add_mod n slotSize
  have hm := Nat.mod_lt n (show 0 < slotSize by decide)
  simp only [slotSize] at e hm
  rcases hd : n / slotSize with _ | _ | _ | _ | _ | _ | _ | k <;> rw [show (0x10000000 : Nat) = slotSize from rfl, hd] at e <;>
    simp only [slotSize] at e
  · by_cases hn : n < 0x58
    · refine .inl ⟨hn, ?_⟩
      have e1 : n % slotSize = n := by simp only [slotSize]; omega
      simp only [windowOf, hd, e1]
      exact if_pos (by omega)
    · exact .inr (.inr (.inr ⟨by omega, by simp only [inMap]; omega, windowOf_reg_hole p (by omega) (by simp only [slotSize]; omega)⟩))
  all_goals right
  · by_cases ho : n % slotSize < p.rawCap
    · exact .inl ⟨by omega, by omega, by simp only [inMap, slotSize] at *; omega, .inl (by simp [windowOf, hd, ho])⟩
    · exact .inr (.inr ⟨by omega, by simp only [inMap, slotSize] at *; omega, by simp [windowOf, hd, ho]⟩)
  · by_cases ho : n % slotSize < 2 * p.rawCap
    · exact .inl ⟨by omega, by omega, by simp only [inMap, slotSize] at *; omega, .inl (by simp [windowOf, hd, ho])⟩
    · exact .inr (.inr ⟨by omega, by simp only [inMap, slotSize] at *; omega, by simp [windowOf, hd, ho]⟩)
  · by_cases ho : n % slotSize < 2 * w
    · exact .inl ⟨by omega, by omega, by simp only [inMap, slotSize] at *; omega, .inl (by simp [windowOf, hd, hw, ho])⟩
    · exact .inr (.inr ⟨by omega, by simp only [inMap, slotSize] at *; omega, by simp [windowOf, hd, hw, ho]⟩)
  · by_cases ho : n % slotSize < 8 * w
    · exact .inl ⟨by omega, by omega, by simp only [inMap, slotSize] at *; omega, .inl (by simp [windowOf, hd, hw, ho])⟩
    · exact .inr (.inr ⟨by omega, by simp only [inMap, slotSize] at *; omega, by simp [windowOf, hd, hw, ho]⟩)
  · by_cases ho : n % slotSize < 4 * w
    · exact .inl ⟨by omega, by omega, by simp only [inMap, slotSize] at *; omega, .inr (by simp [windowOf, hd, hw, ho])⟩
    · exact .inr (.inr ⟨by omega, by simp only [inMap, slotSize] at *; omega, by simp [windowOf, hd, hw, ho]⟩)
  · by_cases ho : n % slotSize < 36 * p.compTable.length
    · have e1 : n % slotSize = n - 0x60000000 := by simp only [slotSize]; omega
      exact .inr (.inl ⟨by omega, by simp only [inMap, slotSize] at *; omega, by simp [windowOf, hd, ← e1, ho]⟩)
    · exact .inr (.inr ⟨by omega, by simp only [inMap, slotSize] at *; omega, by simp [windowOf, hd, ho]⟩)
  · exact .inr (.inr ⟨by omega, by simp only [inMap, slotSize] at *; omega, by simp [windowOf, hd]⟩)

/-- On a legal instance an address is a bus error exactly when it is misaligned or outside the map (R88). -/
theorem target_bad_iff {p : Params} (hl : p.legal = true) (a : Word) :
    target p a = .bad ↔ a.toNat % 4 ≠ 0 ∨ ¬inMap p a.toNat := by
  by_cases h4 : a.toNat % 4 = 0
  · rw [target_aligned p h4]
    rcases windowOf_cases hl a.toNat with ⟨h, e⟩ | ⟨-, -, h, e⟩ | ⟨-, h, e⟩ | ⟨-, h, e⟩
    · obtain ⟨r, hr⟩ := regAt_some h4 h
      rw [e, hr]
      simp [h4, show inMap p a.toNat from .inl h]
    · rcases e with e | e <;> simp [e, h4, h]
    · simp [e, h4, h]
    · simp [e, h]
  · simp [target_misaligned p h4, h4]

/-! ## Each access to a known target -/

theorem busWrite_bad {s : State} {a : Word} (v : Word) (h : target s.params a = .bad) : s.busWrite a v = s.flag .buserr := by
  simp only [State.busWrite, h]

theorem busWrite_ctab {s : State} {a : Word} {k : Nat} (v : Word) (h : target s.params a = .ctab k) :
    s.busWrite a v = s.flag .buserr := by
  simp only [State.busWrite, h]

theorem busWrite_reg {s : State} {a : Word} {r : Reg} (v : Word) (h : target s.params a = .reg r)
    (hb : s.busy = true → r.writableBusy = true) : s.busWrite a v = s.writeReg r v := by
  simp only [State.busWrite, h]
  cases hs : s.busy
  · rfl
  · rw [hb hs]; rfl

theorem busWrite_dropped {s : State} {a : Word} (v : Word) (hb : s.busy = true)
    (h : target s.params a = .ram ∨ target s.params a = .out ∨ ∃ r, target s.params a = .reg r ∧ r.writableBusy = false) :
    s.busWrite a v = s.flag .wrbusy := by
  rcases h with h | h | ⟨r, h, hr⟩ <;> simp only [State.busWrite, h, hb, if_true]
  rw [hr]; rfl

theorem busWrite_ram {s : State} {a : Word} (v : Word) (hb : s.busy = false) (h : target s.params a = .ram) :
    s.busWrite a v = s.withMem (s.mem.writeBytes a.toNat (bytesLe 4 v.toNat)) := by
  simp only [State.busWrite, h, hb, Bool.false_eq_true, if_false]

theorem busWrite_out {s : State} {a : Word} (v : Word) (hb : s.busy = false) (h : target s.params a = .out) :
    s.busWrite a v = s := by
  simp only [State.busWrite, h, hb, Bool.false_eq_true, if_false]

theorem busRead_bad {s : State} {a : Word} (h : target s.params a = .bad) : s.busRead a = (s.flag .buserr).answer 0 := by
  simp only [State.busRead, h]

theorem busRead_ctab {s : State} {a : Word} {k : Nat} (h : target s.params a = .ctab k) :
    s.busRead a = s.answer (BitVec.ofInt 32 (Params.ctab s.params (k / 9 + 1) (k % 9))) := by
  simp only [State.busRead, h]

theorem busRead_reg {s : State} {a : Word} {r : Reg} (h : target s.params a = .reg r) (hb : s.busy = true → r.stable = true) :
    s.busRead a = s.answer (s.readReg r) := by
  simp only [State.busRead, h]
  cases hs : s.busy
  · rfl
  · rw [hb hs]; rfl

theorem busRead_draw {s : State} {a : Word} (hb : s.busy = true)
    (h : target s.params a = .ram ∨ target s.params a = .out ∨ ∃ r, target s.params a = .reg r ∧ r.stable = false) :
    s.busRead a = s.answerDraw := by
  rcases h with h | h | ⟨r, h, hr⟩ <;> simp only [State.busRead, h, hb, if_true]
  rw [hr]; rfl

theorem busRead_ram {s : State} {a : Word} (hb : s.busy = false) (h : target s.params a = .ram ∨ target s.params a = .out) :
    s.busRead a = s.readRam a.toNat := by
  rcases h with h | h <;> simp only [State.busRead, h, hb, Bool.false_eq_true, if_false]

end Sys2Proof.Machine
end

