-- ==== Sys2Proof/Laws/Frames.lean ====
section
/-! SUPPORT. What each command can write in memory, said once for all commands; that every command keeps memory in canonical form and
inside its windows. -/

namespace Sys2Proof.Machine

/-- The commands that write WORK (10_state R51). -/
def writesWork : Instr → Bool
  | .conv | .dcr | .boxcar | .rdec | .comp | .win | .xform | .run => true
  | .nop | .acc | .clracc | .rms | .emit => false

/-- The commands that write ACC (10_state R52). -/
def writesAcc : Instr → Bool
  | .acc | .clracc | .emit | .run => true
  | .nop | .conv | .dcr | .boxcar | .rdec | .comp | .win | .xform | .rms => false

/-- An address a command may write: WORK up to RAW_CAP, ACC up to N, OUT up to N. -/
def mayWrite (i : Instr) (s : State) (a : Nat) : Prop :=
  (writesWork i = true ∧ workAddr 0 ≤ a ∧ a < workAddr s.params.rawCap) ∨
  (writesAcc i = true ∧ accAddr 0 ≤ a ∧ a < accAddr s.bins) ∨
  (i = .emit ∧ outAddr 0 ≤ a ∧ a < outAddr s.bins)

theorem bins_le_of_passed {i : Instr} {s : State} (hl : s.params.legal = true) (h : ¬Rejected i s) (hn : i ≠ .nop) :
    s.bins ≤ 2 ^ s.params.fftLog2Max ∧ s.bins ≤ 2 ^ 25 := by
  by_cases hc : i = .clracc
  · subst hc
    simp only [Rejected, BadConfig, not_or, not_lt] at h
    exact State.bins_le hl h.1
  · exact State.bins_le hl (commonOk_of_passed h hn hc).2.1

/-- EMIT's memory: OUT written, then ACC zeroed. -/
theorem emitBody_mem (s : State) : (emitBody s).mem = (s.mem.setOut (s.emitBins.map (emitValue s))).zeroAccs s.bins := by
  simp only [emitBody, clearAccumulator, emitOut, State.flagIf]
  split <;> rfl

/-- EMIT writes as many OUT cells as it emits bins. -/
theorem emitBins_length (s : State) : s.emitBins.length ≤ s.bins := by
  simp only [State.emitBins, List.length_take, State.emitted]
  omega

/-- The frame of every command's pseudocode: bytes it may not write are as before. -/
theorem body_frame {i : Instr} {s u : State} (hl : s.params.legal = true) (h : ¬Rejected i s) (hb : bodyOf i s = some u) :
    ∀ a, ¬mayWrite i s a → u.mem.read a = s.mem.read a := by
  have ho : OperandsWritten i s := by
    by_contra hn
    rw [(bodyOf_none_iff hl h).2 hn] at hb
    cases hb
  -- a frame of WORK below WLEN or LEN is one of WORK below RAW_CAP
  have inWork : ∀ {m : Memory} {n : Nat}, writesWork i = true → n ≤ s.params.rawCap → SameOutside s.mem m (workAddr 0) (2 * n) →
      ∀ a, ¬mayWrite i s a → m.read a = s.mem.read a := by
    intro m n hw hn f a ha
    apply f
    simp only [mayWrite, hw, true_and, not_or, workAddr] at ha
    simp only [workAddr]
    omega
  have inAcc : ∀ {m : Memory}, writesAcc i = true → SameOutside s.mem m (accAddr 0) (8 * s.bins) →
      ∀ a, ¬mayWrite i s a → m.read a = s.mem.read a := by
    intro m hw f a ha
    apply f
    simp only [mayWrite, hw, true_and, not_or, accAddr] at ha
    simp only [accAddr]
    omega
  cases i with
  | nop => cases hb; exact fun _ _ => rfl
  | conv =>
    obtain ⟨m, e, f, -⟩ := convBody_written ho
    cases e.symm.trans hb
    have hlen : s.LenOk := by simp only [Rejected, BadLength, not_or, not_not] at h; exact h.2.1
    exact inWork rfl hlen.2 f
  | dcr =>
    have hw := workOk_of_passed h (by simp)
    have e2 := even_wlen hw
    obtain ⟨m, e, f, -⟩ := dcrBody_written (s := s) (by rw [e2]; exact ho)
    cases e.symm.trans hb
    rw [e2] at f
    exact inWork rfl hw.2 f
  | boxcar =>
    have hw := workOk_of_passed h (by simp)
    have hd : 1 ≤ s.dsD := (commonOk_of_passed h (by simp) (by simp)).2.2
      (by simp only [Rejected, BadConfig, not_or, not_not] at h; exact h.1.2)
    by_cases h1 : s.dsD = 1
    · cases (boxcarBody_one h1).symm.trans hb; exact fun _ _ => rfl
    · obtain ⟨m, e, f, -⟩ := boxcarBody_written (s := s) (by omega) (ho.resolve_left h1)
      cases e.symm.trans hb
      exact inWork rfl hw.2 f
  | rdec =>
    have hw := workOk_of_passed h (by simp)
    have hr : s.RecursiveOk s.wlenN := by simp only [Rejected, BadLength, not_or, not_not] at h; exact h.2.1.2
    by_cases h1 : s.passes = 0
    · cases (rdecBody_zero h1).symm.trans hb; exact fun _ _ => rfl
    · obtain ⟨m, e, f, -⟩ := rdecBody_written (s := s) (by omega) hr (ho.resolve_left h1)
      cases e.symm.trans hb
      exact inWork rfl (by have := hw.2; omega) f
  | comp =>
    have hw := workOk_of_passed h (by simp)
    have e2 := even_wlen hw
    by_cases h1 : s.passes < 1 ∨ s.params.compTable.length < s.passes
    · cases (compBody_skipped h1).symm.trans hb; exact fun _ _ => rfl
    · obtain ⟨m, e, f, -⟩ := compBody_written (s := s) (by omega) (by omega)
        (by rw [e2]; simp only [OperandsWritten] at ho; tauto)
      cases e.symm.trans hb
      rw [e2] at f
      exact inWork rfl hw.2 f
  | win =>
    have hw := workOk_of_passed h (by simp)
    by_cases h0 : s.blockCount = 0
    · cases (winBody_noblk h0).symm.trans hb; exact fun _ _ => rfl
    · have ho := ho.resolve_left (by rw [← blockCount_zero]; exact h0)
      rw [blockCount_mul_eq] at ho
      obtain ⟨m, e, f, -⟩ := winBody_written h0 ho.1 ho.2
      cases e.symm.trans hb
      exact inWork rfl (le_trans (blockCount_mul_le s) hw.2) f
  | xform =>
    have hw := workOk_of_passed h (by simp)
    by_cases h0 : s.blockCount = 0
    · cases (xformBody_noblk h0).symm.trans hb; exact fun _ _ => rfl
    · simp only [OperandsWritten, blockCount_mul_eq] at ho
      obtain ⟨m, e, f, -⟩ := xformBody_written h0 ho
      cases e.symm.trans hb
      exact inWork rfl (le_trans (blockCount_mul_le s) hw.2) f
  | acc =>
    by_cases h0 : s.blockCount = 0
    · cases (accBody_noblk h0).symm.trans hb; exact fun _ _ => rfl
    · simp only [OperandsWritten, blockCount_mul_eq] at ho
      obtain ⟨m, e, f, -⟩ := accBody_written h0 ho
      cases e.symm.trans hb
      exact inAcc rfl f
  | clracc =>
    cases hb
    exact inAcc rfl fun a ha => Memory.read_zeroAccs_outside _ _ ha
  | rms =>
    obtain ⟨ms, rfl⟩ := rmsBody_some hb
    intro a _
    rw [(rmsWrite_frame ms s).1]
  | emit =>
    cases hb
    intro a ha
    simp only [mayWrite, writesWork, writesAcc, Bool.false_eq_true, false_and, true_and, false_or, not_or, accAddr, outAddr] at ha
    rw [emitBody_mem, Memory.read_zeroAccs_outside _ _ (by simp only [accAddr]; omega), Memory.read_setOut_outside]
    have := emitBins_length s
    simp only [List.length_map, outAddr]
    omega
  | run =>
    by_cases hf : s.fftLog2 = 0
    · simp only [bodyOf, runBody, if_pos hf] at hb
      obtain ⟨ms, rfl⟩ := rmsBody_some hb
      intro a _
      rw [(rmsWrite_frame ms s).1]
    · obtain ⟨v, e, c, -, h0, -, -⟩ := runBody_ready hl h hf ho.1 (ho.2.resolve_left hf)
      obtain ⟨m, e', f, -⟩ := accBody_written h0 fun j hj => c.written j (by have := blockCount_mul_le v; omega)
      cases (e.trans e').symm.trans hb
      have hlen : s.lenN ≤ s.params.rawCap := (run_checks h hf).2.1.2
      intro a ha
      simp only [mayWrite, writesWork, writesAcc, true_and, reduceCtorEq, false_and, or_false, not_or, workAddr, accAddr] at ha
      show m.read a = _
      rw [f a (by rw [c.bins]; simp only [accAddr]; omega), c.frame a (by simp only [workAddr]; omega)]

/-! ## The canonical form and the windows -/

theorem wf_stage {o lim : Nat} {m m' : Memory} (h : m.wf) (hs : stage o lim m = some m') : m'.wf := by
  simp only [stage] at hs
  split at hs
  · cases hs
  · cases hs; exact Memory.wf_setStream h _ _

theorem wf_rdecPasses {l n j : Nat} {m m' : Memory} (h : m.wf) (hs : rdecPasses l n j m = some m') : m'.wf := by
  induction n generalizing j m with
  | zero => cases hs; exact h
  | succ n ih =>
    simp only [rdecPasses] at hs
    split at hs
    · cases hs
    · next m1 h1 =>
      split at hs
      · cases hs
      · next m2 h2 => exact ih (wf_stage (wf_stage h h1) h2) hs

theorem wf_convBody {s u : State} (h : s.mem.wf) (hb : convBody s = some u) : u.mem.wf := by
  simp only [convBody] at hb
  split at hb
  · cases hb
  · cases hb; exact Memory.wf_setWork h _

theorem wf_dcrStream {o n : Nat} {m m' : Memory} (h : m.wf) (hs : dcrStream o n m = some m') : m'.wf := by
  simp only [dcrStream] at hs
  split at hs
  · cases hs
  · split at hs <;> cases hs
    · exact h
    · exact Memory.wf_setStream h _ _

theorem wf_dcrBody {s u : State} (h : s.mem.wf) (hb : dcrBody s = some u) : u.mem.wf := by
  simp only [dcrBody] at hb
  split at hb
  · cases hb; exact h
  · split at hb
    · cases hb
    · next m1 h1 =>
      split at hb
      · cases hb
      · next m2 h2 => cases hb; exact wf_dcrStream (wf_dcrStream h h1) h2

theorem wf_boxcarBody {s u : State} (h : s.mem.wf) (hb : boxcarBody s = some u) : u.mem.wf := by
  simp only [boxcarBody] at hb
  split at hb
  · cases hb; exact h
  · split at hb
    · cases hb; exact Memory.wf_setStream (Memory.wf_setStream (Memory.wf_setWork h _) _ _) _ _
    · cases hb

theorem wf_rdecBody {s u : State} (h : s.mem.wf) (hb : rdecBody s = some u) : u.mem.wf := by
  obtain ⟨m, hm, rfl⟩ := rdecBody_some hb
  exact wf_rdecPasses h hm

theorem wf_compStream {c : Nat → Int} {o n : Nat} {m m' : Memory} (h : m.wf) (hs : compStream c o n m = some m') : m'.wf := by
  simp only [compStream] at hs
  split at hs
  · cases hs
  · cases hs; exact Memory.wf_setStream h _ _

theorem wf_compBody {s u : State} (h : s.mem.wf) (hb : compBody s = some u) : u.mem.wf := by
  simp only [compBody] at hb
  split at hb
  · cases hb; exact h
  · split at hb
    · cases hb
    · next m1 h1 =>
      split at hb
      · cases hb
      · next m2 h2 => cases hb; exact wf_compStream (wf_compStream h h1) h2

theorem wf_winBody {s u : State} (h : s.mem.wf) (hb : winBody s = some u) : u.mem.wf := by
  simp only [winBody] at hb
  split at hb
  · cases hb; exact h
  · split at hb
    · cases hb; exact Memory.wf_setPairs h _
    · cases hb

theorem wf_xformBody {s u : State} (h : s.mem.wf) (hb : xformBody s = some u) : u.mem.wf := by
  simp only [xformBody] at hb
  split at hb
  · cases hb; exact h
  · split at hb
    · cases hb
    · cases hb; exact Memory.wf_setPairs h _

theorem wf_accBody {s u : State} (h : s.mem.wf) (hb : accBody s = some u) : u.mem.wf := by
  simp only [accBody] at hb
  split at hb
  · cases hb; exact h
  · split at hb
    · cases hb
    · cases hb; exact Memory.wf_setAccs h _

theorem wf_runDecimate {s u : State} (h : s.mem.wf) (hb : runDecimate s = some u) : u.mem.wf := by
  obtain rfl | hb | ⟨v, hv, rfl | hb⟩ := runDecimate_some hb
  · exact h
  · exact wf_boxcarBody h hb
  · exact wf_rdecBody h hv
  · exact wf_compBody (wf_rdecBody h hv) hb

theorem wf_rmsBody {s u : State} (h : s.mem.wf) (hb : rmsBody s = some u) : u.mem.wf := by
  obtain ⟨ms, rfl⟩ := rmsBody_some hb
  rw [(rmsWrite_frame ms s).1]
  exact h

/-- Every command keeps memory in canonical form. -/
theorem body_wf {i : Instr} {s u : State} (h : s.mem.wf) (hb : bodyOf i s = some u) : u.mem.wf := by
  cases i with
  | nop => cases hb; exact h
  | conv => exact wf_convBody h hb
  | dcr => exact wf_dcrBody h hb
  | boxcar => exact wf_boxcarBody h hb
  | rdec => exact wf_rdecBody h hb
  | comp => exact wf_compBody h hb
  | win => exact wf_winBody h hb
  | xform => exact wf_xformBody h hb
  | acc => exact wf_accBody h hb
  | clracc => cases hb; exact Memory.wf_zeroAccs h _
  | rms => exact wf_rmsBody h hb
  | emit =>
    cases hb
    rw [emitBody_mem]
    exact Memory.wf_zeroAccs (Memory.wf_setOut h _) _
  | run =>
    obtain ⟨-, hb⟩ | ⟨-, s₁, s₂, s₃, s₄, s₅, h1, h2, h3, h4, h5, h6⟩ := runBody_some hb
    · exact wf_rmsBody h hb
    · exact wf_accBody (wf_xformBody (wf_winBody (wf_dcrBody (wf_runDecimate (wf_convBody h h1) h2) h3) h4) h5) h6

/-- In canonical form a listed byte is what reading its address gives. -/
theorem Memory.read_of_mem {m : Memory} (h : m.wf) {c : Host.Cell} (hc : c ∈ m) : m.lookup c.1 = some c.2 := by
  have hp := h.1
  clear h
  induction m with
  | nil => cases hc
  | cons d m ih =>
    rw [List.pairwise_cons] at hp
    rcases List.mem_cons.1 hc with rfl | hc
    · simp [Memory.lookup]
    · have := hp.1 c hc
      simp only [Memory.lookup, if_neg (show ¬d.1 = c.1 by omega)]
      exact ih hc hp.2

theorem Memory.mem_of_lookup {m : Memory} {a : Nat} {b : Byte} (h : m.lookup a = some b) : (a, b) ∈ m := by
  induction m with
  | nil => cases h
  | cons d m ih =>
    simp only [Memory.lookup] at h
    split at h
    · next e => cases h; subst e; exact List.mem_cons_self
    · exact List.mem_cons_of_mem _ (ih h)

/-- Memory that differs from mapped memory only at addresses inside the windows is mapped. -/
theorem Memory.mapped_of_frame {p : Params} {m m' : Memory} (hm : m.mapped p) (h' : m'.wf)
    (hf : ∀ a, ¬(windowOf p a = .ram ∨ windowOf p a = .out) → m'.read a = m.read a) : m'.mapped p := by
  intro c hc
  by_contra hn
  have h1 := Memory.read_of_mem h' hc
  have h2 := h'.2 c hc
  have h3 := hf c.1 hn
  rw [Memory.read_eq, Memory.read_eq, h1] at h3
  cases hl : m.lookup c.1 with
  | none =>
    rw [hl] at h3
    exact h2 h3.symm
  | some b => exact hn (hm (c.1, b) (Memory.mem_of_lookup hl))

/-- What a command may write lies inside the windows. -/
theorem windowOf_mayWrite {i : Instr} {s : State} (hl : s.params.legal = true) (h : ¬Rejected i s) {a : Nat}
    (ha : mayWrite i s a) : windowOf s.params a = .ram ∨ windowOf s.params a = .out := by
  have hb : i ≠ .nop → s.bins ≤ 2 ^ s.params.fftLog2Max := fun hn => (bins_le_of_passed hl h hn).1
  rcases ha with ⟨-, h1, h2⟩ | ⟨hw, h1, h2⟩ | ⟨hi, h1, h2⟩
  · exact .inl (windowOf_work hl h1 h2)
  · refine .inl (windowOf_acc hl h1 (lt_of_lt_of_le h2 ?_))
    have := hb (by rintro rfl; cases hw)
    simp only [accAddr]
    omega
  · refine .inr (windowOf_out hl h1 (lt_of_lt_of_le h2 ?_))
    have := hb (by rintro rfl; cases hi)
    simp only [outAddr]
    omega

/-- Every command keeps memory inside the windows. -/
theorem body_mapped {i : Instr} {s u : State} (hl : s.params.legal = true) (h : ¬Rejected i s) (hwf : s.mem.wf)
    (hm : s.mem.mapped s.params) (hb : bodyOf i s = some u) : u.mem.mapped s.params :=
  Memory.mapped_of_frame hm (body_wf hwf hb) fun a ha => body_frame hl h hb a fun hw => ha (windowOf_mayWrite hl h hw)

end Sys2Proof.Machine
end

