-- ==== Sys2Proof/Laws/PerInstr.lean ====
section
/-! SUPPORT. Statements made for every instruction, one lemma per constructor. Encoding: the word of a command has zero reserved
bits and, below them, an assigned operation code that the opcode map takes back to the command (30_encoding R111, R113). -/

namespace Sys2Proof.Laws.Encoding

/-- The word of a command is legal, and its operation code names that command. -/
def Statement (i : Instr) : Prop := wordWf (encode i) = true ∧ opcodeMap (opcField (encode i)).toNat = some i ∧ i.wf = true

theorem nop : Statement .nop := ⟨by decide, by decide, rfl⟩
theorem conv : Statement .conv := ⟨by decide, by decide, rfl⟩
theorem dcr : Statement .dcr := ⟨by decide, by decide, rfl⟩
theorem boxcar : Statement .boxcar := ⟨by decide, by decide, rfl⟩
theorem rdec : Statement .rdec := ⟨by decide, by decide, rfl⟩
theorem comp : Statement .comp := ⟨by decide, by decide, rfl⟩
theorem win : Statement .win := ⟨by decide, by decide, rfl⟩
theorem xform : Statement .xform := ⟨by decide, by decide, rfl⟩
theorem acc : Statement .acc := ⟨by decide, by decide, rfl⟩
theorem clracc : Statement .clracc := ⟨by decide, by decide, rfl⟩
theorem rms : Statement .rms := ⟨by decide, by decide, rfl⟩
theorem emit : Statement .emit := ⟨by decide, by decide, rfl⟩
theorem run : Statement .run := ⟨by decide, by decide, rfl⟩

end Sys2Proof.Laws.Encoding
end

