-- ==== Sys2Proof/Machine/HostScript.lean ====
section
/-! DEFINITION. The host script of 30_encoding R117 and R118: its statements and pseudo-instructions as the events they stand for. -/

namespace Sys2Proof.Machine.Script

/-- `WR addr, value` (R117). -/
def wr (a v : Nat) : List Event := [.write (BitVec.ofNat 32 a) (BitVec.ofNat 32 v)]

/-- `RD addr` (R117). -/
def rd (a : Nat) : List Event := [.read (BitVec.ofNat 32 a)]

/-- `WORKPAIR(i, q)`: q's 16 bits above i's (R117). -/
def workPair (i q : Int) : Nat := (BitVec.ofInt 16 i).toNat + 65536 * (BitVec.ofInt 16 q).toNat

/-- `BYTES(b0, b1, b2, b3)` (R117). -/
def bytes4 (b0 b1 b2 b3 : Nat) : Nat := b0 + 256 * b1 + 65536 * b2 + 16777216 * b3

/-- `CMD mnemonic`: WR CMD, the command's word (R118). -/
def cmd (i : Instr) : List Event := [.write 0x030 (encode i)]

/-- `WAIT`: RD STATUS until BUSY is 0 (R118), in the interleaving where `polls` reads find the command still running. -/
def wait (polls : Nat) : List Event := List.replicate polls (.read 0x028) ++ [.engine, .read 0x028]

/-- `FILL addr, count, value` (R118). -/
def fill (a : Nat) : (count : Nat) → (v : Nat) → List Event
  | 0, _ => []
  | n + 1, v => wr a v ++ fill (a + 4) n v

/-- `SETCFG MODE=m, PEAK=p, COMP_EN=c, REFSEL=r, BIAS_SEL=b, FFT_LOG2=e, P=k, WIN_SHIFT=s` (R118). -/
def setCfg (m p c r b e k s : Nat) : List Event :=
  wr 0x008 (m + 4 * p + 8 * c + 16 * r + 32 * b + 256 * e + 65536 * k + 1048576 * s)

/-- `CLEAR`: WR STATUS, 0x0000_3FFF (R118). -/
def clear : List Event := wr 0x028 0x3FFF

end Sys2Proof.Machine.Script
end

