-- ==== Sys2Proof/Tests/Slice0.lean ====
section
/-! SUPPORT. The model's own tests: well-formedness, decoding of words written out from the spec's encoding, at most two small steps
per command (the vectors of 95_test_vectors, named in each docstring), and one witness for the hypotheses of each statement. -/

namespace Sys2Proof.Tests

open Sys2Proof.Machine

-- one theorem at a time: many kernel evaluations at once, each on a thread of its own, outgrow the checker's memory limit
set_option Elab.async false

/-! ## Helpers -/

/-- The identity instance of 95_test_vectors, section 0. -/
def ident : Params := { fftLog2Max := 16, rawCap := 2 ^ 20, compTable := [[0, 0, 0, 0, 32768, 0, 0, 0, 0]] }

/-- The state after reset on the identity instance. -/
def base : State := { State.reset with params := ident }

/-- RAW from index 0 and LEN. -/
def raws (bs : List Nat) (s : State) : State :=
  { s with mem := s.mem.writeCells 1 1 (rawAddr 0) bs, len := BitVec.ofNat 32 bs.length }

/-- WORK from index 0 and WLEN. -/
def works (xs : List Int) (s : State) : State :=
  (s.withMem (s.mem.setWork (xs.map (BitVec.ofInt 16)))).withWlen xs.length

/-- WIN from index 0. -/
def coefs (xs : List Int) (s : State) : State :=
  s.withMem (s.mem.writeCells 2 2 (winAddr 0) (xs.map fun x => (BitVec.ofInt 16 x).toNat))

/-- ACC from index 0. -/
def accs (xs : List Nat) (s : State) : State := s.withMem (s.mem.setAccs (xs.map (BitVec.ofNat 64)))

/-- CFG and DS. -/
def conf (cfg ds : Nat) (s : State) : State := { s with cfg := BitVec.ofNat 32 cfg, ds := BitVec.ofNat 32 ds }

/-- A word accepted. -/
def pend (w : Nat) (s : State) : State := s.accept (BitVec.ofNat 32 w)

/-- WORK's first n cells as integers. -/
def workList (s : State) (n : Nat) : List (Option Int) := (List.range n).map fun j => (s.mem.work j).map BitVec.toInt

/-- A next state that passes a test. -/
def ends (o : Host.Outcome State Fault Refusal) (f : State → Bool) : Bool :=
  match o with
  | .next t => f t
  | .fault _ => false
  | .refused _ => false

/-- The run ends in UNINIT. -/
def uninit (o : Host.Outcome State Fault Refusal) : Bool :=
  match o with
  | .fault .uninit => true
  | .next _ => false
  | .refused _ => false

/-- The n-th I/Q pair repeated. -/
def pairsOf (n : Nat) (f : Nat → Int × Int) : List Int := (List.range n).flatMap fun m => [(f m).1, (f m).2]

/-! ## Well-formedness: one ill-formed term for each check -/

theorem test_wf_word : wordWf 0x0000000C = true ∧ wordWf 0x00000000 = true := by decide
theorem test_wf_opcode_refused : opcAssigned 0x0000000D = false ∧ wordWf 0x000000FF = false := by decide
theorem test_wf_reserved_refused : rsvClear 0x00000101 = false ∧ wordWf 0x80000001 = false := by decide
theorem test_wf_instr : Instr.wf .run = true := by decide
theorem test_wf_params : ident.legal = true := by decide +kernel
theorem test_wf_fft_refused : ({ ident with fftLog2Max := 0 } : Params).fftLegal = false ∧
    ({ ident with fftLog2Max := 26 } : Params).fftLegal = false := by decide
theorem test_wf_cap_refused : ({ ident with rawCap := 2 ^ 20 + 2 } : Params).capLegal = false ∧
    ({ ident with rawCap := 2 ^ 18 - 4 } : Params).capLegal = false ∧
    ({ ident with rawCap := 2 ^ 27 + 4 } : Params).capLegal = false := by decide +kernel
theorem test_wf_row_refused : compRowLegal [0, 0, 0, 0, 1, 0, 0, 0] = false ∧
    compRowLegal [0, 0, 0, 0, 131072, 0, 0, 0, 0] = false ∧ compRowLegal [1, 0, 0, 0, 9, 0, 0, 0, 2] = false := by decide
theorem test_wf_table_refused :
    ({ ident with compTable := List.replicate 256 [0, 0, 0, 0, 0, 0, 0, 0, 0] } : Params).tableLegal = false := by decide +kernel

/-! ## Decoding: each word written out from R111 and R113, RSV above OPC -/

theorem test_decode_nop : decode 0b00000000000000000000000000000000#32 = .ok .nop := by decide
theorem test_decode_conv : decode 0b00000000000000000000000000000001#32 = .ok .conv := by decide
theorem test_decode_dcr : decode 0b00000000000000000000000000000010#32 = .ok .dcr := by decide
theorem test_decode_boxcar : decode 0b00000000000000000000000000000011#32 = .ok .boxcar := by decide
theorem test_decode_rdec : decode 0b00000000000000000000000000000100#32 = .ok .rdec := by decide
theorem test_decode_comp : decode 0b00000000000000000000000000000101#32 = .ok .comp := by decide
theorem test_decode_win : decode 0b00000000000000000000000000000110#32 = .ok .win := by decide
theorem test_decode_xform : decode 0b00000000000000000000000000000111#32 = .ok .xform := by decide
theorem test_decode_acc : decode 0b00000000000000000000000000001000#32 = .ok .acc := by decide
theorem test_decode_clracc : decode 0b00000000000000000000000000001001#32 = .ok .clracc := by decide
theorem test_decode_rms : decode 0b00000000000000000000000000001010#32 = .ok .rms := by decide
theorem test_decode_emit : decode 0b00000000000000000000000000001011#32 = .ok .emit := by decide
theorem test_decode_run : decode 0b00000000000000000000000000001100#32 = .ok .run := by decide
/-- Vectors DEC3 to DEC7. -/
theorem test_decode_illegal : decode 0x0000000D = .error .badOpcode ∧ decode 0x000000FF = .error .badOpcode ∧
    decode 0x0000010D = .error .badOpcode ∧ decode 0x00000101 = .error .rsvdBits ∧ decode 0x8000000C = .error .rsvdBits := by
  decide
theorem test_decode_table : ((List.range 14).map (decodeTableWord 32)) =
    [some .nop, some .conv, some .dcr, some .boxcar, some .rdec, some .comp, some .win, some .xform, some .acc, some .clracc,
     some .rms, some .emit, some .run, none] := by decide

/-! ## Running the first command after reset -/

/-- The commands that pass their checks in the state after reset complete with DONE alone; the others report BAD_CONFIG, or
BAD_LENGTH for RMS and RUN (R280, R302, R345; vectors DEC1, DEC16, DEC17, DEC22 to DEC25). -/
theorem test_first_command : ((List.range 13).map fun w =>
    ends (step (State.reset.withFetchWord 32 w)) fun t =>
      t.status == (if w ∈ [0, 1, 2, 9] then 0x02 else if w ∈ [10, 12] then 0x46 else 0x36)) = List.replicate 13 true := by
  decide +kernel

/-- Vectors DEC9 and DEC26: the error stays in ERRF over a later success, while ERR returns to 0 (R304). -/
theorem test_errf_sticky : ends (engineTurn ((base |> conf 3 1) |> pend 1)) (fun t => t.status == 0x36 &&
    ends (engineTurn (t |> pend 0)) fun u => u.status == 0x06) = true := by decide +kernel

/-! ## The commands, by the vectors of 95_test_vectors -/

/-- R280 with CFG illegal (vector DEC2). -/
theorem test_nop : ends (exec .nop (base |> conf 3 1)) (fun t => t.status == 2) = true := by decide +kernel

/-- Vector CONV1. -/
theorem test_conv : ends (exec .conv (base |> raws [0, 127, 128, 255])) (fun t =>
    workList t 4 == [some (-127), some 0, some 1, some 128] && t.wlen == 4) = true := by decide +kernel

/-- Vector CONV4. -/
theorem test_conv_uninit : uninit (exec .conv { base with len := 4 }) = true := by decide +kernel

/-- Vector DCR1. -/
theorem test_dcr : ends (exec .dcr (base |> works [10, -3, 12, -3, 14, -4, 3, 1])) (fun t =>
    workList t 8 == [1, -1, 3, -1, 5, -2, -6, 3].map some) = true := by decide +kernel

/-- Vector DCR3: the subtraction wraps. -/
theorem test_dcr_wraps : ends (exec .dcr (base |> works [32767, 0, 32767, 0, 32767, 0, -32768, 0])) (fun t =>
    workList t 8 == [16384, 0, 16384, 0, 16384, 0, 16385, 0].map some) = true := by decide +kernel

/-- Vector BOX1. -/
theorem test_boxcar : ends (exec .boxcar ((base |> conf 1 2) |> works [1, 2, 3, 4, 5, 6, 7, 8, 9, 10])) (fun t =>
    workList t 10 == [4, 6, 12, 14, 0, 0, 0, 0, 0, 0].map some && t.wlen == 4) = true := by decide +kernel

/-- Vector BOX3: both sums wrap. -/
theorem test_boxcar_wraps : ends (exec .boxcar ((base |> conf 1 2) |> works [32767, -32768, 1, -1])) (fun t =>
    workList t 2 == [some (-32768), some 32767] && t.wlen == 2) = true := by decide +kernel

/-- Vector RDEC1. -/
theorem test_rdec : ends (exec .rdec ((base |> conf 0x10002 1) |> works (pairsOf 12 fun m => (m, -m)))) (fun t =>
    workList t 12 == [2, -3, 3, -4, 5, -5, 8, -9, 11, -12, 15, -15].map some && t.wlen == 12 &&
    (t.mem.work 12).map BitVec.toInt == some 6) = true := by decide +kernel

/-- Vector RDEC7: one sample's weights in the bootstrap and after it. -/
theorem test_rdec_weights :
    ends (exec .rdec ((base |> conf 0x10002 1) |> works (pairsOf 16 fun m => (if m = 5 then 32 else 0, 0)))) (fun t =>
      workList t 16 == (pairsOf 8 fun m => ([2, 2, 2, 30, 30, 2, 0, 0].getD m 0, 0)).map some) = true := by decide +kernel

/-- Vector COMP1. -/
theorem test_comp : ends (exec .comp ((base |> conf 0x10002 1) |> works (pairsOf 24 fun m => (m + 1, -(m + 1))))) (fun t =>
    workList t 48 == (pairsOf 24 fun m => if m < 18 then ((m : Int) + 1, -(m + 1)) else ((m : Int) - 4, -(m - 4))).map some)
    = true := by decide +kernel

/-- Vector COMP4. -/
theorem test_comp_skipped : ends (exec .comp (base |> conf 0x00002 1)) (fun t => t.status == 0x102) = true := by decide +kernel

/-- Vector WIN2. -/
theorem test_win :
    ends (exec .win (((base |> conf 0x800100 1) |> coefs [256, 200]) |> works [1, -1, 2, -2, 128, -128, 3, 3])) (fun t =>
      workList t 8 == [1, -1, 1, -2, 128, -128, 2, 2].map some) = true := by decide +kernel

/-- Vector WIN4. -/
theorem test_win_noblk : ends (exec .win ((base |> conf 0x100 1) |> works [1, 2])) (fun t => t.status == 0x802) = true := by
  decide +kernel

/-- Vector XF2: the tail after the last full block is untouched. -/
theorem test_xform_tail : ends (exec .xform ((base |> conf 0x100 1) |> works [1, 2, 3, 4, 5, 6, 7, 8, 9, 10])) (fun t =>
    (t.mem.work 8).map BitVec.toInt == some 9 && (t.mem.work 9).map BitVec.toInt == some 10 && t.status == 2) = true := by
  decide +kernel

/-- Vector XF3. -/
theorem test_xform_noblk : ends (exec .xform ((base |> conf 0x200 1) |> works [1, 2, 3, 4])) (fun t =>
    workList t 4 == [1, 2, 3, 4].map some && t.status == 0x802) = true := by decide +kernel

/-- Vector ACC2. -/
theorem test_acc_peak :
    ends (exec .acc { ((base |> conf 0x20106 1) |> accs [30, 1]) |> works [3, 4, 1, 1] with passCnt := 5 }) (fun t =>
      t.mem.accs 2 == [30, 2] && t.passCnt == 9) = true := by decide +kernel

/-- Vector ACC4: the accumulator and the pass count wrap. -/
theorem test_acc_wraps :
    ends (exec .acc { ((base |> conf 0x10102 1) |> accs [2 ^ 64 - 1, 7]) |> works [1, 1, 0, 0] with passCnt := 0xFFFFFFFF }) (fun t =>
      t.mem.accs 2 == [1, 7] && t.passCnt == 1) = true := by decide +kernel

/-- Vector CLR1. -/
theorem test_clracc : ends (exec .clracc { (base |> conf 0x200 1) |> accs [1, 2, 3, 4, 9] with passCnt := 7 }) (fun t =>
    t.mem.accs 5 == [0, 0, 0, 0, 9] && t.passCnt == 0) = true := by decide +kernel

/-- Vector RMS1. -/
theorem test_rms : ends (exec .rms (base |> raws [137, 127, 127, 127])) (fun t =>
    t.rmsDb.toInt == -2214 && t.rmsDcDb.toInt == -3281 && t.status == 2) = true := by decide +kernel

/-- Vector RMS2. -/
theorem test_rms_zero : ends (exec .rms (base |> raws [127, 127, 127, 127])) (fun t =>
    t.rmsDb == 0x80000000 && t.rmsDcDb == 0x80000000 && t.status == 0x602) = true := by decide +kernel

/-- The example of R250 (vector EMIT1). -/
theorem test_emit :
    ends (exec .emit { (base |> conf 0x200 1) |> accs [100, 200, 400, 800] with passCnt := 2, fs := 1000, fc := 100000000 }) (fun t =>
      (List.range 4).map (fun i => (t.mem.out i).map BitVec.toInt) == [-699, -398, -1000, -1000].map some &&
      t.lowHz.toInt == 99999500 && t.highHz.toInt == 100000500 && t.stepChz == 25000 && t.emitCnt == 4 &&
      t.emitSamples == 2 && t.passCnt == 0 && t.mem.accs 4 == [0, 0, 0, 0]) = true := by decide +kernel

/-- Vector EMIT5: no bin emitted, the span and the reset all the same. -/
theorem test_emit_cropped :
    ends (exec .emit { (base |> conf 0x101 2) |> accs [10, 20] with passCnt := 3, fs := 3, crop := 65536 }) (fun t =>
      t.mem.out 0 == none && t.emitCnt == 0 && t.stepChz == 75 && t.mem.accs 2 == [0, 0]) = true := by decide +kernel

/-- RUN with bin count 1 is RMS (R285; vector RMS1). -/
theorem test_run_scalar : ends (exec .run (base |> raws [137, 127, 127, 127])) (fun t => t.rmsDb.toInt == -2214) = true := by
  decide +kernel

/-- RUN in BOXCAR mode with D = 4: WLEN and PASS_CNT (R288; FFT_N is free, so no bin is read). -/
theorem test_run_boxcar :
    ends (exec .run (((base |> conf 0x101 4) |> coefs [1, 1]) |> raws (List.replicate 16 127))) (fun t =>
      t.status == 2 && t.passCnt == 4 && t.wlen == 4) = true := by decide +kernel

/-! ## The host's side -/

/-- R83: WORKPAIR(-1, 2) and its read back. -/
theorem test_bus_work : ((base.busWrite 0x20000000 0x0002FFFF).mem.work 0, (base.busWrite 0x20000000 0x0002FFFF).mem.work 1,
    ((base.busWrite 0x20000000 0x0002FFFF).busRead 0x20000000).readData) = (some 0xFFFF, some 2, 0x0002FFFF) := by decide +kernel

/-- R350, R88: a write while busy, and one that is also a bus error. -/
theorem test_bus_busy : ((base |> pend 0).busWrite 0x008 5).status = 0x1001 ∧ ((base |> pend 0).busWrite 0x1234 5).status = 0x2001 := by
  decide +kernel

/-! ## Witnesses: states that meet the hypotheses of each statement that has any, at the boundaries of its clauses -/

/-- An outcome that `ends` accepts is a next state. -/
theorem ends_next {o : Host.Outcome State Fault Refusal} {f : State → Bool} (h : ends o f = true) : ∃ t, o = .next t ∧ f t = true := by
  cases o with
  | next t => exact ⟨t, rfl, h⟩
  | fault _ => cases h
  | refused _ => cases h

/-- A state in which the checks of a command fail with BAD_CONFIG: MODE reserved, FFT_LOG2 = 31. -/
def badConf : State := base |> conf 0x1F03 0

/-- A state in which a command's first failing check is a length: LEN and WLEN odd, the mode and the bin count the command needs. -/
def badLen : Instr → State
  | .boxcar => { (base |> conf 1 1) with wlen := 1 }
  | .rdec | .comp => { (base |> conf 2 1) with wlen := 1 }
  | .win | .xform | .acc => { (base |> conf 0x100 1) with wlen := 1 }
  | .nop | .conv | .dcr | .clracc | .rms | .emit | .run => { base with len := 1, wlen := 1 }

/-- Ready states of CONV: LEN = 4 with the bias 127, and LEN = 0 with the bias 128. -/
def convS : State := base |> raws [0, 127, 128, 255]
def convZero : State := base |> conf 0x20 1

/-- A ready state of DCR. -/
def dcrS : State := base |> works [10, -3, 12, -3, 14, -4, 3, 1]

/-- Ready states of BOXCAR: D = 1, and D = 2 with a pair left over. -/
def boxOne : State := (base |> conf 1 1) |> works [1, 2]
def boxTwo : State := (base |> conf 1 2) |> works [1, 2, 3, 4, 5, 6, 7, 8, 9, 10]

/-- Ready states of RDEC: P = 0 with nothing in the buffer, P = 1 at the least length, P = 2 at the least length. -/
def rdecZero : State := base |> conf 0x00002 1
def rdecOne : State := (base |> conf 0x10002 1) |> works (pairsOf 6 fun m => (m, -m))
def rdecTwo : State := (base |> conf 0x20002 1) |> works (pairsOf 12 fun m => (m, -m))

/-- Ready states of COMP: P = 0 and P = 2 outside the table of one row, P = 1 in it with a sample past the first 18. -/
def compZero : State := base |> conf 0x00002 1
def compTwo : State := base |> conf 0x20002 1
def compOne : State := (base |> conf 0x10002 1) |> works (pairsOf 19 fun m => (m + 1, -(m + 1)))

/-- Ready states of WIN, XFORM and ACC: no full block, one block with a tail, two blocks. -/
def blkNone : State := ((base |> conf 0x100 1) |> coefs [256, 200]) |> works [1, 2]
def blkOne : State := ((base |> conf 0x800100 1) |> coefs [256, 200]) |> works [1, -1, 2, -2, 128, -128]
def blkTwo : State := ((base |> conf 0x104 1) |> coefs [256, 200]) |> works [3, 4, 1, 1, 0, 0, 2, 2]

/-- Ready states of RMS: one pair, S = 0, and two pairs of different power. -/
def rmsOne : State := base |> raws [137, 127]
def rmsZero : State := base |> raws [127, 127]
def rmsTwo : State := base |> raws [137, 127, 127, 127]

/-- Ready states of EMIT: four bins one of which is zero, and none emitted. -/
def emitS : State := { (base |> conf 0x200 1) |> accs [100, 200, 400, 0] with passCnt := 2, fs := 1000, fc := 100000000 }
def emitNone : State := { (base |> conf 0x101 2) |> accs [10, 20] with passCnt := 3, fs := 3, crop := 65536 }

/-- Ready states of RUN above bin count 1, at the least LEN of each route. -/
def runNone : State := ((base |> conf 0x100 1) |> coefs [1, 1]) |> raws (List.replicate 4 130)
def runBox : State := ((base |> conf 0x101 4) |> coefs [1, 1]) |> raws (List.replicate 16 130)
def runBoxOne : State := ((base |> conf 0x101 1) |> coefs [1, 1]) |> raws (List.replicate 4 130)
def runRec : State := ((base |> conf 0x1010A 1) |> coefs [1, 1]) |> raws (List.replicate 12 130)
def runRecZero : State := ((base |> conf 0x0010A 1) |> coefs [1, 1]) |> raws (List.replicate 4 130)
def runSkip : State := ((base |> conf 0x2010A 1) |> coefs [1, 1]) |> raws (List.replicate 24 130)

theorem test_witness_opcode_map : 0x0D ≤ (0x0000000D : Word).toNat % 256 ∧ 0x0D ≤ (0xFFFFFFFF : Word).toNat % 256 := by decide

theorem test_witness_decoder_is_exact : decode 0x0000000C = .ok .run ∧ decode 0x0000000D = .error .badOpcode ∧
    decode 0x0000010C = .error .rsvdBits := by decide

theorem test_witness_illegal_words :
    (∀ w ∈ [0x0D, 0xFF, 0x10D], (base |> pend w).busy = true ∧ 0x0D ≤ (base |> pend w).pending.toNat % 256) ∧
    (∀ w ∈ [0x100, 0x8000000C], (base |> pend w).busy = true ∧ (base |> pend w).pending.toNat % 256 ≤ 0x0C ∧
      (base |> pend w).pending.toNat / 256 ≠ 0) ∧
    ∀ w ∈ [0x00, 0x0C], (base |> pend w).busy = true ∧ (base |> pend w).pending.toNat ≤ 0x0C := by decide +kernel

theorem test_witness_step_runs : (base |> pend 12).busy = true ∧ (base |> pend 12).pending = encode .run ∧
    (base |> pend 12).schedule = [] ∧ ({ (base |> pend 12) with schedule := [.engine] } : State).busy = true ∧
    ({ (base |> pend 12) with schedule := [.engine] } : State).pending = encode .run := by decide +kernel

theorem test_witness_idle : base.busy = false ∧ base.schedule = [] ∧
    ({ base with schedule := [.engine] } : State).busy = false := by decide +kernel

theorem test_witness_events : ∀ e ∈ [Event.engine, .reset, .read 0, .write 0x30 1],
    ∃ t, step { base with schedule := [e] } = .next t := by
  intro e he
  have h : (ends (step { base with schedule := [e] }) fun _ => true) = true := by
    revert e; decide +kernel
  obtain ⟨t, ht, -⟩ := ends_next h
  exact ⟨t, ht⟩

theorem test_witness_params : ({ ident with fftLog2Max := 25, rawCap := 2 ^ 27 } : Params).legal = true ∧
    ({ ident with fftLog2Max := 1, rawCap := 8, compTable := [] } : Params).legal = true ∧
    ({ ident with rawCap := 2 ^ 20 - 4 } : Params).legal = true ∧
    ({ ident with compTable := List.replicate 255 [0, 0, 0, 0, 0, 0, 0, 0, 0] } : Params).legal = true := by decide +kernel

theorem test_witness_bad_config : ∀ i : Instr, i ≠ .nop → BadConfig i badConf := by
  intro i hi
  refine (firstFailure_iff i badConf).1.1 ?_
  revert hi
  cases i <;> decide +kernel

theorem test_witness_bad_length : ∀ i : Instr, i ≠ .nop → i ≠ .clracc → i ≠ .emit →
    ¬BadConfig i (badLen i) ∧ BadLength i (badLen i) := by
  intro i h1 h2 h3
  refine (firstFailure_iff i (badLen i)).2.1.1 ?_
  revert h1 h2 h3
  cases i <;> decide +kernel

theorem test_witness_empty : ¬BadConfig .emit { emitS with passCnt := 0 } ∧ ¬BadLength .emit { emitS with passCnt := 0 } ∧
    EmptyAtEmit .emit { emitS with passCnt := 0 } :=
  (firstFailure_iff .emit { emitS with passCnt := 0 }).2.2.1 (by decide +kernel)

/-- CONV, DCR and RDEC at a length above RAW_CAP, and RDEC and RUN below their least length. -/
theorem test_witness_lengths : BadLength .conv { base with len := 0x100002 } ∧ BadLength .dcr { base with wlen := 0x100002 } ∧
    BadLength .rdec { (base |> conf 0x10002 1) with wlen := 8 } ∧ BadLength .run { (base |> conf 0x101 4) with len := 14 } := by
  refine ⟨?_, ?_, ?_, ?_⟩ <;> refine (((firstFailure_iff _ _).2.1).1 ?_).2 <;> decide +kernel

theorem test_witness_ready_conv : Ready .conv convS ∧ Ready .conv convZero :=
  ⟨ready_of_body (by decide +kernel) (by decide +kernel) (by decide +kernel),
   ready_of_body (by decide +kernel) (by decide +kernel) (by decide +kernel)⟩

theorem test_witness_ready_dcr : Ready .dcr dcrS ∧ Ready .dcr base :=
  ⟨ready_of_body (by decide +kernel) (by decide +kernel) (by decide +kernel),
   ready_of_body (by decide +kernel) (by decide +kernel) (by decide +kernel)⟩

/-- The mean of stream o of `dcrS`, whose four pairs are all it has. -/
def dcrMean (o : Nat) : Int := (∑ k ∈ Finset.range 4, dcrS.mem.workV (2 * k + o)).tdiv 4

theorem test_witness_dcr_zero_mean : Ready .dcr dcrS ∧ dcrS.wlenN = 8 ∧ ∀ o < 2, ∀ m < 4,
    -32768 ≤ dcrS.mem.workV (2 * m + o) - dcrMean o ∧ dcrS.mem.workV (2 * m + o) - dcrMean o ≤ 32767 :=
  ⟨test_witness_ready_dcr.1, by decide +kernel, by decide +kernel⟩

theorem test_witness_ready_boxcar : (Ready .boxcar boxOne ∧ boxOne.dsD = 1) ∧ Ready .boxcar boxTwo ∧ 2 ≤ boxTwo.dsD ∧
    2 * (boxTwo.wlenN / 2 / boxTwo.dsD) < boxTwo.wlenN :=
  ⟨⟨ready_of_body (by decide +kernel) (by decide +kernel) (by decide +kernel), by decide +kernel⟩,
   ready_of_body (by decide +kernel) (by decide +kernel) (by decide +kernel), by decide +kernel, by decide +kernel⟩

theorem test_witness_ready_rdec : (Ready .rdec rdecZero ∧ rdecZero.passes = 0) ∧
    (Ready .rdec rdecOne ∧ rdecOne.passes = 1 ∧ 0 < rdecOne.wlenN / 2 ^ 2) ∧
    Ready .rdec rdecTwo ∧ rdecTwo.passes = 2 ∧ rdecTwo.wlenN / 2 ^ 3 < rdecTwo.wlenN / 2 ^ 2 :=
  ⟨⟨ready_of_body (by decide +kernel) (by decide +kernel) (by decide +kernel), by decide +kernel⟩,
   ⟨ready_of_body (by decide +kernel) (by decide +kernel) (by decide +kernel), by decide +kernel, by decide +kernel⟩,
   ready_of_body (by decide +kernel) (by decide +kernel) (by decide +kernel), by decide +kernel, by decide +kernel⟩

theorem test_witness_ready_comp : (Ready .comp compZero ∧ compZero.passes < 1) ∧
    (Ready .comp compTwo ∧ compTwo.params.compTable.length < compTwo.passes) ∧
    Ready .comp compOne ∧ 1 ≤ compOne.passes ∧ compOne.passes ≤ compOne.params.compTable.length ∧ 18 < compOne.wlenN / 2 :=
  ⟨⟨ready_of_body (by decide +kernel) (by decide +kernel) (by decide +kernel), by decide +kernel⟩,
   ⟨ready_of_body (by decide +kernel) (by decide +kernel) (by decide +kernel), by decide +kernel⟩,
   ready_of_body (by decide +kernel) (by decide +kernel) (by decide +kernel), by decide +kernel, by decide +kernel,
   by decide +kernel⟩

theorem test_witness_comp_sum : ident.legal = true ∧ 1 ≤ ident.compTable.length := by decide +kernel

theorem test_witness_ready_win : (Ready .win blkNone ∧ blkNone.wlenN / (2 * blkNone.bins) = 0) ∧
    Ready .win blkOne ∧ blkOne.wlenN / (2 * blkOne.bins) = 1 ∧ Ready .win blkTwo ∧ blkTwo.wlenN / (2 * blkTwo.bins) = 2 :=
  ⟨⟨ready_of_body (by decide +kernel) (by decide +kernel) (by decide +kernel), by decide +kernel⟩,
   ready_of_body (by decide +kernel) (by decide +kernel) (by decide +kernel), by decide +kernel,
   ready_of_body (by decide +kernel) (by decide +kernel) (by decide +kernel), by decide +kernel⟩

theorem test_witness_ready_xform : (Ready .xform blkNone ∧ blkNone.wlenN / (2 * blkNone.bins) = 0) ∧
    Ready .xform blkTwo ∧ blkTwo.wlenN / (2 * blkTwo.bins) = 2 :=
  ⟨⟨ready_of_body (by decide +kernel) (by decide +kernel) (by decide +kernel), by decide +kernel⟩,
   ready_of_body (by decide +kernel) (by decide +kernel) (by decide +kernel), by decide +kernel⟩

theorem test_witness_ready_acc : (Ready .acc blkNone ∧ blkNone.wlenN / (2 * blkNone.bins) = 0) ∧
    (Ready .acc blkOne ∧ blkOne.peak = false ∧ blkOne.wlenN / (2 * blkOne.bins) = 1) ∧
    Ready .acc blkTwo ∧ blkTwo.peak = true ∧ blkTwo.wlenN / (2 * blkTwo.bins) = 2 :=
  ⟨⟨ready_of_body (by decide +kernel) (by decide +kernel) (by decide +kernel), by decide +kernel⟩,
   ⟨ready_of_body (by decide +kernel) (by decide +kernel) (by decide +kernel), by decide +kernel, by decide +kernel⟩,
   ready_of_body (by decide +kernel) (by decide +kernel) (by decide +kernel), by decide +kernel, by decide +kernel⟩

/-- For the two parts of AccumulationLaws: lists of one block and of two, and a peak-hold state. -/
theorem test_witness_accumulation : blkOne.params.legal = true ∧ blkOne.CommonOk ∧ 1 ≤ blkOne.fftLog2 ∧ blkOne.peak = false ∧
    2 * [((1, 2) : Pair), (3, 4)].length ≤ blkOne.params.rawCap ∧
    2 * [((1, 2) : Pair), (3, 4), (5, 6), (7, 8), (9, 9)].length ≤ blkOne.params.rawCap ∧ Ready .acc blkTwo ∧ blkTwo.peak = true :=
  ⟨by decide +kernel, by unfold State.CommonOk; decide +kernel, by decide +kernel, by decide +kernel, by decide +kernel,
   by decide +kernel, test_witness_ready_acc.2.2.1, by decide +kernel⟩

theorem test_witness_ready_clracc : Ready .clracc base :=
  ready_of_body (by decide +kernel) (by decide +kernel) (by decide +kernel)

theorem test_witness_ready_rms : Ready .rms rmsOne ∧ Ready .rms rmsTwo ∧ Ready .rms rmsZero ∧
    ∑ p ∈ Finset.range (rmsZero.lenN / 2), rawPower rmsZero.mem 127 p = 0 ∧
    ∑ p ∈ Finset.range (rmsTwo.lenN / 2), rawPower rmsTwo.mem 127 p = 100 ∧ rmsTwo.cfg.getLsbD 5 = false :=
  ⟨ready_of_body (by decide +kernel) (by decide +kernel) (by decide +kernel),
   ready_of_body (by decide +kernel) (by decide +kernel) (by decide +kernel),
   ready_of_body (by decide +kernel) (by decide +kernel) (by decide +kernel),
   by decide +kernel, by decide +kernel, by decide +kernel⟩

/-- rms ≤ dc with one pair, and dc < rms with two of powers 100 and 0. -/
theorem test_witness_rms_dc :
    √((∑ p ∈ Finset.range 1, rawPower rmsOne.mem 127 p : ℕ) / ((1 : ℕ) : ℝ)) ≤
      (∑ p ∈ Finset.range 1, √(rawPower rmsOne.mem 127 p : ℝ)) / ((1 : ℕ) : ℝ) ∧
    (∑ p ∈ Finset.range 2, √(rawPower rmsTwo.mem 127 p : ℝ)) / ((2 : ℕ) : ℝ) <
      √((∑ p ∈ Finset.range 2, rawPower rmsTwo.mem 127 p : ℕ) / ((2 : ℕ) : ℝ)) := by
  refine ⟨by simp, ?_⟩
  have h0 : rawPower rmsTwo.mem 127 0 = 100 := by decide +kernel
  have h1 : rawPower rmsTwo.mem 127 1 = 0 := by decide +kernel
  simp only [Finset.sum_range_succ, Finset.sum_range_zero, h0, h1]
  have h : √((100 : ℕ) : ℝ) = 10 := by
    rw [show ((100 : ℕ) : ℝ) = 10 ^ 2 by norm_num]
    exact Real.sqrt_sq (by norm_num)
  rw [h]
  apply Real.lt_sqrt_of_sq_lt
  norm_num

theorem test_witness_references : Ready .rms rmsTwo ∧ rmsTwo.cfg.getLsbD 4 = false ∧
    0 < rmsTwo.lenN / 2 ∧ rawPower rmsTwo.mem rmsTwo.bias 0 ≠ 0 :=
  ⟨test_witness_ready_rms.2.1, by decide +kernel, by decide +kernel, by decide +kernel⟩

theorem test_witness_ready_emit : Ready .emit emitS ∧ Ready .emit emitNone ∧
    emitOrder emitS.mem 4 1 = 0 ∧ emitOrder emitS.mem 4 2 ≠ 0 ∧ emitNone.bins - 2 * (emitNone.bins * emitNone.cropC / 131072) = 0 :=
  ⟨ready_of_body (by decide +kernel) (by decide +kernel) (by decide +kernel),
   ready_of_body (by decide +kernel) (by decide +kernel) (by decide +kernel), by decide +kernel, by decide +kernel,
   by decide +kernel⟩

theorem test_witness_ready_run : (Ready .run runNone ∧ runNone.mode = .none) ∧ (Ready .run runBox ∧ runBox.mode = .boxcar) ∧
    (Ready .run runBoxOne ∧ runBoxOne.dsD = 1) ∧ (Ready .run runRec ∧ runRec.mode = .recursive) ∧
    (Ready .run runRecZero ∧ runRecZero.passes = 0) ∧ Ready .run runSkip ∧ runSkip.params.compTable.length < runSkip.passes :=
  ⟨⟨ready_of_body (by decide +kernel) (by decide +kernel) (by decide +kernel), by decide +kernel⟩,
   ⟨ready_of_body (by decide +kernel) (by decide +kernel) (by decide +kernel), by decide +kernel⟩,
   ⟨ready_of_body (by decide +kernel) (by decide +kernel) (by decide +kernel), by decide +kernel⟩,
   ⟨ready_of_body (by decide +kernel) (by decide +kernel) (by decide +kernel), by decide +kernel⟩,
   ⟨ready_of_body (by decide +kernel) (by decide +kernel) (by decide +kernel), by decide +kernel⟩,
   ready_of_body (by decide +kernel) (by decide +kernel) (by decide +kernel), by decide +kernel⟩

/-- RunIsItsSteps, RoutingLaw and RunAddsPasses: bin count 1, and above it. -/
theorem test_witness_routing : ¬Rejected .run rmsTwo ∧ rmsTwo.fftLog2 = 0 ∧ ¬Rejected .run runSkip ∧ runSkip.fftLog2 ≠ 0 ∧
    (∃ t, exec .run rmsTwo = .next t) ∧ ∃ t, exec .run runSkip = .next t :=
  ⟨(firstFailure_checksOf _ _).1 (by decide +kernel), by decide +kernel, (firstFailure_checksOf _ _).1 (by decide +kernel),
   by decide +kernel, (ends_next (f := fun _ => true) (by decide +kernel)).imp fun _ h => h.1,
   (ends_next (f := fun _ => true) (by decide +kernel)).imp fun _ h => h.1⟩

/-- RoutingLaw: memory with the same RAW below LEN and another WORK and WIN, for a RUN that completes and one that
faults. -/
theorem test_witness_routing_memory :
    (∀ j < rmsTwo.lenN, ((rmsTwo |> works [5]) |> coefs [6]).mem.raw j = rmsTwo.mem.raw j) ∧
    ((rmsTwo |> works [5]) |> coefs [6]).mem.work 0 ≠ rmsTwo.mem.work 0 ∧
    ((rmsTwo |> works [5]) |> coefs [6]).mem.win 0 ≠ rmsTwo.mem.win 0 ∧
    ({ base with len := 4 } : State).fftLog2 = 0 ∧ uninit (exec .run { base with len := 4 }) = true ∧
    (∀ j < 4, ((base |> works [5]) |> coefs [6]).mem.raw j = base.mem.raw j) ∧
    ((base |> works [5]) |> coefs [6]).mem.work 0 ≠ base.mem.work 0 := by
  refine ⟨?_, ?_, ?_, ?_, ?_, ?_, ?_⟩ <;> decide +kernel

/-- UninitExactly: a command that passes its checks with an operand unwritten; ErrorsInOrder, PreciseErrors: one that passes and
completes. -/
theorem test_witness_uninit : ¬Rejected .conv { base with len := 4 } ∧ ¬OperandsWritten .conv { base with len := 4 } ∧
    base.params.legal = true ∧ Rejected .boxcar base ∧ ∃ t, ¬Rejected .conv convS ∧ exec .conv convS = .next t := by
  have hr : ¬Rejected .conv { base with len := 4 } := (firstFailure_checksOf _ _).1 (by decide +kernel)
  refine ⟨hr, (bodyOf_none_iff (by decide +kernel) hr).1 (by decide +kernel), by decide +kernel, ?_, ?_⟩
  · exact .inl ((firstFailure_iff .boxcar base).1.1 (by decide +kernel))
  · obtain ⟨t, ht, -⟩ := ends_next (o := exec .conv convS) (f := fun _ => true) (by decide +kernel)
    exact ⟨t, test_witness_ready_conv.1.2.1, ht⟩

/-- PreciseErrors: each sticky flag of a command, raised from clear. -/
theorem test_witness_flags : ∀ c ∈ [(Instr.comp, Flag.compskip, compTwo), (.rms, .logdom, rmsZero), (.rms, .logzero, rmsZero),
    (.acc, .noblk, blkNone), (.emit, .logzero, emitS)], getFlag c.2.2.status c.2.1 = false ∧
    ends (exec c.1 c.2.2) (fun t => getFlag t.status c.2.1) = true := by decide +kernel

theorem test_witness_completion : base.busy = false ∧ (base |> pend 0).busy = true ∧ errField (base |> pend 0).status = 0 ∧
    ends (engineTurn (base |> pend 0)) (fun _ => true) = true ∧ ends (engineTurn (base |> pend 0x0D)) (fun _ => true) = true ∧
    getFlag ({ base with status := 4, schedule := [.write 0x028 4] } : State).status .errf = true ∧
    ends (step { base with status := 4, schedule := [.write 0x028 4] }) (fun t => !getFlag t.status .errf) = true := by decide +kernel

/-- CommandsLeaveOperands and ResultsHaveOneWriter: a command that completes on a legal instance, RUN above bin count 1 among them, and
an ACC cell at N. -/
theorem test_witness_writers : base.params.legal = true ∧ (∃ t, exec .emit emitS = .next t) ∧ (∃ t, exec .run runRec = .next t) ∧
    runRec.fftLog2 ≠ 0 ∧ runRec.bins ≤ 2 ∧ 2 < 2 ^ runRec.params.fftLog2Max :=
  ⟨by decide +kernel, (ends_next (f := fun _ => true) (by decide +kernel)).imp fun _ h => h.1,
   (ends_next (f := fun _ => true) (by decide +kernel)).imp fun _ h => h.1, by decide +kernel, by decide +kernel, by decide +kernel⟩

/-- The invariant, with memory listed, a command accepted and its step taken. -/
theorem test_witness_inv : ((emitS |> pend 11)).Inv ∧ ∃ t, step (emitS |> pend 11) = .next t := by
  refine ⟨?_, (ends_next (f := fun _ => true) (by decide +kernel)).imp fun _ h => h.1⟩
  unfold State.Inv Memory.mapped State.reservedZero State.statusLegal
  decide +kernel

/-- StepKeepsWholeCells: a legal state with whole cells, and a step of the host that lists some. -/
theorem test_witness_whole_cells : ({ base with schedule := [.write 0x20000000 0x0002FFFF] } : State).Inv ∧
    ({ base with schedule := [.write 0x20000000 0x0002FFFF] } : State).mem.wholeCells ∧
    ∃ t, step { base with schedule := [.write 0x20000000 0x0002FFFF] } = .next t := by
  refine ⟨?_, ?_, (ends_next (f := fun _ => true) (by decide +kernel)).imp fun _ h => h.1⟩
  · unfold State.Inv Memory.mapped State.reservedZero State.statusLegal
    decide +kernel
  · have h : ∀ a, Memory.written [] a = decide (0x40000000 ≤ a ∧ a < 0x50000000) := by
      intro a
      by_cases h : 0x40000000 ≤ a ∧ a < 0x50000000 <;>
        simp [Memory.written, Memory.read, Memory.lookup, Memory.unlisted, accBase, slotSize, h]
    show Memory.wholeCells []
    refine ⟨fun j hj => ?_, fun j hj => ?_, fun i hi k hk => ?_⟩ <;>
      rw [h, h, decide_eq_decide] <;> simp only [workAddr, workBase, winAddr, winBase, outAddr, outBase] <;> omega

/-- NopOnlyCompletes: accepted with DONE_IE = 1. -/
theorem test_witness_nop : base.busy = false ∧ doneIe ({ base with irqEn := 1 } : State).irqEn = true := by decide +kernel

/-- ConvIgnoresWork: another buffer than the one there. -/
theorem test_witness_conv_work : (∃ t, exec .conv convS = .next t) ∧ convS.mem.setWork [5] ≠ convS.mem ∧
    SameOutside convS.mem (convS.mem.setWork [5]) (workAddr 0) (2 * convS.params.rawCap) := by
  refine ⟨(ends_next (f := fun _ => true) (by decide +kernel)).imp fun _ h => h.1, by decide +kernel, ?_⟩
  intro x hx
  apply Memory.read_setWork_outside
  have : convS.params.rawCap = 2 ^ 20 := by decide +kernel
  simp only [List.length_cons, List.length_nil]
  omega

theorem test_witness_log : (1 : Nat) ≤ 1000 ∧ (1 : Nat) ≤ 2 ^ 64 - 1 ∧ 2 ^ 64 - 1 < 2 ^ 64 ∧ 2 ^ 32 - 1 < 2 ^ 32 ∧ sentinel = 0x80000000 := by
  decide

theorem test_witness_reset : ({ base with schedule := [.reset] } : State).schedule = .reset :: [] := by decide +kernel

theorem test_witness_accept : base.busy = false ∧ (base |> pend 0).busy = true := by decide +kernel

/-- WritesWhileBusy and ReadsWhileBusy: the first and the last word of a window, the words past it, a misaligned one, CTAB. -/
theorem test_witness_busy : (base |> pend 0).busy = true ∧ (base |> pend 0).params.legal = true ∧
    (∀ a ∈ [0x000, 0x024, 0x030, 0x054, 0x10000000, 0x100FFFFC, 0x5003FFFC], a % 4 = 0 ∧ inMap ident a ∧
      a < 0x60000000 ∧ a ≠ 0x028 ∧ a ≠ 0x02C) ∧
    (∀ a ∈ [0x002, 0x058, 0x10100000, 0x50040000, 0x60000000, 0x60000020, 0x70000000], a % 4 ≠ 0 ∨ ¬inMap ident a ∨
      0x60000000 ≤ a) ∧
    ∀ a ∈ [0x020, 0x024, 0x034, 0x054, 0x10000000, 0x5003FFFC], a % 4 = 0 ∧ inMap ident a ∧
      (a = 0x020 ∨ a = 0x024 ∨ (0x034 ≤ a ∧ a < 0x60000000)) := by
  unfold inMap
  refine ⟨?_, ?_, ?_, ?_, ?_⟩ <;> decide +kernel

/-- BusErrors: an access that is one, a CTAB write, an access that is none. -/
theorem test_witness_bus_errors : base.params.legal = true ∧ (0x003 : Word).toNat % 4 ≠ 0 ∧ ¬inMap ident (0x60000024 : Word).toNat ∧
    0x60000000 ≤ (0x60000000 : Word).toNat ∧ (0x054 : Word).toNat % 4 = 0 ∧ inMap ident (0x054 : Word).toNat := by
  unfold inMap
  decide +kernel

theorem test_witness_irq : ({ base with status := 2, irqEn := 1 } : State).irq = true ∧
    ({ base with status := 4, irqEn := 2 } : State).irq = true := by decide +kernel

/-- ReadOnlyRegisters: the first and the last offset of each clause. -/
theorem test_witness_read_only : (0x058 ≤ (0x058 : Word).toNat ∧ (0x002 : Word).toNat % 4 ≠ 0 ∧ (0xFFF : Word).toNat < 0x1000) ∧
    base.busy = false ∧
    ∀ a ∈ [0x000, 0x004, 0x034, 0x054], a % 4 = 0 ∧ (a < 0x008 ∨ (0x034 ≤ a ∧ a < 0x058)) := by decide +kernel

/-- WordPacking: the last word of each window lies in it, and cells of each window are written. -/
theorem test_witness_packing : base.params.legal = true ∧ base.busy = false ∧ 4 * (2 ^ 18 - 1) < ident.rawCap ∧
    4 * (2 ^ 19 - 1) < 2 * ident.rawCap ∧ 4 * (2 ^ 15 - 1) < 2 * 2 ^ ident.fftLog2Max ∧
    8 * (2 ^ 16 - 1) < 8 * 2 ^ ident.fftLog2Max ∧ 4 * (2 ^ 16 - 1) < 4 * 2 ^ ident.fftLog2Max ∧ 1 ≤ ident.compTable.length ∧
    convS.mem.raw 3 = some 255 ∧ blkOne.mem.work 1 = some 0xFFFF ∧ blkOne.mem.win 1 = some 200 ∧
    (emitS.mem.setOut [7]).out 0 = some 7 := by decide +kernel

/-- AccessesHaveNoOtherEffect: memory in canonical form with cells listed. -/
theorem test_witness_accesses : convS.mem.wf ∧ (0x10000000 : Word) ≠ 0x030 := by decide +kernel

end Sys2Proof.Tests
end

/-! Every step leaves a legal state legal (00_scope R6 to R8, 10_state R35 to R45, 20_memory R82 and R89, 60_exceptions R301): first the
parts of `State.Inv` and the updates of the state that keep it, then the host's accesses, reset and the engine's turn, then the step. -/

namespace Sys2Proof.Machine

/-! ## The parts of the invariant -/

theorem State.Inv.params_legal {s : State} : s.Inv → s.params.legal = true := fun ⟨hp, _⟩ => hp

theorem State.Inv.mem_wf {s : State} : s.Inv → s.mem.wf := fun ⟨_, hwf, _⟩ => hwf

theorem State.Inv.mem_mapped {s : State} : s.Inv → s.mem.mapped s.params := fun ⟨_, _, hm, _⟩ => hm

theorem State.Inv.reservedZero {s : State} : s.Inv → s.reservedZero := fun ⟨_, _, _, hr, _⟩ => hr

theorem State.Inv.status_reserved {s : State} : s.Inv → s.status &&& ~~~statusMask = 0 :=
  fun ⟨_, _, _, ⟨_, _, _, _, hr⟩, _⟩ => hr

theorem State.Inv.err_le {s : State} : s.Inv → (errField s.status).toNat ≤ 5 := fun ⟨_, _, _, _, herr, _⟩ => herr

/-- While a command runs neither DONE nor an error code shows (R45). -/
theorem State.Inv.clear_of_busy {s : State} : s.Inv → s.busy = true → getFlag s.status .done = false ∧ errField s.status = 0 :=
  fun ⟨_, _, _, _, _, hrun⟩ => hrun

/-! ## Updates of the state -/

/-- A legal state stays legal under a STATUS with its reserved bits 0 that the block can show. -/
theorem State.Inv.withStatus {s : State} {w : Word} (h : s.Inv) (hr : w &&& ~~~statusMask = 0)
    (hl : (s.withStatus w).statusLegal) : (s.withStatus w).Inv := by
  obtain ⟨hcfg, hds, hcrop, hirq, -⟩ := h.reservedZero
  exact ⟨h.params_legal, h.mem_wf, h.mem_mapped, ⟨hcfg, hds, hcrop, hirq, hr⟩, hl⟩

/-- A legal state stays legal under canonical memory inside the windows. -/
theorem State.Inv.withMem {s : State} {m : Memory} (h : s.Inv) (hwf : m.wf) (hm : m.mapped s.params) : (s.withMem m).Inv :=
  ⟨h.params_legal, hwf, hm, h.reservedZero, h.err_le, h.clear_of_busy⟩

/-- A flag other than BUSY and DONE can be set in any legal state. -/
theorem State.Inv.flag {s : State} {f : Flag} (h : s.Inv) (hb : f ≠ .busy) (hd : f ≠ .done) : (s.flag f).Inv := by
  refine h.withStatus (by rw [setFlag_reserved]; exact h.status_reserved) ⟨by simpa using h.err_le, fun hbusy => ?_⟩
  have hbusy : s.busy = true := by rw [← State.busy_flag s hb]; exact hbusy
  simpa [hd] using h.clear_of_busy hbusy

/-- Completion leaves a legal state legal: it clears BUSY and keeps the error code. -/
theorem State.Inv.complete {s : State} (h : s.Inv) : s.complete.Inv := by
  refine h.withStatus (clearFlag_reserved _ ?_) ⟨by simpa using h.err_le, fun hbusy => absurd hbusy (by simp [State.busy])⟩
  rw [setFlag_reserved]
  exact h.status_reserved

/-- A raised error leaves a legal state legal: its code is assigned (R301) and BUSY is cleared. -/
theorem State.Inv.raise {s : State} (h : s.Inv) (e : CmdError) : (s.raise e).Inv := by
  refine h.withStatus (clearFlag_reserved _ ?_) ⟨by simpa using errCode_le e, fun hbusy => absurd hbusy (by simp [State.busy])⟩
  rw [State.withStatus_status, setFlag_reserved, setFlag_reserved]
  exact setErr_reserved _ h.status_reserved

/-- Acceptance leaves a legal state legal: it clears DONE and the error code as it sets BUSY (R45). -/
theorem State.Inv.accept {s : State} (h : s.Inv) (w : Word) : (s.accept w).Inv := by
  obtain ⟨hcfg, hds, hcrop, hirq, hr⟩ := h.reservedZero
  refine ⟨h.params_legal, h.mem_wf, h.mem_mapped, ⟨hcfg, hds, hcrop, hirq, ?_⟩, by simp, fun _ => by simp⟩
  exact setErr_reserved _ (clearFlag_reserved _ (by rwa [setFlag_reserved]))

/-- A host write to STATUS leaves a legal state legal: it clears bits, BUSY and the error code not among them (R43). -/
theorem State.Inv.w1c {s : State} (h : s.Inv) (v : Word) : (s.withStatus (w1c s.status v)).Inv := by
  refine h.withStatus (w1c_reserved v h.status_reserved) ⟨by simpa using h.err_le, fun hbusy => ?_⟩
  simp only [State.busy, State.withStatus_status, getFlag_w1c, Bool.and_eq_true] at hbusy
  obtain ⟨hdone, hzero⟩ := h.clear_of_busy hbusy.1
  simp [getFlag_w1c, hdone, hzero]

/-! ## Host accesses and reset -/

/-- A word written through the mask of a register has the register's reserved bits 0. -/
theorem masked_reserved (v mask : Word) : (v &&& mask) &&& ~~~mask = 0 := by
  simp [BitVec.and_assoc]

/-- Every register write leaves a legal state legal. -/
theorem State.Inv.writeReg {s : State} (h : s.Inv) (r : Reg) (v : Word) : (s.writeReg r v).Inv := by
  have ⟨hp, hwf, hm, ⟨hcfg, hds, hcrop, hirq, hr⟩, hl⟩ := h
  cases r with
  | cfg => exact ⟨hp, hwf, hm, ⟨masked_reserved v cfgMask, hds, hcrop, hirq, hr⟩, hl⟩
  | ds => exact ⟨hp, hwf, hm, ⟨hcfg, masked_reserved v dsMask, hcrop, hirq, hr⟩, hl⟩
  | crop => exact ⟨hp, hwf, hm, ⟨hcfg, hds, masked_reserved v cropMask, hirq, hr⟩, hl⟩
  | irqEn => exact ⟨hp, hwf, hm, ⟨hcfg, hds, hcrop, masked_reserved v irqEnMask, hr⟩, hl⟩
  | status => exact h.w1c v
  | cmd => exact h.accept v
  | fc | fs | len | wlen | passCnt => exact ⟨hp, hwf, hm, ⟨hcfg, hds, hcrop, hirq, hr⟩, hl⟩
  | id | params | rmsDb | rmsDcDb | emitCnt | emitSamples | lowHzLo | lowHzHi | highHzLo | highHzHi | stepChz => exact h

/-- The extents of the windows are whole words: the four bytes of a word of RAM lie in the windows with it (R7, R82). -/
theorem windowOf_word_byte {p : Params} (hl : p.legal = true) {a : Word} (ht : target p a = .ram) {k : Nat} (hk : k < 4) :
    windowOf p (a.toNat + k) = .ram ∨ windowOf p (a.toNat + k) = .out := by
  have h4 : a.toNat % 4 = 0 := by
    by_contra hn
    rw [target_misaligned p hn] at ht
    cases ht
  rw [target_aligned p h4] at ht
  have hin : 0x58 ≤ a.toNat ∧ a.toNat < 0x60000000 ∧ inMap p a.toNat := by
    rcases windowOf_cases hl a.toNat with ⟨hlt, e⟩ | ⟨h1, h2, h3, -⟩ | ⟨-, -, e⟩ | ⟨-, -, e⟩
    · obtain ⟨r, hr⟩ := regAt_some h4 hlt
      rw [e, hr] at ht
      cases ht
    · exact ⟨h1, h2, h3⟩
    · rw [e] at ht; cases ht
    · rw [e] at ht; cases ht
  have hin' : inMap p (a.toNat + k) := by
    obtain ⟨h1, -, hcap, -, -⟩ := Params.legal_bounds hl
    have heven : 2 ^ p.fftLog2Max % 2 = 0 := Nat.mod_eq_zero_of_dvd (dvd_pow_self 2 (by omega))
    obtain ⟨-, -, hin⟩ := hin
    simp only [inMap] at hin ⊢
    omega
  rcases windowOf_cases hl (a.toNat + k) with ⟨hlt, -⟩ | ⟨-, -, -, e⟩ | ⟨hge, -⟩ | ⟨-, hout, -⟩
  · omega
  · exact e
  · omega
  · exact absurd hin' hout

/-- A host write of a word of RAM keeps memory inside the windows. -/
theorem Memory.mapped_writeWord {p : Params} (hl : p.legal = true) {m : Memory} (hm : m.mapped p) {a : Word}
    (ht : target p a = .ram) (v : Nat) : (m.writeBytes a.toNat (bytesLe 4 v)).mapped p := by
  intro c hc
  rcases Memory.mem_writeBytes hc with ⟨hlo, hhi⟩ | hc
  · rw [bytesLe_length] at hhi
    rw [← Nat.add_sub_cancel' hlo]
    exact windowOf_word_byte hl ht (by omega)
  · exact hm c hc

/-- Every bus write leaves a legal state legal. -/
theorem State.Inv.busWrite {s : State} (h : s.Inv) (a v : Word) : (s.busWrite a v).Inv := by
  rcases busWrite_cases s a v with ⟨-, e⟩ | ⟨-, e⟩ | ⟨r, -, -, e⟩ | ⟨-, ht, e⟩ | ⟨-, -, e⟩ <;> rw [e]
  · exact h.flag (by decide) (by decide)
  · exact h.flag (by decide) (by decide)
  · exact h.writeReg r v
  · exact h.withMem (Memory.wf_writeBytes h.mem_wf _ _) (Memory.mapped_writeWord h.params_legal h.mem_mapped ht _)
  · exact h

/-- Every bus read leaves a legal state legal. -/
theorem State.Inv.busRead {s : State} (h : s.Inv) (a : Word) : (s.busRead a).Inv := by
  obtain ⟨w, n, e | ⟨-, e⟩⟩ := busRead_cases s a <;> rw [e]
  · exact h
  · exact h.flag (f := .buserr) (by decide) (by decide)

/-- Reset leaves a legal state, whatever the state before was, when the parameters are legal (R340). -/
theorem inv_applyReset {s : State} (hp : s.params.legal = true) : s.applyReset.Inv :=
  have hm : Memory.mapped s.params [] := fun _ hc => nomatch hc
  have hr : s.applyReset.reservedZero := by simp only [State.reservedZero, State.applyReset_cfg, State.applyReset_ds,
    State.applyReset_crop, State.applyReset_irqEn, State.applyReset_status]; decide
  have hl : s.applyReset.statusLegal := by simp only [State.statusLegal, State.busy, State.applyReset_status]; decide
  ⟨hp, Memory.wf_nil, hm, hr, hl⟩

/-! ## The engine's turn -/

/-- What keeps the registers no command's pseudocode writes, and ends with canonical memory inside the windows, keeps a legal state
legal. -/
theorem Keeps.inv {s t : State} (k : Keeps s t) (h : s.Inv) (hwf : t.mem.wf) (hm : t.mem.mapped s.params) : t.Inv := by
  obtain ⟨hcfg, hds, hcrop, hirq, hr⟩ := h.reservedZero
  have hr' : t.reservedZero := ⟨by rwa [k.cfg], by rwa [k.ds], by rwa [k.crop], by rwa [k.irqEn], k.reserved hr⟩
  refine ⟨by rw [k.params]; exact h.params_legal, hwf, by rwa [k.params], hr', by rw [k.err]; exact h.err_le, fun hbusy => ?_⟩
  rw [State.busy, k.flags .busy (by simp)] at hbusy
  rw [k.flags .done (by simp), k.err]
  exact h.clear_of_busy hbusy

/-- Every command that ends in a next state leaves a legal state legal. -/
theorem State.Inv.exec {i : Instr} {s t : State} (h : s.Inv) (ht : exec i s = .next t) : t.Inv := by
  rw [exec_eq] at ht
  obtain ⟨e, -, rfl⟩ | ⟨hc, u, hu, rfl⟩ := runCommand_next ht
  · exact h.raise e
  · have hok := (firstFailure_checksOf i s).1 hc
    have hm := body_mapped h.params_legal hok h.mem_wf h.mem_mapped hu
    exact ((keeps_bodyOf hu).inv h (body_wf h.mem_wf hu) hm).complete

/-- The engine's turn leaves a legal state legal. -/
theorem State.Inv.engineTurn {s t : State} (h : s.Inv) (ht : engineTurn s = .next t) : t.Inv := by
  rcases engineTurn_cases s with ⟨-, e⟩ | ⟨-, c, -, e⟩ | ⟨-, i, -, e⟩ <;> rw [e] at ht
  · cases ht; exact h
  · cases ht; exact h.raise c
  · exact h.exec ht

/-! ## The step -/

/-- The legal states do not depend on what the agents do next. -/
theorem State.Inv.withSchedule {s : State} (h : s.Inv) (rest : List Event) : ({ s with schedule := rest } : State).Inv := h

/-- Settles O14: the host's accesses, reset and the engine's turn each keep `State.Inv`, and a step is one of them. -/
theorem stepKeepsLegalStates : Obligations.StepKeepsLegalStates := by
  intro s t h ht
  rcases step_next_cases ht with ⟨-, e⟩ | ⟨rest, -, e⟩ | ⟨a, v, rest, -, rfl⟩ | ⟨a, rest, -, rfl⟩ | ⟨rest, -, rfl⟩
  · exact h.engineTurn e
  · exact (h.withSchedule rest).engineTurn e
  · exact (h.withSchedule rest).busWrite a v
  · exact (h.withSchedule rest).busRead a
  · exact inv_applyReset (h.withSchedule rest).params_legal

end Sys2Proof.Machine

/-! Written marks stay on whole cells (10_state R56, 20_memory R83): when a write keeps the marks of one aligned cell alike, that the
commands reach memory by such writes alone, what a completed command may have written, and then each kind of step. -/

namespace Sys2Proof.Machine

/-! ## Written marks -/

/-- Two addresses are marked alike: both written or both unwritten. -/
def Memory.sameMark (m : Memory) (x y : Nat) : Prop := m.written x = m.written y

/-- Addresses of one aligned cell of g bytes lie in a range of whole cells together. -/
theorem range_iff_of_div_eq {g a n x y : Nat} (hg : 0 < g) (ha : g ∣ a) (hn : g ∣ n) (hxy : x / g = y / g) :
    a ≤ x ∧ x < a + n ↔ a ≤ y ∧ y < a + n := by
  obtain ⟨b, rfl⟩ := ha
  obtain ⟨k, rfl⟩ := hn
  have key : ∀ z, g * b ≤ z ∧ z < g * b + g * k ↔ b ≤ z / g ∧ z / g < b + k := fun z => by
    rw [← Nat.mul_add, Nat.le_div_iff_mul_le hg, Nat.div_lt_iff_lt_mul hg, Nat.mul_comm b, Nat.mul_comm (b + k)]
  rw [key x, key y, hxy]

/-- Writing bytes marks their range written and changes no other mark. -/
theorem Memory.written_writeBytes (m : Memory) (a x : Nat) (bs : List Byte) :
    (m.writeBytes a bs).written x = (decide (a ≤ x ∧ x < a + bs.length) || m.written x) := by
  unfold Memory.written
  rw [Memory.read_writeBytes]
  by_cases h : a ≤ x ∧ x < a + bs.length
  · simp [h, show x - a < bs.length by omega]
  · simp [h]

section SameMark

variable {g x y : Nat} (hg : 0 < g) (hxy : x / g = y / g)
include hg hxy

/-- A write of whole aligned cells of g bytes keeps the marks of one such cell alike. -/
theorem Memory.sameMark_writeBytes {m : Memory} (h : m.sameMark x y) {a : Nat} {bs : List Byte} (ha : g ∣ a)
    (hl : g ∣ bs.length) : (m.writeBytes a bs).sameMark x y := by
  unfold Memory.sameMark at h ⊢
  rw [Memory.written_writeBytes, Memory.written_writeBytes, h, decide_eq_decide.2 (range_iff_of_div_eq hg ha hl hxy)]

/-- So does a write of cells of whole g-byte cells, g bytes apart or a multiple of it. -/
theorem Memory.sameMark_writeCells {m : Memory} (h : m.sameMark x y) {width stride a : Nat} {vs : List Nat} (ha : g ∣ a)
    (hs : g ∣ stride) (hw : g ∣ width) : (m.writeCells width stride a vs).sameMark x y := by
  induction vs generalizing m a with
  | nil => exact h
  | cons v vs ih =>
    exact ih (Memory.sameMark_writeBytes hg hxy h ha (by rwa [bytesLe_length])) (Nat.dvd_add ha hs)

/-- Zeroing whole ACC cells keeps the marks of one cell alike: an unlisted byte of ACC counts as written (R52). -/
theorem Memory.sameMark_zeroAccs {m : Memory} (h : m.sameMark x y) (h4 : g ∣ 4) (n : Nat) : (m.zeroAccs n).sameMark x y := by
  have hslot : Memory.unlisted x = Memory.unlisted y :=
    if_congr (range_iff_of_div_eq hg (h4.trans (by decide)) (h4.trans (by decide)) hxy) rfl rfl
  have hrange := range_iff_of_div_eq (a := accAddr 0) (n := 8 * n) hg (h4.trans (by decide))
    (h4.trans ((by decide : 4 ∣ 8).trans (Nat.dvd_mul_right 8 n))) hxy
  unfold Memory.sameMark Memory.written at h ⊢
  rw [Memory.zeroAccs, Memory.read_clear, Memory.read_clear, hslot]
  by_cases hy : accAddr 0 ≤ y ∧ y < accAddr 0 + 8 * n
  · rw [if_pos hy, if_pos (hrange.2 hy)]
  · rw [if_neg hy, if_neg fun hx => hy (hrange.1 hx), h]

theorem Memory.sameMark_setOut {m : Memory} (h : m.sameMark x y) (h4 : g ∣ 4) (xs : List Word) : (m.setOut xs).sameMark x y :=
  Memory.sameMark_writeCells hg hxy h (h4.trans (by decide)) h4 h4

end SameMark

/-! ## The named writes of the commands -/

/-- One of the writes commands make in memory (10_state R51, R52, R54). -/
inductive Memory.NamedWrite (m : Memory) : Memory → Prop where
  | work (xs : List Sample) : NamedWrite m (m.setWork xs)
  | stream (o : Nat) (xs : List Sample) : NamedWrite m (m.setStream o xs)
  | accs (xs : List DWord) : NamedWrite m (m.setAccs xs)
  | out (xs : List Word) : NamedWrite m (m.setOut xs)
  | zero (n : Nat) : NamedWrite m (m.zeroAccs n)

/-- Memory after any number of the commands' writes. -/
abbrev Memory.Writes : Memory → Memory → Prop := Relation.ReflTransGen Memory.NamedWrite

/-- Every write of a command is of whole 16-bit cells, so it keeps the marks of one alike. -/
theorem Memory.Writes.sameMark {m m' : Memory} (h : Memory.Writes m m') {x y : Nat} (hxy : x / 2 = y / 2)
    (hm : m.sameMark x y) : m'.sameMark x y := by
  induction h with
  | refl => exact hm
  | tail _ hw ih =>
    have cells := fun {width stride a vs} => Memory.sameMark_writeCells (width := width) (stride := stride) (a := a)
      (vs := vs) (by decide : 0 < 2) hxy ih
    cases hw with
    | work xs => exact cells (by decide) (by decide) (by decide)
    | stream o xs => exact cells ((Nat.dvd_add_right (by decide)).2 (Nat.dvd_mul_right 2 o)) (by decide) (by decide)
    | accs xs => exact cells (by decide) (by decide) (by decide)
    | out xs => exact Memory.sameMark_setOut (by decide) hxy ih (by decide) xs
    | zero n => exact Memory.sameMark_zeroAccs (by decide) hxy ih (by decide) n

theorem writes_convBody {s u : State} (h : convBody s = some u) : Memory.Writes s.mem u.mem := by
  unfold convBody at h
  split at h <;> cases h
  exact .single (.work _)

theorem writes_dcrStream {o n : Nat} {m m' : Memory} (h : dcrStream o n m = some m') : Memory.Writes m m' := by
  unfold dcrStream at h
  split at h
  · cases h
  · split at h <;> cases h
    · exact .refl
    · exact .single (.stream _ _)

theorem writes_dcrBody {s u : State} (h : dcrBody s = some u) : Memory.Writes s.mem u.mem := by
  simp only [dcrBody] at h
  split at h
  · cases h; exact .refl
  · split at h
    · cases h
    · next h0 =>
      split at h
      · cases h
      · next h1 => cases h; exact (writes_dcrStream h0).trans (writes_dcrStream h1)

theorem writes_boxcarBody {s u : State} (h : boxcarBody s = some u) : Memory.Writes s.mem u.mem := by
  simp only [boxcarBody] at h
  split at h
  · cases h; exact .refl
  · split at h <;> cases h
    exact ((Relation.ReflTransGen.single (.work _)).tail (.stream _ _)).tail (.stream _ _)

theorem writes_stage {o lim : Nat} {m m' : Memory} (h : stage o lim m = some m') : Memory.Writes m m' := by
  simp only [stage] at h
  split at h <;> cases h
  exact .single (.stream _ _)

theorem writes_rdecPasses {l n j : Nat} {m m' : Memory} (h : rdecPasses l n j m = some m') : Memory.Writes m m' := by
  induction n generalizing j m with
  | zero => cases h; exact .refl
  | succ n ih =>
    simp only [rdecPasses] at h
    split at h
    · cases h
    · next h0 =>
      split at h
      · cases h
      · next h1 => exact (writes_stage h0).trans ((writes_stage h1).trans (ih h))

theorem writes_rdecBody {s u : State} (h : rdecBody s = some u) : Memory.Writes s.mem u.mem := by
  obtain ⟨m, hm, rfl⟩ := rdecBody_some h
  exact writes_rdecPasses hm

theorem writes_compStream {c : Nat → Int} {o n : Nat} {m m' : Memory} (h : compStream c o n m = some m') :
    Memory.Writes m m' := by
  unfold compStream at h
  split at h <;> cases h
  exact .single (.stream _ _)

theorem writes_compBody {s u : State} (h : compBody s = some u) : Memory.Writes s.mem u.mem := by
  simp only [compBody] at h
  split at h
  · cases h; exact .refl
  · split at h
    · cases h
    · next h0 =>
      split at h
      · cases h
      · next h1 => cases h; exact (writes_compStream h0).trans (writes_compStream h1)

theorem writes_winBody {s u : State} (h : winBody s = some u) : Memory.Writes s.mem u.mem := by
  simp only [winBody] at h
  split at h
  · cases h; exact .refl
  · split at h <;> cases h
    exact .single (.work _)

theorem writes_xformBody {s u : State} (h : xformBody s = some u) : Memory.Writes s.mem u.mem := by
  simp only [xformBody] at h
  split at h
  · cases h; exact .refl
  · split at h <;> cases h
    exact .single (.work _)

theorem writes_accBody {s u : State} (h : accBody s = some u) : Memory.Writes s.mem u.mem := by
  simp only [accBody] at h
  split at h
  · cases h; exact .refl
  · split at h <;> cases h
    exact .single (.accs _)

theorem writes_rmsBody {s u : State} (h : rmsBody s = some u) : Memory.Writes s.mem u.mem := by
  obtain ⟨ms, rfl⟩ := rmsBody_some h
  rw [(rmsWrite_frame ms s).1]

theorem writes_runDecimate {s u : State} (h : runDecimate s = some u) : Memory.Writes s.mem u.mem := by
  obtain rfl | h | ⟨v, hv, rfl | h⟩ := runDecimate_some h
  · exact .refl
  · exact writes_boxcarBody h
  · exact writes_rdecBody hv
  · exact (writes_rdecBody hv).trans (writes_compBody h)

theorem writes_runBody {s u : State} (h : runBody s = some u) : Memory.Writes s.mem u.mem := by
  obtain ⟨-, h⟩ | ⟨-, s₁, s₂, s₃, s₄, s₅, h1, h2, h3, h4, h5, h6⟩ := runBody_some h
  · exact writes_rmsBody h
  · calc s.mem
      Memory.Writes _ s₁.mem := writes_convBody h1
      Memory.Writes _ s₂.mem := writes_runDecimate h2
      Memory.Writes _ s₃.mem := writes_dcrBody h3
      Memory.Writes _ s₄.mem := writes_winBody h4
      Memory.Writes _ s₅.mem := writes_xformBody h5
      Memory.Writes _ u.mem := writes_accBody h6

/-- Every command reaches its memory by the named writes alone. -/
theorem writes_bodyOf {i : Instr} {s u : State} (h : bodyOf i s = some u) : Memory.Writes s.mem u.mem := by
  cases i with
  | nop => cases h; exact .refl
  | conv => exact writes_convBody h
  | dcr => exact writes_dcrBody h
  | boxcar => exact writes_boxcarBody h
  | rdec => exact writes_rdecBody h
  | comp => exact writes_compBody h
  | win => exact writes_winBody h
  | xform => exact writes_xformBody h
  | acc => exact writes_accBody h
  | clracc => cases h; exact .single (.zero _)
  | rms => exact writes_rmsBody h
  | emit =>
    cases h
    rw [emitBody_mem]
    exact (Relation.ReflTransGen.single (.out _)).tail (.zero _)
  | run => exact writes_runBody h

/-! ## What a completed command may have written -/

/-- A command that ends in a next state raised an error, or passed its checks and completed its body. -/
theorem exec_next_cases {i : Instr} {s t : State} (h : exec i s = .next t) :
    (∃ e, t = s.raise e) ∨ (¬Rejected i s ∧ ∃ u, bodyOf i s = some u ∧ t = u.complete) := by
  rw [exec_eq] at h
  obtain ⟨e, -, rfl⟩ | ⟨hc, hu⟩ := runCommand_next h
  · exact .inl ⟨e, rfl⟩
  · exact .inr ⟨(firstFailure_checksOf i s).1 hc, hu⟩

/-- The engine's turn rests, raises an error, or completes the body of a command that passed its checks. -/
theorem engineTurn_next_cases {s t : State} (h : engineTurn s = .next t) :
    t = s ∨ (∃ e, t = s.raise e) ∨ ∃ i, ¬Rejected i s ∧ ∃ u, bodyOf i s = some u ∧ t = u.complete := by
  rcases engineTurn_cases s with ⟨-, e⟩ | ⟨-, c, -, e⟩ | ⟨-, i, -, e⟩ <;> rw [e] at h
  · cases h; exact .inl rfl
  · cases h; exact .inr (.inl ⟨c, rfl⟩)
  · exact .inr ((exec_next_cases h).imp_right fun hu => ⟨i, hu⟩)

section MayWrite

variable {i : Instr} {s : State} {a : Nat}

/-- No command writes below WORK: neither a register's address nor RAW (R50). -/
theorem not_mayWrite_raw (h : a < workAddr 0) : ¬mayWrite i s a := by
  simp only [mayWrite, workAddr, accAddr, outAddr, workBase, accBase, outBase] at *
  omega

/-- No command writes from WIN's base up to ACC's (R53). -/
theorem not_mayWrite_win (hl : s.params.legal = true) (h : winAddr 0 ≤ a) (h' : a < accAddr 0) : ¬mayWrite i s a := by
  obtain ⟨-, -, -, -, hcap⟩ := Params.legal_bounds hl
  simp only [mayWrite, workAddr, winAddr, accAddr, outAddr, workBase, winBase, accBase, outBase] at *
  omega

/-- A command that writes no WORK cell writes nothing in WORK's window (R51). -/
theorem not_mayWrite_work (hi : writesWork i = false) (h : a < winAddr 0) : ¬mayWrite i s a := by
  simp only [mayWrite, hi, Bool.false_eq_true, false_and, false_or, winAddr, accAddr, outAddr, winBase, accBase, outBase] at *
  omega

/-- A command that writes no ACC cell writes nothing in ACC's window (R52). -/
theorem not_mayWrite_acc (hl : s.params.legal = true) (hi : writesAcc i = false) (h : accAddr 0 ≤ a) (h' : a < outAddr 0) :
    ¬mayWrite i s a := by
  obtain ⟨-, -, -, -, hcap⟩ := Params.legal_bounds hl
  simp only [mayWrite, hi, Bool.false_eq_true, false_and, false_or, workAddr, accAddr, outAddr, workBase, accBase, outBase] at *
  omega

/-- No command writes an ACC cell at N or above (R52). -/
theorem not_mayWrite_acc_above (hl : s.params.legal = true) (h : accAddr s.bins ≤ a) (h' : a < outAddr 0) :
    ¬mayWrite i s a := by
  obtain ⟨-, -, -, -, hcap⟩ := Params.legal_bounds hl
  simp only [mayWrite, workAddr, accAddr, outAddr, workBase, accBase, outBase] at *
  omega

/-- No command but EMIT writes OUT (R54). -/
theorem not_mayWrite_out (hl : s.params.legal = true) (hr : ¬Rejected i s) (hi : i ≠ .emit) (h : outAddr 0 ≤ a) :
    ¬mayWrite i s a := by
  obtain ⟨-, -, -, -, hcap⟩ := Params.legal_bounds hl
  have hbins : writesAcc i = true → s.bins ≤ 2 ^ 25 := fun hw =>
    (bins_le_of_passed hl hr (by rintro rfl; cases hw)).2
  rintro (⟨-, -, hlt⟩ | ⟨hw, -, hlt⟩ | ⟨he, -⟩)
  · simp only [workAddr, outAddr, workBase, outBase] at *
    omega
  · have := hbins hw
    simp only [accAddr, outAddr, accBase, outBase] at *
    omega
  · exact hi he

end MayWrite

/-! ## Whole cells -/

/-- Memory keeps whole cells when it keeps alike the marks of every 16-bit cell and of every OUT cell. -/
theorem Memory.wholeCells.of_sameMark {m m' : Memory} (h : m.wholeCells)
    (h2 : ∀ {x y}, x / 2 = y / 2 → m.sameMark x y → m'.sameMark x y)
    (h4 : ∀ {x y}, outAddr 0 ≤ x → outAddr 0 ≤ y → x / 4 = y / 4 → m.sameMark x y → m'.sameMark x y) : m'.wholeCells := by
  obtain ⟨hwork, hwin, hout⟩ := h
  refine ⟨fun j hj => h2 ?_ (hwork j hj), fun j hj => h2 ?_ (hwin j hj), fun i hi k hk => h4 ?_ ?_ ?_ (hout i hi k hk)⟩ <;>
    simp only [workAddr, winAddr, outAddr, workBase, winBase, outBase] <;> omega

/-- With nothing listed every byte outside ACC's window is unwritten (R56, R60). -/
theorem Memory.read_nil {a : Nat} (h : ¬(accBase ≤ a ∧ a < accBase + slotSize)) : Memory.read [] a = none := if_neg h

/-- Memory with nothing listed has whole cells: none is written. -/
theorem Memory.wholeCells_nil : Memory.wholeCells [] := by
  have unwritten : ∀ a, ¬(accBase ≤ a ∧ a < accBase + slotSize) → Memory.written [] a = false := fun a ha => by
    rw [Memory.written, Memory.read_nil ha]; rfl
  refine ⟨fun j hj => ?_, fun j hj => ?_, fun i hi k hk => ?_⟩ <;> rw [unwritten, unwritten] <;>
    simp only [workAddr, winAddr, outAddr, workBase, winBase, outBase, accBase, slotSize] <;> omega

/-- A host write of an aligned word writes whole cells (R83). -/
theorem Memory.wholeCells.writeWord {m : Memory} (h : m.wholeCells) {a : Nat} (ha : a % 4 = 0) (v : Nat) :
    (m.writeBytes a (bytesLe 4 v)).wholeCells := by
  have h4 : 4 ∣ a := Nat.dvd_of_mod_eq_zero ha
  refine h.of_sameMark (fun hxy hm => ?_) fun _ _ hxy hm => ?_
  · exact Memory.sameMark_writeBytes (by decide) hxy hm ((by decide : 2 ∣ 4).trans h4) (by rw [bytesLe_length]; decide)
  · exact Memory.sameMark_writeBytes (by decide) hxy hm h4 (by rw [bytesLe_length])

/-- Every command leaves the written marks on whole cells: OUT is EMIT's alone, and EMIT writes it by words (R54). -/
theorem Memory.wholeCells.body {i : Instr} {s u : State} (h : s.mem.wholeCells) (hl : s.params.legal = true)
    (hr : ¬Rejected i s) (hu : bodyOf i s = some u) : u.mem.wholeCells := by
  refine h.of_sameMark (writes_bodyOf hu).sameMark fun {x y} hx hy hxy hm => ?_
  by_cases hi : i = .emit
  · subst hi
    cases hu
    rw [emitBody_mem]
    exact Memory.sameMark_zeroAccs (by decide) hxy (Memory.sameMark_setOut (by decide) hxy hm (by decide) _) (by decide) _
  · have hframe := fun a ha => body_frame hl hr hu a (not_mayWrite_out hl hr hi ha)
    simpa only [Memory.sameMark, Memory.written, hframe x hx, hframe y hy] using hm

/-- A register write leaves memory alone. -/
@[simp] theorem State.writeReg_mem (s : State) (r : Reg) (v : Word) : (s.writeReg r v).mem = s.mem := by cases r <;> rfl

/-- The address of a word of RAM is aligned (R81). -/
theorem target_ram_aligned {p : Params} {a : Word} (h : target p a = .ram) : a.toNat % 4 = 0 := by
  by_contra hn
  rw [target_misaligned p hn] at h
  cases h

/-- Every bus write leaves the written marks on whole cells. -/
theorem wholeCells_busWrite {s : State} (h : s.mem.wholeCells) (a v : Word) : (s.busWrite a v).mem.wholeCells := by
  rcases busWrite_cases s a v with ⟨-, e⟩ | ⟨-, e⟩ | ⟨r, -, -, e⟩ | ⟨-, ht, e⟩ | ⟨-, -, e⟩ <;> rw [e]
  · exact h
  · exact h
  · rwa [State.writeReg_mem]
  · exact h.writeWord (target_ram_aligned ht) _
  · exact h

/-- A bus read leaves memory alone (R86). -/
theorem busRead_mem (s : State) (a : Word) : (s.busRead a).mem = s.mem := by
  obtain ⟨w, n, e | ⟨-, e⟩⟩ := busRead_cases s a
  · rw [e]
  · rw [e]; rfl

/-- The engine's turn leaves the written marks on whole cells. -/
theorem wholeCells_engineTurn {s t : State} (h : s.mem.wholeCells) (hl : s.params.legal = true) (ht : engineTurn s = .next t) :
    t.mem.wholeCells := by
  obtain rfl | ⟨e, rfl⟩ | ⟨i, hr, u, hu, rfl⟩ := engineTurn_next_cases ht
  · exact h
  · exact h
  · show u.mem.wholeCells
    exact h.body hl hr hu

/-- Settles O16: the commands and the host write whole cells, and reset leaves every cell of WORK, WIN and OUT unwritten. -/
theorem stepKeepsWholeCells : Obligations.StepKeepsWholeCells := by
  intro s t hs h ht
  have hl := hs.params_legal
  rcases step_next_cases ht with ⟨-, e⟩ | ⟨rest, -, e⟩ | ⟨a, v, rest, -, rfl⟩ | ⟨a, rest, -, rfl⟩ | ⟨rest, -, rfl⟩
  · exact wholeCells_engineTurn h hl e
  · exact wholeCells_engineTurn (s := { s with schedule := rest }) h hl e
  · exact wholeCells_busWrite (s := { s with schedule := rest }) h a v
  · rwa [busRead_mem]
  · exact Memory.wholeCells_nil

end Sys2Proof.Machine

/-! What no command changes and which command writes each result (10_state R34, R46, R47, R50 to R54): the parameters, memory by the
frame of the commands, and the registers body by body. -/

namespace Sys2Proof.Machine

/-! ## The parameters -/

/-- A register write leaves the parameters alone. -/
@[simp] theorem State.writeReg_params (s : State) (r : Reg) (v : Word) : (s.writeReg r v).params = s.params := by
  cases r <;> rfl

theorem busWrite_params (s : State) (a v : Word) : (s.busWrite a v).params = s.params := by
  rcases busWrite_cases s a v with ⟨-, e⟩ | ⟨-, e⟩ | ⟨r, -, -, e⟩ | ⟨-, -, e⟩ | ⟨-, -, e⟩ <;> rw [e]
  · rfl
  · rfl
  · exact s.writeReg_params r v
  · rfl

theorem busRead_params (s : State) (a : Word) : (s.busRead a).params = s.params := by
  obtain ⟨w, n, e | ⟨-, e⟩⟩ := busRead_cases s a
  · rw [e]
  · rw [e]; rfl

theorem engineTurn_params {s t : State} (h : engineTurn s = .next t) : t.params = s.params := by
  obtain rfl | ⟨e, rfl⟩ | ⟨i, -, u, hu, rfl⟩ := engineTurn_next_cases h
  · rfl
  · rfl
  · exact (keeps_bodyOf hu).params

/-- No step writes the parameters (R6 to R8, R55). -/
theorem step_params {s t : State} (h : step s = .next t) : t.params = s.params := by
  rcases step_next_cases h with ⟨-, e⟩ | ⟨rest, -, e⟩ | ⟨a, v, rest, -, rfl⟩ | ⟨a, rest, -, rfl⟩ | ⟨rest, -, rfl⟩
  · exact engineTurn_params e
  · exact engineTurn_params (s := { s with schedule := rest }) e
  · exact busWrite_params _ a v
  · exact busRead_params _ a
  · rfl

/-- RAW is not empty when the parameters are legal (R7). -/
theorem Params.rawCap_ne_zero {p : Params} (h : p.legal = true) : p.rawCap ≠ 0 := by
  obtain ⟨-, -, -, hcap, -⟩ := Params.legal_bounds h
  have := Nat.two_pow_pos p.fftLog2Max
  omega

/-- When the parameters are legal the fields of PARAMS lie side by side, none cut (R34). -/
theorem paramsWord_toNat {p : Params} (h : p.legal = true) :
    (paramsWord p).toNat = p.fftLog2Max + 2 ^ 8 * p.compTable.length + 2 ^ 16 * p.rawCap.log2 ∧
    p.fftLog2Max < 2 ^ 8 ∧ p.compTable.length < 2 ^ 8 ∧ p.rawCap.log2 < 2 ^ 8 := by
  obtain ⟨-, hfft, -, -, hcap⟩ := Params.legal_bounds h
  have hrows : p.compTable.length < 256 := by
    simp only [Params.legal, Params.tableLegal, Bool.and_eq_true, decide_eq_true_eq] at h
    exact h.2.1
  have hlog : p.rawCap.log2 < 28 := (Nat.log2_lt (Params.rawCap_ne_zero h)).2 (by omega)
  rw [paramsWord, BitVec.toNat_ofNat]
  omega

/-- Settles O7: the parameters fill PARAMS's fields without overflow, and each kind of step leaves them. -/
theorem paramsRegister : Obligations.ParamsRegister := by
  refine ⟨fun s hl => ?_, fun s t => step_params⟩
  obtain ⟨hw, hfft, hrows, hlog⟩ := paramsWord_toNat hl
  have hread : (s.busRead 0x004).readData = paramsWord s.params := by
    rw [busRead_reg (r := .params) (target_reg _ rfl (by decide) (by decide)) fun _ => rfl]; rfl
  have hbyte : ∀ i, ((paramsWord s.params).extractLsb' i 8).toNat = (paramsWord s.params).toNat / 2 ^ i % 2 ^ 8 := fun i => by
    rw [BitVec.extractLsb'_toNat, Nat.shiftRight_eq_div_pow]
  have hcap : ((paramsWord s.params).extractLsb' 16 8).toNat = s.params.rawCap.log2 := by rw [hbyte, hw]; omega
  simp only [hread, hcap]
  refine ⟨by rw [hbyte, hw]; omega, by rw [hbyte, hw]; omega, Nat.log2_self_le (Params.rawCap_ne_zero hl), Nat.lt_log2_self, ?_⟩
  apply BitVec.eq_of_toNat_eq
  rw [hbyte, hw]
  show _ = 0
  omega

/-! ## Memory after a command -/

/-- What a command may not write in a state in which its checks pass reads after it as before. -/
theorem exec_read {i : Instr} {s t : State} (hl : s.params.legal = true) (ht : exec i s = .next t) {a : Nat}
    (ha : ¬Rejected i s → ¬mayWrite i s a) : t.mem.read a = s.mem.read a := by
  obtain ⟨e, rfl⟩ | ⟨hr, u, hu, rfl⟩ := exec_next_cases ht
  · rfl
  · exact body_frame hl hr hu a (ha hr)

section Exec

variable {i : Instr} {s t : State} (hl : s.params.legal = true) (ht : exec i s = .next t)
include hl ht

theorem exec_raw {j : Nat} (hj : j < 2 ^ 28) : t.mem.raw j = s.mem.raw j :=
  exec_read hl ht fun _ => not_mayWrite_raw (by simp only [rawAddr, workAddr, rawBase, workBase]; omega)

theorem exec_win {j : Nat} (hj : j < 2 ^ 27) : t.mem.win j = s.mem.win j :=
  Memory.win_congr fun k hk => exec_read hl ht fun _ => not_mayWrite_win hl
    (by simp only [winAddr]; omega) (by simp only [winAddr, accAddr, winBase, accBase]; omega)

theorem exec_work (hi : writesWork i = false) {j : Nat} (hj : j < 2 ^ 27) : t.mem.work j = s.mem.work j :=
  Memory.work_congr fun k hk => exec_read hl ht fun _ => not_mayWrite_work hi
    (by simp only [workAddr, winAddr, workBase, winBase]; omega)

theorem exec_acc (hi : writesAcc i = false) {j : Nat} (hj : j < 2 ^ 25) : t.mem.acc j = s.mem.acc j :=
  Memory.acc_congr fun k hk => exec_read hl ht fun _ => not_mayWrite_acc hl hi
    (by simp only [accAddr]; omega) (by simp only [accAddr, outAddr, accBase, outBase]; omega)

theorem exec_acc_above {j : Nat} (hn : s.bins ≤ j) (hj : j < 2 ^ 25) : t.mem.acc j = s.mem.acc j :=
  Memory.acc_congr fun k hk => exec_read hl ht fun _ => not_mayWrite_acc_above hl
    (by simp only [accAddr]; omega) (by simp only [accAddr, outAddr, accBase, outBase]; omega)

theorem exec_out (hi : i ≠ .emit) (j : Nat) : t.mem.out j = s.mem.out j :=
  Memory.out_congr fun k hk => exec_read hl ht fun hr => not_mayWrite_out hl hr hi (by simp only [outAddr]; omega)

end Exec

/-! ## Registers after a command -/

/-- A state that kept all `Keeps` names differs at most in WLEN, PASS_CNT, STATUS, the results, memory and the draw counter. -/
theorem Keeps.eq_update {s t : State} (k : Keeps s t) :
    t = { s with wlen := t.wlen, passCnt := t.passCnt, status := t.status, rmsDb := t.rmsDb, rmsDcDb := t.rmsDcDb,
                 emitCnt := t.emitCnt, emitSamples := t.emitSamples, lowHz := t.lowHz, highHz := t.highHz,
                 stepChz := t.stepChz, mem := t.mem, draws := t.draws } := by
  obtain ⟨hparams, hcfg, hds, hcrop, hfc, hfs, hlen, hirqEn, hpending, hread, hsched, -, -, -⟩ := k
  rw [← hparams, ← hcfg, ← hds, ← hcrop, ← hfc, ← hfs, ← hlen, ← hirqEn, ← hpending, ← hread, ← hsched]

/-- Settles O12: errors and completion write STATUS alone, bodies keep what `Keeps` names, and RAW and WIN lie in no command's
frame. -/
theorem commandsLeaveOperands : Obligations.CommandsLeaveOperands := by
  intro i s t hl ht
  have hcap := (Params.legal_bounds hl).2.2.2.2
  have hbins := two_pow_le_bins hl
  refine ⟨?_, fun j hj => exec_raw hl ht (by omega), fun j hj => exec_win hl ht (by omega)⟩
  obtain ⟨e, rfl⟩ | ⟨-, u, hu, rfl⟩ := exec_next_cases ht
  · rfl
  · exact congrArg State.complete (keeps_bodyOf hu).eq_update

/-- The results of RMS (R46). -/
def State.rmsResults (s : State) : Word × Word := (s.rmsDb, s.rmsDcDb)

/-- The results of EMIT (R47). -/
def State.emitResults (s : State) : Word × Word × DWord × DWord × Word :=
  (s.emitCnt, s.emitSamples, s.lowHz, s.highHz, s.stepChz)

/-- The result registers of RMS and EMIT. -/
def State.results (s : State) : (Word × Word) × Word × Word × DWord × DWord × Word := (s.rmsResults, s.emitResults)

/-- CONV changes memory and WLEN alone. -/
theorem convBody_some {s t : State} (h : convBody s = some t) : ∃ m, t = (s.withMem m).withWlen s.lenN := by
  unfold convBody at h
  split at h <;> cases h
  exact ⟨_, rfl⟩

theorem results_convBody {s t : State} (h : convBody s = some t) : t.results = s.results := by
  obtain ⟨m, rfl⟩ := convBody_some h; rfl

theorem results_dcrBody {s t : State} (h : dcrBody s = some t) : t.results = s.results := by
  obtain ⟨m, rfl⟩ := dcrBody_some h; rfl

theorem results_boxcarBody {s t : State} (h : boxcarBody s = some t) : t.results = s.results := by
  obtain rfl | ⟨m, n, rfl⟩ := boxcarBody_some h <;> rfl

theorem results_rdecBody {s t : State} (h : rdecBody s = some t) : t.results = s.results := by
  obtain ⟨m, -, rfl⟩ := rdecBody_some h; rfl

theorem results_compBody {s t : State} (h : compBody s = some t) : t.results = s.results := by
  obtain rfl | ⟨m, rfl⟩ := compBody_some h <;> rfl

theorem results_winBody {s t : State} (h : winBody s = some t) : t.results = s.results := by
  obtain rfl | ⟨m, rfl⟩ := winBody_some h <;> rfl

theorem results_xformBody {s t : State} (h : xformBody s = some t) : t.results = s.results := by
  obtain rfl | ⟨m, rfl⟩ := xformBody_some h <;> rfl

theorem results_accBody {s t : State} (h : accBody s = some t) : t.results = s.results := by
  obtain rfl | ⟨m, w, rfl⟩ := accBody_some h <;> rfl

theorem results_runDecimate {s t : State} (h : runDecimate s = some t) : t.results = s.results := by
  obtain rfl | h | ⟨u, hu, rfl | h⟩ := runDecimate_some h
  · rfl
  · exact results_boxcarBody h
  · exact results_rdecBody hu
  · exact (results_compBody h).trans (results_rdecBody hu)

theorem emitResults_rmsBody {s t : State} (h : rmsBody s = some t) : t.emitResults = s.emitResults := by
  obtain ⟨ms, rfl⟩ := rmsBody_some h
  obtain ⟨-, -, -, hcnt, hsamples, hlow, hhigh, hstep⟩ := rmsWrite_frame ms s
  simp only [State.emitResults, hcnt, hsamples, hlow, hhigh, hstep]

/-- Above bin count 1 RUN writes no result register (R286). -/
theorem results_runBody {s t : State} (h : runBody s = some t) (hf : s.fftLog2 ≠ 0) : t.results = s.results := by
  obtain ⟨h0, -⟩ | ⟨-, s₁, s₂, s₃, s₄, s₅, h1, h2, h3, h4, h5, h6⟩ := runBody_some h
  · exact absurd h0 hf
  · calc t.results
      _ = s₅.results := results_accBody h6
      _ = s₄.results := results_xformBody h5
      _ = s₃.results := results_winBody h4
      _ = s₂.results := results_dcrBody h3
      _ = s₁.results := results_runDecimate h2
      _ = s.results := results_convBody h1

/-- No command but RMS, EMIT and, at bin count 1, RUN writes a result register (R46, R47). -/
theorem results_bodyOf {i : Instr} {s u : State} (hu : bodyOf i s = some u) (hrms : i ≠ .rms) (hemit : i ≠ .emit)
    (hrun : i = .run → s.fftLog2 ≠ 0) : u.results = s.results := by
  cases i with
  | nop => cases hu; rfl
  | conv => exact results_convBody hu
  | dcr => exact results_dcrBody hu
  | boxcar => exact results_boxcarBody hu
  | rdec => exact results_rdecBody hu
  | comp => exact results_compBody hu
  | win => exact results_winBody hu
  | xform => exact results_xformBody hu
  | acc => exact results_accBody hu
  | clracc => cases hu; rfl
  | rms => exact absurd rfl hrms
  | emit => exact absurd rfl hemit
  | run => exact results_runBody hu (hrun rfl)

/-- EMIT leaves WLEN and RMS's registers alone. -/
theorem emitBody_frame (s : State) : (emitBody s).wlen = s.wlen ∧ (emitBody s).rmsResults = s.rmsResults := by
  simp [State.rmsResults, emitBody, emitOut, clearAccumulator]

/-- Only RMS, and RUN at bin count 1, write RMS_DB and RMS_DC_DB (R46). -/
theorem rmsResults_exec {i : Instr} {s t : State} (ht : exec i s = .next t) (hrms : i ≠ .rms)
    (hrun : i = .run → s.fftLog2 ≠ 0) : t.rmsResults = s.rmsResults := by
  obtain ⟨e, rfl⟩ | ⟨-, u, hu, rfl⟩ := exec_next_cases ht
  · rfl
  · by_cases hi : i = .emit
    · subst hi
      cases hu
      exact (emitBody_frame s).2
    · exact congrArg Prod.fst (results_bodyOf hu hrms hi hrun)

/-- Only EMIT writes the emitter's result registers (R47). -/
theorem emitResults_exec {i : Instr} {s t : State} (ht : exec i s = .next t) (hemit : i ≠ .emit) :
    t.emitResults = s.emitResults := by
  obtain ⟨e, rfl⟩ | ⟨-, u, hu, rfl⟩ := exec_next_cases ht
  · rfl
  · show u.emitResults = s.emitResults
    by_cases hrms : bodyOf i s = rmsBody s
    · exact emitResults_rmsBody (hrms ▸ hu)
    · refine congrArg Prod.snd (results_bodyOf hu (by rintro rfl; exact hrms rfl) hemit ?_)
      rintro rfl hf
      exact hrms (if_pos hf)

/-- The commands that write WLEN (R40). -/
def writesWlen : Instr → Bool
  | .conv | .boxcar | .rdec | .run => true
  | .nop | .dcr | .comp | .win | .xform | .acc | .clracc | .rms | .emit => false

/-- A command that does not write WLEN leaves it (R40). -/
theorem wlen_exec {i : Instr} {s t : State} (ht : exec i s = .next t) (hi : writesWlen i = false) : t.wlen = s.wlen := by
  obtain ⟨e, rfl⟩ | ⟨-, u, hu, rfl⟩ := exec_next_cases ht
  · rfl
  · show u.wlen = s.wlen
    cases i with
    | conv | boxcar | rdec | run => cases hi
    | nop | clracc => cases hu; rfl
    | emit => cases hu; exact (emitBody_frame s).1
    | dcr => obtain ⟨m, rfl⟩ := dcrBody_some hu; rfl
    | comp => obtain rfl | ⟨m, rfl⟩ := compBody_some hu <;> rfl
    | win => obtain rfl | ⟨m, rfl⟩ := winBody_some hu <;> rfl
    | xform => obtain rfl | ⟨m, rfl⟩ := xformBody_some hu <;> rfl
    | acc => obtain rfl | ⟨m, w, rfl⟩ := accBody_some hu <;> rfl
    | rms => obtain ⟨ms, rfl⟩ := rmsBody_some hu; exact (rmsWrite_frame ms s).2.1

/-- A command that does not write ACC leaves PASS_CNT (R41). -/
theorem passCnt_exec {i : Instr} {s t : State} (ht : exec i s = .next t) (hi : writesAcc i = false) :
    t.passCnt = s.passCnt := by
  obtain ⟨e, rfl⟩ | ⟨-, u, hu, rfl⟩ := exec_next_cases ht
  · rfl
  · show u.passCnt = s.passCnt
    cases i with
    | acc | clracc | emit | run => cases hi
    | nop => cases hu; rfl
    | conv => obtain ⟨m, rfl⟩ := convBody_some hu; rfl
    | dcr => obtain ⟨m, rfl⟩ := dcrBody_some hu; rfl
    | boxcar => obtain rfl | ⟨m, n, rfl⟩ := boxcarBody_some hu <;> rfl
    | rdec => obtain ⟨m, -, rfl⟩ := rdecBody_some hu; rfl
    | comp => obtain rfl | ⟨m, rfl⟩ := compBody_some hu <;> rfl
    | win => obtain rfl | ⟨m, rfl⟩ := winBody_some hu <;> rfl
    | xform => obtain rfl | ⟨m, rfl⟩ := xformBody_some hu <;> rfl
    | rms => obtain ⟨ms, rfl⟩ := rmsBody_some hu; exact (rmsWrite_frame ms s).2.2.1

/-- Settles O13: each register by the bodies that write it, each RAM by the frame of the commands. -/
theorem resultsHaveOneWriter : Obligations.ResultsHaveOneWriter := by
  intro i s t hl ht
  have hcap := (Params.legal_bounds hl).2.2.2.2
  have hbins := two_pow_le_bins hl
  refine ⟨fun hrms hrun => ?_, fun hrun hf => ?_, fun hemit => ?_, fun h1 h2 h3 h4 => ?_, fun j hj hn => ?_,
    fun h1 h2 h3 h4 => ?_, fun hi j hj => ?_⟩
  · exact Prod.mk.inj (rmsResults_exec ht hrms fun h => absurd h hrun)
  · exact Prod.mk.inj (rmsResults_exec ht (by rw [hrun]; decide) fun _ => hf)
  · have h := emitResults_exec ht hemit
    simp only [State.emitResults, Prod.mk.injEq] at h
    obtain ⟨hcnt, hsamples, hlow, hhigh, hstep⟩ := h
    exact ⟨hcnt, hsamples, hlow, hhigh, hstep, fun k _ => exec_out hl ht hemit k⟩
  · have hi : writesAcc i = false := by
      cases i with
      | acc | clracc | emit | run => contradiction
      | _ => rfl
    exact ⟨passCnt_exec ht hi, fun j hj => exec_acc hl ht hi (by omega)⟩
  · exact exec_acc_above hl ht hn (by omega)
  · refine wlen_exec ht ?_
    cases i with
    | conv | boxcar | rdec | run => contradiction
    | _ => rfl
  · exact exec_work hl ht (by rcases hi with rfl | rfl | rfl | rfl | rfl <;> rfl) (by omega)

end Sys2Proof.Machine

/-! Reset, the idle engine and the host's accesses to registers (10_state R31 to R60), each access by the register map's entry. -/

namespace Sys2Proof.Machine

/-! ## Reset and the idle engine -/

/-- Settles O5: BUSY = 0 is the case in which the engine's turn rests. -/
theorem idleEngineRests : Obligations.IdleEngineRests := by
  intro s hb
  have hidle : ∀ t : State, t.busy = false → engineTurn t = .next t := fun t ht => by simp only [engineTurn, ht]; rfl
  refine ⟨fun h => ?_, fun rest h => ?_⟩
  · simp only [step, h]
    exact hidle s hb
  · simp only [step, h]
    exact hidle { s with schedule := rest } hb

/-- Every row of the free table is legal: nine symmetric taps of 18 bits (R8). -/
theorem compRowLegal_compRow (r : Nat) : compRowLegal (Config.compRow r) = true := by
  have hlength : (Config.compRow r).length = 9 := by simp [Config.compRow]
  have hsymm : (Config.compRow r).reverse = Config.compRow r := rfl
  have hrange : ∀ v ∈ Config.compRow r, -(2 ^ 17) ≤ v ∧ v < 2 ^ 17 := fun v hv => by
    obtain ⟨t, -, rfl⟩ := List.mem_map.1 hv
    exact ⟨BitVec.le_toInt _, BitVec.toInt_lt⟩
  simp only [compRowLegal, Bool.and_eq_true, decide_eq_true_eq, List.all_eq_true]
  exact ⟨⟨hlength, hrange⟩, hsymm⟩

/-- The parameters at reset are legal, whatever the free table is (R6 to R8). -/
theorem configParams_legal : Config.params.legal = true := by
  have hrows : Config.compTable.length < 256 := by
    simp only [Config.compTable, List.length_map, List.length_range]
    exact Config.compRows.isLt
  have htable : Config.params.tableLegal = true := by
    simp only [Params.tableLegal, Config.params, Bool.and_eq_true, List.all_eq_true]
    refine ⟨decide_eq_true hrows, fun c hc => ?_⟩
    obtain ⟨k, -, rfl⟩ := List.mem_map.1 hc
    exact compRowLegal_compRow (k + 1)
  rw [Params.legal, htable]
  decide

/-- Settles O15: the parameters at reset are legal, and nothing is listed in memory. -/
theorem resetIsLegal : Obligations.ResetIsLegal :=
  ⟨inv_applyReset (s := State.reset) configParams_legal, Memory.wholeCells_nil⟩

/-- With nothing listed every cell of RAW, WORK, WIN and OUT is unwritten and every ACC cell is 0 (R60). -/
theorem Memory.cells_nil {j : Nat} (hj : j < 2 ^ 27) :
    Memory.raw [] j = none ∧ Memory.work [] j = none ∧ Memory.win [] j = none ∧ Memory.out [] j = none := by
  have hle : ∀ {a n : Nat}, ¬(accBase ≤ a ∧ a < accBase + slotSize) → Memory.readLe [] a (n + 1) = none := fun h => by
    simp only [Memory.readLe, Memory.read_nil h]
  refine ⟨Memory.read_nil ?_, congrArg _ (hle ?_), congrArg _ (hle ?_), congrArg _ (hle ?_)⟩ <;>
    simp only [rawAddr, workAddr, winAddr, outAddr, rawBase, workBase, winBase, outBase, accBase, slotSize] <;> omega

theorem Memory.acc_nil {j : Nat} (hj : j < 2 ^ 25) : Memory.acc [] j = 0 := by
  have h := Memory.acc_zeroAccs [] (n := 2 ^ 25) le_rfl j
  rwa [if_pos hj] at h

/-- Settles O41: the registers by the definition of reset, the cells because nothing is listed. -/
theorem resetValues : Obligations.ResetValues := by
  refine ⟨rfl, rfl, rfl, rfl, rfl, rfl, rfl, rfl, rfl, rfl, rfl, rfl, rfl, rfl, rfl, rfl, rfl, rfl, rfl, rfl,
    fun j hj => ?_, fun j hj => ?_⟩
  · have hj : j < 2 ^ 20 := hj
    obtain ⟨hraw, hwork, -, -⟩ := Memory.cells_nil (j := j) (by omega)
    exact ⟨hraw, hwork⟩
  · have hj : j < 2 ^ 16 := hj
    obtain ⟨-, -, hwin, hout⟩ := Memory.cells_nil (j := j) (by omega)
    exact ⟨hwin, hout, Memory.acc_nil (by omega)⟩

/-! ## Accesses to registers -/

/-- An offset of the register map names its register (R33). -/
theorem target_regAt (p : Params) {a : Word} {r : Reg} (h : regAt a.toNat = some r) : target p a = .reg r := by
  have haligned : ∀ n < 0x58, n % 4 ≠ 0 → regAt n = none := by decide
  refine target_reg p h (regAt_lt h) (by_contra fun hn => ?_)
  rw [haligned _ (regAt_lt h) hn] at h
  cases h

/-- A write to a register with BUSY = 0 takes effect (R33). -/
theorem busWrite_regAt {s : State} {a : Word} (r : Reg) (v : Word) (hb : s.busy = false) (h : regAt a.toNat = some r) :
    s.busWrite a v = s.writeReg r v :=
  busWrite_reg v (target_regAt _ h) fun hb' => by rw [hb] at hb'; cases hb'

/-- A read of a register that no command writes, or with BUSY = 0, answers the register (R33, R351). -/
theorem busRead_regAt {s : State} {a : Word} (r : Reg) (hb : s.busy = false ∨ r.stable = true) (h : regAt a.toNat = some r) :
    s.busRead a = s.answer (s.readReg r) :=
  busRead_reg (target_regAt _ h) fun hb' => hb.resolve_left (by rw [hb']; decide)

/-- The word such a read returns. -/
theorem readData_regAt {s : State} {a : Word} (r : Reg) (hb : s.busy = false ∨ r.stable = true)
    (h : regAt a.toNat = some r) : (s.busRead a).readData = s.readReg r := by
  rw [busRead_regAt r hb h]; rfl

/-- STATUS takes a write with BUSY 0 or 1 (R43). -/
theorem busWrite_status (s : State) (v : Word) : s.busWrite 0x028 v = s.withStatus (w1c s.status v) :=
  busWrite_reg (r := .status) v (target_regAt _ rfl) fun _ => rfl

/-- So does IRQ_EN (R44). -/
theorem busWrite_irqEn (s : State) (v : Word) : s.busWrite 0x02C v = { s with irqEn := v &&& irqEnMask } :=
  busWrite_reg (r := .irqEn) v (target_regAt _ rfl) fun _ => rfl

/-- A read of CMD returns 0, with BUSY 0 or 1 (R45). -/
theorem busRead_cmd (s : State) : s.busRead 0x030 = s.answer 0 := busRead_regAt .cmd (.inr rfl) rfl

/-- Settles O43: acceptance sets and clears the flags it names, and CMD is not writable while busy. -/
theorem cmdAcceptance : Obligations.CmdAcceptance := by
  intro s w
  refine ⟨fun hb => ?_, fun hb => ?_, busRead_cmd s⟩
  · refine ⟨_, busWrite_regAt .cmd w hb rfl, by simp, by simp, by simp, fun f hbusy hdone => ?_⟩
    simp [hbusy.symm, hdone.symm]
  · exact busWrite_dropped w hb (.inr (.inr ⟨.cmd, target_regAt _ rfl, rfl⟩))

/-- Settles O47: the bits of the W1C mask are DONE, ERRF and 13 to 8. -/
theorem statusWrite : Obligations.StatusWrite := by
  intro s v
  refine ⟨_, busWrite_status s v, fun b hb => ?_⟩
  have hmask : ∀ b < 32, w1cMask.getLsbD b = (decide (b = 1) || decide (b = 2) || (decide (8 ≤ b) && decide (b ≤ 13))) := by
    decide
  simp only [w1c, BitVec.getLsbD_and, BitVec.getLsbD_not, hb, decide_true, Bool.true_and, hmask b hb]

/-- IRQ by the bits of STATUS and IRQ_EN (R58). -/
theorem irq_eq_true {s : State} : s.irq = true ↔
    (s.status.getLsbD 1 = true ∧ s.irqEn.getLsbD 0 = true) ∨ (s.status.getLsbD 2 = true ∧ s.irqEn.getLsbD 1 = true) := by
  simp only [State.irq, getFlag, Flag.bit, doneIe, errIe, Bool.or_eq_true, Bool.and_eq_true]

/-- Settles O48: the acknowledge clears both sources, the enables mask them and leave STATUS as it is. -/
theorem interruptLine : Obligations.InterruptLine := by
  refine ⟨rfl, fun s => ⟨irq_eq_true, ?_, ?_, ?_, fun h => ?_⟩⟩
  · rw [busWrite_status]
    simp [State.irq, getFlag_w1c, Flag.bit, w1cMask]
  · rw [busWrite_irqEn]
    simp [State.irq, doneIe, errIe]
  · rw [busWrite_irqEn]
  · rw [busWrite_irqEn, busWrite_irqEn, irq_eq_true]
    have henabled : ∀ b < 2, ((3 : Word) &&& irqEnMask).getLsbD b = true := by decide
    exact (irq_eq_true.1 h).imp (And.imp_right fun _ => henabled 0 (by decide)) (And.imp_right fun _ => henabled 1 (by decide))

/-- Settles O49: the three registers store through their masks and read as stored. -/
theorem configurationStores : Obligations.ConfigurationStores := by
  intro s v hb
  have hcfg : s.busWrite 0x008 v = { s with cfg := v &&& cfgMask } := busWrite_regAt .cfg v hb rfl
  have hds : s.busWrite 0x00C v = { s with ds := v &&& dsMask } := busWrite_regAt .ds v hb rfl
  have hcrop : s.busWrite 0x010 v = { s with crop := v &&& cropMask } := busWrite_regAt .crop v hb rfl
  refine ⟨hcfg, hds, hcrop, ?_, ?_, ?_⟩
  · rw [hcfg, readData_regAt .cfg (.inr rfl) rfl]; rfl
  · rw [hds, readData_regAt .ds (.inr rfl) rfl]; rfl
  · rw [hcrop, readData_regAt .crop (.inr rfl) rfl]; rfl

/-- Settles O50: with BUSY = 0 each register is written and read by its entry of the register map. -/
theorem registersStore : Obligations.RegistersStore := by
  intro s v hb
  refine ⟨busWrite_regAt .fc v hb rfl, busWrite_regAt .fs v hb rfl, busWrite_regAt .len v hb rfl,
    busWrite_regAt .wlen v hb rfl, busWrite_regAt .passCnt v hb rfl, busWrite_irqEn s v,
    readData_regAt .id (.inl hb) rfl, readData_regAt .params (.inl hb) rfl,
    readData_regAt .cfg (.inl hb) rfl, readData_regAt .ds (.inl hb) rfl, readData_regAt .crop (.inl hb) rfl,
    readData_regAt .cmd (.inl hb) rfl, readData_regAt .fc (.inl hb) rfl, readData_regAt .fs (.inl hb) rfl,
    readData_regAt .len (.inl hb) rfl, readData_regAt .wlen (.inl hb) rfl, readData_regAt .passCnt (.inl hb) rfl,
    readData_regAt .status (.inl hb) rfl, readData_regAt .irqEn (.inl hb) rfl, readData_regAt .rmsDb (.inl hb) rfl,
    readData_regAt .rmsDcDb (.inl hb) rfl, readData_regAt .emitCnt (.inl hb) rfl,
    readData_regAt .emitSamples (.inl hb) rfl, ?_, ?_, readData_regAt .stepChz (.inl hb) rfl⟩
  · rw [readData_regAt .lowHzHi (.inl hb) rfl, readData_regAt .lowHzLo (.inl hb) rfl]
    exact BitVec.extractLsb'_append_extractLsb'
  · rw [readData_regAt .highHzHi (.inl hb) rfl, readData_regAt .highHzLo (.inl hb) rfl]
    exact BitVec.extractLsb'_append_extractLsb'

/-! ## Read-only registers -/

/-- The registers whose writes are ignored: ID, PARAMS and the results (R49). -/
def Reg.readOnly : Reg → Bool
  | .id | .params | .rmsDb | .rmsDcDb | .emitCnt | .emitSamples | .lowHzLo | .lowHzHi | .highHzLo | .highHzHi | .stepChz => true
  | .cfg | .ds | .crop | .fc | .fs | .len | .wlen | .passCnt | .status | .irqEn | .cmd => false

theorem State.writeReg_readOnly (s : State) {r : Reg} (h : r.readOnly = true) (v : Word) : s.writeReg r v = s := by
  cases r with
  | id | params | rmsDb | rmsDcDb | emitCnt | emitSamples | lowHzLo | lowHzHi | highHzLo | highHzHi | stepChz => rfl
  | cfg | ds | crop | fc | fs | len | wlen | passCnt | status | irqEn | cmd => cases h

/-- The offsets of the read-only registers (R33). -/
theorem readOnly_of_regAt {n : Nat} {r : Reg} (h : regAt n = some r) (hn : n < 0x008 ∨ 0x034 ≤ n) : r.readOnly = true := by
  have hmap : ∀ n < 0x58, n < 0x008 ∨ 0x034 ≤ n → (regAt n).all Reg.readOnly = true := by decide
  have := hmap n (regAt_lt h) hn
  rwa [h] at this

/-- In the register window what the map does not list, or is misaligned, is a bus error (R49, R88). -/
theorem target_unlisted (p : Params) {a : Word} (h : 0x058 ≤ a.toNat ∨ a.toNat % 4 ≠ 0) (hw : a.toNat < 0x1000) :
    target p a = .bad := by
  by_cases h4 : a.toNat % 4 = 0
  · rw [target_aligned p h4]
    exact windowOf_reg_hole p (h.resolve_right (not_not.2 h4)) (hw.trans (by decide))
  · exact target_misaligned p h4

/-- Settles O51: an unlisted offset is a bus error, and a read-only register ignores its writes. -/
theorem readOnlyRegisters : Obligations.ReadOnlyRegisters := by
  intro s a v
  refine ⟨fun h hw => ?_, fun hb h4 hro => ?_, by rw [busRead_cmd]; rfl⟩
  · have hbad := target_unlisted s.params h hw
    exact ⟨busWrite_bad v hbad, busRead_bad hbad⟩
  · obtain ⟨r, hr⟩ := regAt_some h4 (by omega)
    rw [busWrite_regAt r v hb hr]
    exact s.writeReg_readOnly (readOnly_of_regAt hr (by omega)) v

end Sys2Proof.Machine

/-! The host's accesses (20_memory R85, R86, R88): events in order, bus errors, and accesses that have no other effect, each
from what an access can do and what its address names. -/

namespace Sys2Proof.Machine

/-! ## Events in order -/

/-- A register write leaves the schedule alone. -/
@[simp] theorem State.writeReg_schedule (s : State) (r : Reg) (v : Word) : (s.writeReg r v).schedule = s.schedule := by
  cases r <;> rfl

theorem busWrite_schedule (s : State) (a v : Word) : (s.busWrite a v).schedule = s.schedule := by
  rcases busWrite_cases s a v with ⟨-, e⟩ | ⟨-, e⟩ | ⟨r, -, -, e⟩ | ⟨-, -, e⟩ | ⟨-, -, e⟩ <;> rw [e]
  · exact s.flag_schedule .buserr
  · exact s.flag_schedule .wrbusy
  · exact s.writeReg_schedule r v
  · exact s.withMem_schedule _

theorem busRead_schedule (s : State) (a : Word) : (s.busRead a).schedule = s.schedule := by
  obtain ⟨w, n, e | ⟨-, e⟩⟩ := busRead_cases s a <;> rw [e]
  exact s.flag_schedule .buserr

theorem engineTurn_schedule {s t : State} (h : engineTurn s = .next t) : t.schedule = s.schedule := by
  obtain rfl | ⟨e, rfl⟩ | ⟨i, -, u, hu, rfl⟩ := engineTurn_next_cases h
  · rfl
  · exact s.raise_schedule e
  · exact (keeps_bodyOf hu).schedule

/-- Settles O6: a step takes the first event off, and the engine's turn, an access and reset leave the schedule alone. -/
theorem eventsInOrder : Obligations.EventsInOrder := by
  intro s t ht
  rcases step_next_cases ht with ⟨h, e⟩ | ⟨rest, h, e⟩ | ⟨a, v, rest, h, rfl⟩ | ⟨a, rest, h, rfl⟩ | ⟨rest, h, rfl⟩ <;>
    rw [h]
  · rw [engineTurn_schedule e, h, List.tail_nil]
  · exact engineTurn_schedule e
  · exact busWrite_schedule _ a v
  · exact busRead_schedule _ a
  · exact State.applyReset_schedule _

/-! ## Which addresses name registers and CTAB -/

/-- Outside the register window no address names a register (R82). -/
theorem windowOf_ne_reg (p : Params) {n : Nat} (h : slotSize ≤ n) (r : Reg) : windowOf p n ≠ .reg r := by
  have h0 : n / slotSize ≠ 0 := (Nat.div_pos h (by decide)).ne'
  unfold windowOf
  dsimp only
  split
  · next hd => exact absurd hd h0
  all_goals (try split) <;> simp only [ne_eq, reduceCtorEq, not_false_eq_true]

/-- An address that names a register is its offset in the register map (R33). -/
theorem regAt_of_target {p : Params} {a : Word} {r : Reg} (h : target p a = .reg r) : regAt a.toNat = some r := by
  have h4 : a.toNat % 4 = 0 := by
    by_contra hn
    rw [target_misaligned p hn] at h
    cases h
  rw [target_aligned p h4] at h
  by_cases hlt : a.toNat < 0x58
  · obtain ⟨r', hr'⟩ := regAt_some h4 hlt
    rw [← target_aligned p h4, target_regAt p hr'] at h
    cases h
    exact hr'
  · by_cases hs : a.toNat < slotSize
    · rw [windowOf_reg_hole p (not_lt.1 hlt) hs] at h
      cases h
    · exact absurd h (windowOf_ne_reg p (not_lt.1 hs) r)

/-- No two offsets of the register map name one register (R33). -/
theorem regAt_inj {n k : Nat} {r : Reg} (hn : regAt n = some r) (hk : regAt k = some r) : n = k := by
  have haligned : ∀ i < 0x58, i % 4 ≠ 0 → regAt i = none := by decide
  have hword : ∀ {i}, regAt i = some r → ∃ j < 22, i = 4 * j := fun {i} hi => by
    have hlt := regAt_lt hi
    have h4 : i % 4 = 0 := by_contra fun h => by rw [haligned i hlt h] at hi; cases hi
    exact ⟨i / 4, by omega, by omega⟩
  have hinj : ∀ i < 22, ∀ j < 22, regAt (4 * i) = regAt (4 * j) → i = j := by decide
  obtain ⟨i, hi, rfl⟩ := hword hn
  obtain ⟨j, hj, rfl⟩ := hword hk
  rw [hinj i hi j hj (hn.trans hk.symm)]

/-- Another address than a register's own names another register. -/
theorem target_ne_reg {p : Params} {a b : Word} {r r' : Reg} (h : target p a = .reg r) (hb : regAt b.toNat = some r')
    (hne : a ≠ b) : r ≠ r' := by
  rintro rfl
  exact hne (BitVec.eq_of_toNat_eq (regAt_inj (regAt_of_target h) hb))

/-- On a legal instance CTAB is all that is named from its base up, and only there (R82). -/
theorem target_ctab_or_bad {p : Params} (hl : p.legal = true) (a : Word) :
    target p a = .bad ∨ (0x60000000 ≤ a.toNat ↔ ∃ k, target p a = .ctab k) := by
  by_cases h4 : a.toNat % 4 = 0
  · rw [target_aligned p h4]
    rcases windowOf_cases hl a.toNat with ⟨hlt, e⟩ | ⟨-, hlt, -, e⟩ | ⟨hle, -, e⟩ | ⟨-, -, e⟩
    · obtain ⟨r, hr⟩ := regAt_some h4 hlt
      rw [e, hr]
      exact .inr ⟨fun h => by omega, fun ⟨_, h⟩ => nomatch h⟩
    · rcases e with e | e <;> rw [e] <;> exact .inr ⟨fun h => by omega, fun ⟨_, h⟩ => nomatch h⟩
    · exact .inr ⟨fun _ => ⟨_, e⟩, fun _ => hle⟩
    · exact .inl e
  · exact .inl (target_misaligned p h4)

/-! ## Bus errors -/

/-- From CTAB's base up a write is a bus error, to CTAB or not (R55, R88). -/
theorem busWrite_above {s : State} {a : Word} (v : Word) (hl : s.params.legal = true) (h : 0x60000000 ≤ a.toNat) :
    s.busWrite a v = s.flag .buserr := by
  obtain ht | hiff := target_ctab_or_bad hl a
  · exact busWrite_bad v ht
  · obtain ⟨k, ht⟩ := hiff.1 h
    exact busWrite_ctab v ht

/-- A register write changes BUSERR only when STATUS is written (R43, R45). -/
theorem State.buserr_writeReg (s : State) {r : Reg} (h : r ≠ .status) (v : Word) :
    getFlag (s.writeReg r v).status .buserr = getFlag s.status .buserr := by
  cases r with
  | status => exact absurd rfl h
  | cmd => simp [State.writeReg]
  | _ => rfl

/-- A write that is no bus error and not to STATUS leaves BUSERR as it is (R88). -/
theorem busWrite_buserr {s : State} {a : Word} (v : Word) (hbad : target s.params a ≠ .bad)
    (hctab : ∀ k, target s.params a ≠ .ctab k) (hne : a ≠ 0x028) :
    getFlag (s.busWrite a v).status .buserr = getFlag s.status .buserr := by
  rcases busWrite_cases s a v with ⟨ht | ⟨k, ht⟩, -⟩ | ⟨-, e⟩ | ⟨r, ht, -, e⟩ | ⟨-, -, e⟩ | ⟨-, -, e⟩
  · exact absurd ht hbad
  · exact absurd ht (hctab k)
  · simp [e]
  · rw [e]
    exact s.buserr_writeReg (target_ne_reg ht rfl hne) v
  · rw [e, State.withMem_status]
  · rw [e]

/-- Settles O46: on a legal instance an access that is no bus error is aligned and in the map, and a write below CTAB. -/
theorem busErrors : Obligations.BusErrors := by
  intro s a v hl
  refine ⟨fun h => ?_, busWrite_above v hl, fun h4 hin => ?_⟩
  · have hbad := (target_bad_iff hl a).2 h
    exact ⟨busWrite_bad v hbad, busRead_bad hbad⟩
  · have hgood : target s.params a ≠ .bad := fun hbad => ((target_bad_iff hl a).1 hbad).elim (· h4) (· hin)
    refine ⟨?_, fun hlt => busWrite_buserr v hgood fun k hk => ?_⟩
    · obtain ⟨w, n, e | ⟨hbad, -⟩⟩ := busRead_cases s a
      · rw [e]
      · exact absurd hbad hgood
    · have := ((target_ctab_or_bad hl a).resolve_left hgood).2 ⟨k, hk⟩
      omega

/-! ## Writes made twice -/

/-- In canonical form the listed cells are those that read otherwise than unlisted ones (log 12). -/
theorem Memory.mem_iff_of_wf {m : Memory} (h : m.wf) (c : Host.Cell) :
    c ∈ m ↔ m.read c.1 = some c.2 ∧ Memory.unlisted c.1 ≠ some c.2 := by
  rw [Memory.read_eq]
  constructor
  · intro hc
    rw [Memory.read_of_mem h hc]
    exact ⟨rfl, h.2 c hc⟩
  · rintro ⟨hr, hu⟩
    cases hl : m.lookup c.1 with
    | none => rw [hl] at hr; exact absurd hr hu
    | some b => rw [hl] at hr; cases hr; exact Memory.mem_of_lookup hl

/-- In canonical form memory is determined by what its addresses read as (log 12). -/
theorem Memory.ext_of_read {m m' : Memory} (h : m.wf) (h' : m'.wf) (hr : ∀ a, m.read a = m'.read a) : m = m' := by
  have : Std.Irrefl fun c d : Host.Cell => c.1 < d.1 := ⟨fun c => lt_irrefl c.1⟩
  have : Std.Antisymm fun c d : Host.Cell => c.1 < d.1 := ⟨fun c d hcd hdc => absurd hcd hdc.asymm⟩
  refine h.1.eq_of_mem_iff h'.1 fun c => ?_
  rw [Memory.mem_iff_of_wf h, Memory.mem_iff_of_wf h', hr]

theorem Memory.writeBytes_idem {m : Memory} (h : m.wf) (a : Nat) (bs : List Byte) :
    (m.writeBytes a bs).writeBytes a bs = m.writeBytes a bs := by
  have h' := Memory.wf_writeBytes h a bs
  refine Memory.ext_of_read (Memory.wf_writeBytes h' a bs) h' fun x => ?_
  simp only [Memory.read_writeBytes]
  split <;> rfl

theorem State.flag_idem (s : State) (f : Flag) : (s.flag f).flag f = s.flag f :=
  congrArg s.withStatus (by rw [State.flag_status, setFlag, setFlag, BitVec.or_assoc, BitVec.or_self])

theorem w1c_idem (w v : Word) : w1c (w1c w v) v = w1c w v := by
  rw [w1c, w1c, BitVec.and_assoc, BitVec.and_self]

/-- A register write made twice is made once, CMD apart. -/
theorem State.writeReg_idem (s : State) {r : Reg} (h : r ≠ .cmd) (v : Word) :
    (s.writeReg r v).writeReg r v = s.writeReg r v := by
  cases r with
  | cmd => exact absurd rfl h
  | status => exact congrArg s.withStatus (w1c_idem s.status v)
  | _ => rfl

/-- A register write changes BUSY only when CMD is written (R43, R45). -/
theorem State.busy_writeReg (s : State) {r : Reg} (h : r ≠ .cmd) (v : Word) : (s.writeReg r v).busy = s.busy := by
  cases r with
  | cmd => exact absurd rfl h
  | status => simp [State.busy, State.writeReg, getFlag_w1c, Flag.bit, w1cMask]
  | _ => rfl

/-- A write dropped while BUSY = 1 is dropped again, with WRBUSY already set (R350). -/
theorem busWrite_dropped_idem {s : State} {a : Word} (v : Word) (hb : s.busy = true)
    (h : target s.params a = .ram ∨ target s.params a = .out ∨ ∃ r, target s.params a = .reg r ∧ r.writableBusy = false) :
    (s.busWrite a v).busWrite a v = s.busWrite a v := by
  have hb' : (s.flag .wrbusy).busy = true := (s.busy_flag (by decide)).trans hb
  rw [busWrite_dropped v hb h, busWrite_dropped v hb' h, State.flag_idem]

/-- A bus write made twice is made once, a CMD write apart. -/
theorem busWrite_idem {s : State} {a : Word} (v : Word) (hwf : s.mem.wf) (ha : a ≠ 0x030) :
    (s.busWrite a v).busWrite a v = s.busWrite a v := by
  have hp : target (s.busWrite a v).params a = target s.params a := by rw [busWrite_params]
  cases ht : target s.params a with
  | bad => rw [busWrite_bad v (hp.trans ht), busWrite_bad v ht, State.flag_idem]
  | ctab k => rw [busWrite_ctab v (hp.trans ht), busWrite_ctab v ht, State.flag_idem]
  | reg r =>
    have hr : r ≠ .cmd := target_ne_reg ht rfl ha
    by_cases hb : s.busy = true → r.writableBusy = true
    · have hb' : (s.busWrite a v).busy = s.busy := by rw [busWrite_reg v ht hb, s.busy_writeReg hr]
      rw [busWrite_reg v (hp.trans ht) (by rwa [hb']), busWrite_reg v ht hb, s.writeReg_idem hr]
    · obtain ⟨hb, hw⟩ := Classical.not_imp.1 hb
      exact busWrite_dropped_idem v hb (.inr (.inr ⟨r, ht, Bool.eq_false_of_not_eq_true hw⟩))
  | ram =>
    cases hb : s.busy with
    | true => exact busWrite_dropped_idem v hb (.inl ht)
    | false =>
      have hb' : (s.busWrite a v).busy = false := by rw [busWrite_ram v hb ht]; exact hb
      rw [busWrite_ram v hb' (hp.trans ht), busWrite_ram v hb ht]
      exact congrArg s.withMem (Memory.writeBytes_idem hwf _ _)
  | out =>
    cases hb : s.busy with
    | true => exact busWrite_dropped_idem v hb (.inr (.inl ht))
    | false => rw [busWrite_out v hb ht, busWrite_out v hb ht]

/-- Settles O53: all a bus read can do, and a bus write made twice. -/
theorem accessesHaveNoOtherEffect : Obligations.AccessesHaveNoOtherEffect := by
  refine ⟨fun s a => ⟨_, rfl, ?_⟩, fun s a v hwf ha => busWrite_idem v hwf ha⟩
  obtain ⟨w, n, e | ⟨-, e⟩⟩ := busRead_cases s a <;> rw [e]
  · exact ⟨rfl, .inl rfl⟩
  · exact ⟨rfl, .inr rfl⟩

end Sys2Proof.Machine

/-! How cells lie in bus words (20_memory R83, R84): parts of a little-endian number, the cells of a word read and of a word
written, the halves of an ACC cell, and the taps of CTAB. -/

namespace Sys2Proof.Machine

/-! ## Parts of a little-endian number -/

theorem Memory.readLe_succ_eq_some {m : Memory} {a n x : Nat} : m.readLe a (n + 1) = some x ↔
    ∃ b r, m.read a = some b ∧ m.readLe (a + 1) n = some r ∧ x = b.toNat + 256 * r := by
  rw [Memory.readLe]
  cases m.read a <;> cases m.readLe (a + 1) n <;> simp [eq_comm]

theorem Memory.readLe_one (m : Memory) (a : Nat) : m.readLe a 1 = (m.read a).map BitVec.toNat := by
  simp only [Memory.readLe]
  cases m.read a <;> rfl

/-- Some of the bytes of a number hold the part of it in their place (R84). -/
theorem Memory.readLe_part {m : Memory} {a n x : Nat} (h : m.readLe a n = some x) {k l : Nat} (hkl : k + l ≤ n) :
    m.readLe (a + k) l = some (x / 256 ^ k % 256 ^ l) := by
  induction n generalizing a x k l with
  | zero =>
    obtain ⟨rfl, rfl⟩ : k = 0 ∧ l = 0 := by omega
    simp [Memory.readLe, Nat.mod_one]
  | succ n ih =>
    obtain ⟨b, r, hb, hr, rfl⟩ := Memory.readLe_succ_eq_some.1 h
    have hdiv : (b.toNat + 256 * r) / 256 = r := by omega
    rcases k with _ | k
    · rcases l with _ | l
      · simp [Memory.readLe, Nat.mod_one]
      · refine Memory.readLe_succ_eq_some.2 ⟨b, r % 256 ^ l, hb, ?_, ?_⟩
        · simpa using ih hr (k := 0) (l := l) (by omega)
        · rw [pow_succ', Nat.mod_mul, pow_zero, Nat.div_one, hdiv]
          omega
    · rw [Nat.add_comm k 1, ← Nat.add_assoc, Nat.add_comm 1 k, pow_succ', ← Nat.div_div_eq_div_mul, hdiv]
      exact ih hr (by omega)

/-- Whole bytes of a word, as a part of its number. -/
theorem extractLsb'_bytes {N : Nat} (w : BitVec N) (k n : Nat) :
    w.extractLsb' (8 * k) (8 * n) = BitVec.ofNat (8 * n) (w.toNat / 256 ^ k % 256 ^ n) := by
  apply BitVec.eq_of_toNat_eq
  simp [BitVec.extractLsb'_toNat, Nat.shiftRight_eq_div_pow, pow_mul]

theorem byteOf_toNat (w : Word) (i : Nat) : (byteOf w i).toNat = w.toNat / 256 ^ i % 256 := by
  simp [byteOf, BitVec.extractLsb'_toNat, Nat.shiftRight_eq_div_pow, pow_mul]

/-! ## The word a read returns -/

/-- Byte i of the word is the byte in memory, or a free one where that is unwritten (R56). -/
theorem Memory.byteOf_busWord (m : Memory) (a : Nat) (free : Word) {i : Nat} (hi : i < 4) :
    byteOf (m.busWord a free) i = (m.read (a + i)).getD (byteOf free i) := by
  have hlow : ∀ {n : Nat} (hi : BitVec n) (lo : Byte), (hi ++ lo).extractLsb' (8 * 0) 8 = lo := fun hi lo =>
    (BitVec.extractLsb'_append_eq_of_add_le (by decide)).trans BitVec.extractLsb'_eq_self
  have hhigh : ∀ {n : Nat} (hi : BitVec n) (lo : Byte) (j : Nat),
      (hi ++ lo).extractLsb' (8 * (j + 1)) 8 = hi.extractLsb' (8 * j) 8 := fun hi lo j =>
    BitVec.extractLsb'_append_eq_of_le (by omega)
  rcases i with _ | _ | _ | _ | i
  · exact hlow _ _
  · exact (hhigh _ _ 0).trans (hlow _ _)
  · exact (hhigh _ _ 1).trans ((hhigh _ _ 0).trans (hlow _ _))
  · exact (hhigh _ _ 2).trans ((hhigh _ _ 1).trans ((hhigh _ _ 0).trans BitVec.extractLsb'_eq_self))
  · omega

/-- Written bytes stand in their place in the word, whatever the others read as (R83). -/
theorem Memory.busWord_part {m : Memory} {a k n x : Nat} (free : Word) (h : m.readLe (a + k) n = some x) (hk : k + n ≤ 4) :
    (m.busWord a free).toNat / 256 ^ k % 256 ^ n = x := by
  induction n generalizing k x with
  | zero => cases h; rw [pow_zero, Nat.mod_one]
  | succ n ih =>
    obtain ⟨b, r, hb, hr, rfl⟩ := Memory.readLe_succ_eq_some.1 h
    have hbyte := congrArg BitVec.toNat (Memory.byteOf_busWord m a free (i := k) (by omega))
    rw [hb, byteOf_toNat, Option.getD_some] at hbyte
    have hrest := ih (k := k + 1) (by rwa [← Nat.add_assoc]) (by omega)
    rw [pow_succ', Nat.mod_mul, Nat.div_div_eq_div_mul, ← pow_succ, hrest, hbyte]

/-- A read of a word of memory returns the word, with some bits for the unwritten bytes (R56, R83). -/
theorem readData_readRam (s : State) (a : Nat) : ∃ free, (s.readRam a).readData = s.mem.busWord a free := by
  unfold State.readRam
  split
  · exact ⟨0, rfl⟩
  · exact ⟨_, rfl⟩

/-! ## Cells -/

/-- The cell of n bytes at an address: RAW's for n = 1, WORK's and WIN's for n = 2, OUT's for n = 4 (R83). -/
def Memory.cell (m : Memory) (n a : Nat) : Option (BitVec (8 * n)) := (m.readLe a n).map (BitVec.ofNat (8 * n))

theorem Memory.raw_eq_cell (m : Memory) (j : Nat) : m.raw j = m.cell 1 (rawAddr j) := by
  rw [Memory.raw, Memory.cell, Memory.readLe_one]
  cases m.read (rawAddr j) <;> simp

theorem Memory.work_eq_cell (m : Memory) (j : Nat) : m.work j = m.cell 2 (workAddr j) := rfl

theorem Memory.win_eq_cell (m : Memory) (j : Nat) : m.win j = m.cell 2 (winAddr j) := rfl

theorem Memory.out_eq_cell (m : Memory) (i : Nat) : m.out i = m.cell 4 (outAddr i) := rfl

/-- Every byte of ACC has a value (R52). -/
theorem Memory.readLe_acc_isSome (m : Memory) {j : Nat} (hj : j < 2 ^ 25) : (m.readLe (accAddr j) 8).isSome := by
  refine (Memory.readLe_isSome m _ _).2 fun k hk => ?_
  have hu : Memory.unlisted (accAddr j + k) = some 0 := if_pos (by simp only [accAddr, accBase, slotSize]; omega)
  rw [Memory.read_eq, hu]
  cases m.lookup (accAddr j + k) <;> rfl

/-- The two words of an ACC cell hold its halves, the low one first (R83, R84). -/
theorem Memory.cell_acc (m : Memory) {j h : Nat} (hj : j < 2 ^ 25) (hh : h < 2) :
    m.cell 4 (accAddr j + 4 * h) = some ((m.acc j).extractLsb' (32 * h) 32) := by
  obtain ⟨x, hx⟩ := Option.isSome_iff_exists.1 (m.readLe_acc_isSome hj)
  have hacc : (m.acc j).toNat = x := by
    rw [Memory.acc, hx, Option.getD_some]
    exact Nat.mod_eq_of_lt (Memory.readLe_lt hx)
  rw [Memory.cell, Memory.readLe_part hx (by omega), Option.map_some, ← hacc, ← extractLsb'_bytes, ← Nat.mul_assoc]

/-- After a write of a word each of its cells holds its bits (R83). -/
theorem Memory.cell_writeWord (m : Memory) (a : Nat) (v : Word) {k n : Nat} (hk : k + n ≤ 4) :
    (m.writeBytes a (bytesLe 4 v.toNat)).cell n (a + k) = some (v.extractLsb' (8 * k) (8 * n)) := by
  have hw : (m.writeBytes a (bytesLe 4 v.toNat)).readLe a 4 = some v.toNat := by
    rw [Memory.readLe_writeBytes]
    exact congrArg some (Nat.mod_eq_of_lt v.isLt)
  rw [Memory.cell, Memory.readLe_part hw hk, Option.map_some, extractLsb'_bytes]

/-- A write of a word changes no other byte. -/
theorem sameOutside_writeWord (m : Memory) (a v : Nat) : SameOutside m (m.writeBytes a (bytesLe 4 v)) a 4 := fun x hx => by
  rw [Memory.read_writeBytes, bytesLe_length, if_neg hx]

/-! ## Bus words -/

/-- A read with BUSY = 0 returns each written cell of the word in its place (R83). -/
theorem extractLsb'_busRead {s : State} {a : Word} (hb : s.busy = false)
    (ht : target s.params a = .ram ∨ target s.params a = .out) {k n : Nat} (hk : k + n ≤ 4) {x : BitVec (8 * n)}
    (hx : s.mem.cell n (a.toNat + k) = some x) : (s.busRead a).readData.extractLsb' (8 * k) (8 * n) = x := by
  obtain ⟨y, hy, rfl⟩ := Option.map_eq_some_iff.1 hx
  obtain ⟨free, e⟩ := readData_readRam s a.toNat
  rw [busRead_ram hb ht, e, extractLsb'_bytes, Memory.busWord_part free hy hk]

/-- A cell that fills the word, or a half of an ACC cell, is the word read. -/
theorem readData_busRead {s : State} {a : Word} (hb : s.busy = false)
    (ht : target s.params a = .ram ∨ target s.params a = .out) {x : Word} (hx : s.mem.cell 4 a.toNat = some x) :
    (s.busRead a).readData = x :=
  BitVec.extractLsb'_eq_self.symm.trans (extractLsb'_busRead hb ht (k := 0) (n := 4) le_rfl hx)

/-- A word of RAM that holds c cells of n bytes, with BUSY = 0: a write changes the word's bytes alone and each cell holds its bits,
and a read returns each written cell in its place (R83). -/
theorem wordPacking_cells {s : State} {a n c : Nat} (v : Word) (hb : s.busy = false)
    (ht : target s.params (BitVec.ofNat 32 a) = .ram) (ha : a < 2 ^ 32)
    {cell : Memory → Nat → Option (BitVec (8 * n))} (hcell : ∀ m i, cell m i = m.cell n (a + n * i)) (hc : n * c ≤ 4) :
    (∃ t, s.busWrite (BitVec.ofNat 32 a) v = t ∧ t = { s with mem := t.mem } ∧ SameOutside s.mem t.mem a 4 ∧
      ∀ i < c, cell t.mem i = some (v.extractLsb' (8 * n * i) (8 * n))) ∧
    ∀ i < c, ∀ x, cell s.mem i = some x →
      (s.busRead (BitVec.ofNat 32 a)).readData.extractLsb' (8 * n * i) (8 * n) = x := by
  have e : (BitVec.ofNat 32 a).toNat = a := Nat.mod_eq_of_lt ha
  have hfit : ∀ i < c, n * i + n ≤ 4 := fun i hi => (Nat.mul_le_mul_left n hi).trans hc
  simp only [hcell, Nat.mul_assoc]
  refine ⟨⟨_, busWrite_ram v hb ht, rfl, ?_, fun i hi => ?_⟩, fun i hi x hx => ?_⟩
  · rw [e]
    exact sameOutside_writeWord _ _ _
  · rw [e]
    exact Memory.cell_writeWord s.mem a v (hfit i hi)
  · exact extractLsb'_busRead hb (.inl ht) (hfit i hi) (by rwa [e])

theorem target_ofNat {p : Params} {n : Nat} {t : Target} (hn : n < 2 ^ 32) (h4 : n % 4 = 0) (hw : windowOf p n = t) :
    target p (BitVec.ofNat 32 n) = t := by
  have e : (BitVec.ofNat 32 n).toNat = n := Nat.mod_eq_of_lt hn
  rw [target_aligned p (by rwa [e]), e, hw]

/-! ## CTAB -/

/-- The bounds of a legal table: fewer than 256 rows, nine taps in a row, each 18 bits two's complement (R8, R34). -/
theorem Params.table_bounds {p : Params} (h : p.legal = true) :
    p.compTable.length < 256 ∧ ∀ c ∈ p.compTable, c.length = 9 ∧ ∀ v ∈ c, -(2 ^ 17) ≤ v ∧ v < 2 ^ 17 := by
  simp only [Params.legal, Params.tableLegal, compRowLegal, Bool.and_eq_true, decide_eq_true_eq, List.all_eq_true] at h
  obtain ⟨-, hlen, hrows⟩ := h
  exact ⟨hlen, fun c hc => (hrows c hc).1⟩

theorem Params.ctab_bounds {p : Params} (h : p.legal = true) {r t : Nat} (h1 : 1 ≤ r) (hr : r ≤ p.compTable.length)
    (ht : t < 9) : -(2 ^ 17) ≤ Params.ctab p r t ∧ Params.ctab p r t < 2 ^ 17 := by
  have hrow : r - 1 < p.compTable.length := by omega
  obtain ⟨-, hrows⟩ := Params.table_bounds h
  obtain ⟨hlen, hv⟩ := hrows _ (List.getElem_mem hrow)
  rw [Params.ctab, List.getD_eq_getElem _ _ hrow, List.getD_eq_getElem _ _ (by rwa [hlen])]
  exact hv _ (List.getElem_mem _)

theorem windowOf_ctab {p : Params} (hl : p.legal = true) {j : Nat} (hj : j < 9 * p.compTable.length) :
    windowOf p (0x60000000 + 4 * j) = .ctab j := by
  rcases windowOf_cases hl (0x60000000 + 4 * j) with ⟨h, -⟩ | ⟨-, h, -⟩ | ⟨-, -, e⟩ | ⟨-, h, -⟩
  · omega
  · omega
  · rw [e, Nat.add_sub_cancel_left, Nat.mul_div_cancel_left j (by decide)]
  · exact absurd (by simp only [inMap]; omega) h

/-- A read of CTAB's word of a tap returns the tap sign-extended (R83). -/
theorem readData_ctab {s : State} (hl : s.params.legal = true) {r t : Nat} (h1 : 1 ≤ r) (hr : r ≤ s.params.compTable.length)
    (ht : t < 9) :
    (s.busRead (BitVec.ofNat 32 (0x60000000 + 4 * (9 * (r - 1) + t)))).readData.toInt = Params.ctab s.params r t := by
  obtain ⟨hlen, -⟩ := Params.table_bounds hl
  obtain ⟨hlo, hhi⟩ := Params.ctab_bounds hl h1 hr ht
  have hw := windowOf_ctab hl (j := 9 * (r - 1) + t) (by omega)
  rw [busRead_ctab (target_ofNat (by omega) (by omega) hw), show (9 * (r - 1) + t) / 9 + 1 = r by omega,
    show (9 * (r - 1) + t) % 9 = t by omega]
  exact BitVec.toInt_ofInt_eq_self (by decide) (by omega) (by omega)

/-! ## Word by word -/

/-- Settles O52: a word of RAW has four cells, one of WORK or WIN two; one of ACC is half a cell, and one of OUT a cell. -/
theorem wordPacking : Obligations.WordPacking := by
  intro s v k hl hb
  obtain ⟨-, -, -, -, hcap⟩ := Params.legal_bounds hl
  have hbins := two_pow_le_bins hl
  refine ⟨fun hk => ?_, fun hk => ?_, fun hk => ?_, fun hk h hh => ?_, fun hk => ?_, fun r t => readData_ctab hl⟩
  · have ha : 0x10000000 + 4 * k = rawAddr (4 * k) := rfl
    have ht := target_ofNat (p := s.params) (n := 0x10000000 + 4 * k) (by omega) (by omega)
      (windowOf_raw hl (by simp only [ha, rawAddr]; omega) (by simp only [ha, rawAddr]; omega))
    rw [ha] at ht ⊢
    exact wordPacking_cells (n := 1) (cell := fun m i => m.raw (4 * k + i)) v hb ht (by omega)
      (fun m i => (m.raw_eq_cell _).trans (congrArg (m.cell 1) (by simp only [rawAddr]; omega))) (by decide)
  · have ha : 0x20000000 + 4 * k = workAddr (2 * k) := by simp only [workAddr, workBase]; omega
    have ht := target_ofNat (p := s.params) (n := 0x20000000 + 4 * k) (by omega) (by omega)
      (windowOf_work hl (by simp only [ha, workAddr]; omega) (by simp only [ha, workAddr]; omega))
    rw [ha] at ht ⊢
    exact wordPacking_cells (n := 2) (cell := fun m i => m.work (2 * k + i)) v hb ht (by omega)
      (fun m i => (m.work_eq_cell _).trans (congrArg (m.cell 2) (by simp only [workAddr]; omega))) (by decide)
  · have ha : 0x30000000 + 4 * k = winAddr (2 * k) := by simp only [winAddr, winBase]; omega
    have ht := target_ofNat (p := s.params) (n := 0x30000000 + 4 * k) (by omega) (by omega)
      (windowOf_win hl (by simp only [ha, winAddr]; omega) (by simp only [ha, winAddr]; omega))
    rw [ha] at ht ⊢
    exact wordPacking_cells (n := 2) (cell := fun m i => m.win (2 * k + i)) v hb ht (by omega)
      (fun m i => (m.win_eq_cell _).trans (congrArg (m.cell 2) (by simp only [winAddr]; omega))) (by decide)
  · have ha : 0x40000000 + 8 * k + 4 * h = accAddr k + 4 * h := rfl
    have ht := target_ofNat (p := s.params) (n := 0x40000000 + 8 * k + 4 * h) (by omega) (by omega)
      (windowOf_acc hl (by simp only [ha, accAddr]; omega) (by simp only [ha, accAddr]; omega))
    have e : (BitVec.ofNat 32 (0x40000000 + 8 * k + 4 * h)).toNat = accAddr k + 4 * h := Nat.mod_eq_of_lt (by omega)
    have hhalf := fun m => Memory.cell_acc m (j := k) (by omega) hh
    refine ⟨⟨_, busWrite_ram v hb ht, rfl, ?_, ?_⟩, readData_busRead hb (.inl ht) (by rw [e, hhalf])⟩
    · rw [e]
      exact sameOutside_writeWord _ _ _
    · refine Option.some.inj ((hhalf _).symm.trans ?_)
      rw [State.withMem_mem, e]
      exact (Memory.cell_writeWord s.mem _ v (k := 0) (n := 4) le_rfl).trans (congrArg some BitVec.extractLsb'_eq_self)
  · have e : (BitVec.ofNat 32 (0x50000000 + 4 * k)).toNat = outAddr k := Nat.mod_eq_of_lt (by omega)
    have ht := target_ofNat (p := s.params) (n := 0x50000000 + 4 * k) (by omega) (by omega)
      (windowOf_out hl (by simp only [outAddr, outBase]; omega) (by simp only [outAddr, outBase]; omega))
    refine ⟨busWrite_out v hb ht, fun x hx => readData_busRead hb (.inr ht) ?_⟩
    rwa [e, ← Memory.out_eq_cell]

end Sys2Proof.Machine

/-! Command words (30_encoding R111, R113 to R115): the decoder's three answers, each with the words it is given to, and what the
engine does with each. -/

namespace Sys2Proof.Machine

/-! ## The fields of a word -/

theorem opcField_toNat (w : Word) : (opcField w).toNat = w.toNat % 256 := by
  rw [opcField, BitVec.extractLsb'_toNat, Nat.shiftRight_zero]

theorem rsvField_toNat (w : Word) : (rsvField w).toNat = w.toNat / 256 := by
  rw [rsvField, BitVec.extractLsb'_toNat, Nat.shiftRight_eq_div_pow]
  exact Nat.mod_eq_of_lt (by omega)

theorem rsvClear_iff (w : Word) : rsvClear w = true ↔ w.toNat / 256 = 0 := by
  rw [rsvClear, beq_iff_eq, ← BitVec.toNat_inj, rsvField_toNat]
  rfl

theorem encode_toNat (i : Instr) : (encode i).toNat = (opcode i).toNat := by
  rw [encode, BitVec.toNat_append]
  simp

/-! ## The opcode map -/

/-- The opcode map has no entry from 0x0D on, and below it the command whose operation code the number is (R113). -/
theorem opcodeMap_cases (n : Nat) :
    (0x0D ≤ n ∧ opcodeMap n = none) ∨ ∃ i, n = (opcode i).toNat ∧ opcodeMap n = some i := by
  unfold opcodeMap
  split
  case h_14 => exact .inl ⟨by grind, rfl⟩
  all_goals exact .inr ⟨_, rfl, rfl⟩

/-- Every command's word is legal and its operation code names the command (R115). -/
theorem encoding_statement (i : Instr) : Laws.Encoding.Statement i := by
  cases i
  exacts [Laws.Encoding.nop, Laws.Encoding.conv, Laws.Encoding.dcr, Laws.Encoding.boxcar, Laws.Encoding.rdec,
    Laws.Encoding.comp, Laws.Encoding.win, Laws.Encoding.xform, Laws.Encoding.acc, Laws.Encoding.clracc, Laws.Encoding.rms,
    Laws.Encoding.emit, Laws.Encoding.run]

/-! ## The decoder -/

theorem decode_encode (i : Instr) : decode (encode i) = .ok i := by
  obtain ⟨hwf, hmap, -⟩ := encoding_statement i
  obtain ⟨-, hrsv⟩ := Bool.and_eq_true_iff.1 hwf
  simp only [decode, hmap, hrsv, if_true]

theorem encode_le (i : Instr) : (encode i).toNat ≤ 0x0C := by
  rw [encode_toNat]
  cases i <;> decide

/-- All the decoder can answer: BAD_OPCODE for an unassigned operation code, RSVD_BITS for an assigned one under nonzero reserved
bits, and else the command whose word it is (R114). -/
theorem decode_cases (w : Word) :
    (0x0D ≤ w.toNat % 256 ∧ decode w = .error .badOpcode) ∨
    (w.toNat % 256 ≤ 0x0C ∧ w.toNat / 256 ≠ 0 ∧ decode w = .error .rsvdBits) ∨
    (w.toNat ≤ 0x0C ∧ ∃ i, w = encode i ∧ decode w = .ok i) := by
  rcases opcodeMap_cases (opcField w).toNat with ⟨hn, hmap⟩ | ⟨i, hi, hmap⟩
  · rw [opcField_toNat] at hn
    exact .inl ⟨hn, by rw [decode, hmap]⟩
  · rw [opcField_toNat, ← encode_toNat] at hi
    by_cases hrsv : rsvClear w = true
    · have hw : w = encode i := BitVec.eq_of_toNat_eq (by rw [rsvClear_iff] at hrsv; omega)
      exact .inr (.inr ⟨hw ▸ encode_le i, i, hw, hw ▸ decode_encode i⟩)
    · refine .inr (.inl ⟨hi.trans_le (encode_le i), mt (rsvClear_iff w).2 hrsv, ?_⟩)
      simp only [decode, hmap, if_neg hrsv]

theorem decode_of_unassigned {w : Word} (h : 0x0D ≤ w.toNat % 256) : decode w = .error .badOpcode := by
  rcases decode_cases w with ⟨-, hd⟩ | ⟨hle, -⟩ | ⟨hle, -⟩
  · exact hd
  · omega
  · omega

theorem decode_of_reserved {w : Word} (h : w.toNat % 256 ≤ 0x0C) (hr : w.toNat / 256 ≠ 0) :
    decode w = .error .rsvdBits := by
  rcases decode_cases w with ⟨hn, -⟩ | ⟨-, -, hd⟩ | ⟨hle, -⟩
  · omega
  · exact hd
  · omega

theorem exists_encode_eq {w : Word} (h : w.toNat ≤ 0x0C) : ∃ i, encode i = w := by
  rcases decode_cases w with ⟨hn, -⟩ | ⟨-, hr, -⟩ | ⟨-, i, rfl, -⟩
  · omega
  · omega
  · exact ⟨i, rfl⟩

/-- Settles O2: the decoder's answers exclude each other, so each is given to its own words alone. -/
theorem decoderIsExact : Obligations.DecoderIsExact := by
  refine ⟨fun w i => ⟨fun h => ?_, fun h => h ▸ decode_encode i⟩, fun w => ⟨fun h => ?_, decode_of_unassigned⟩,
    fun w => ⟨fun h => ?_, fun ⟨hle, hr⟩ => decode_of_reserved hle hr⟩, fun w e h => ?_⟩ <;>
    rcases decode_cases w with ⟨hn, hd⟩ | ⟨hle, hr, hd⟩ | ⟨-, j, hw, hd⟩ <;> rw [hd] at h <;> cases h
  · exact hw
  · exact hn
  · exact ⟨hle, hr⟩
  · exact .inl rfl
  · exact .inr rfl

/-! ## The engine on a word -/

theorem engineTurn_of_error {s : State} {e : CmdError} (hb : s.busy = true) (hd : decode s.pending = .error e) :
    engineTurn s = .next (failed s (errCode e)) := by
  rw [engineTurn, if_pos hb, runPending, hd]
  exact congrArg _ (raise_eq_failed s e)

theorem engineTurn_of_ok {s : State} {i : Instr} (hb : s.busy = true) (hd : decode s.pending = .ok i) :
    engineTurn s = exec i s := by
  rw [engineTurn, if_pos hb, runPending, hd]

/-- Settles O3: a busy engine raises the decoder's error, or runs the command whose word PENDING is. -/
theorem illegalWordsEndInError : Obligations.IllegalWordsEndInError := by
  intro s hb
  refine ⟨fun h => engineTurn_of_error (e := .badOpcode) hb (decode_of_unassigned h),
    fun h hr => engineTurn_of_error (e := .rsvdBits) hb (decode_of_reserved h hr), fun h => ?_⟩
  obtain ⟨i, hi⟩ := exists_encode_eq h
  exact ⟨i, hi, engineTurn_of_ok hb (by rw [← hi, decode_encode])⟩

end Sys2Proof.Machine

namespace Sys2Proof.Laws.Encoding

open Sys2Proof.Machine

/-- Settles O1: the map's words are the encodings of its commands, and an operation code from 0x0D on has none.
It stands here since `opcodeMap` above is the model's map. -/
theorem opcodeMap : Obligations.OpcodeMap :=
  ⟨decode_encode .nop, decode_encode .conv, decode_encode .dcr, decode_encode .boxcar, decode_encode .rdec, decode_encode .comp,
    decode_encode .win, decode_encode .xform, decode_encode .acc, decode_encode .clracc, decode_encode .rms, decode_encode .emit,
    decode_encode .run, fun _ => decode_of_unassigned⟩

end Sys2Proof.Laws.Encoding

/-! The conditioning commands (40_conditioning R140 to R171), each in two parts: its errors, by `reportsErrors`; and in a `Ready` state what
its body leaves, by that body's lemma of Laws/Conditioning.lean, carried over completion. -/

namespace Sys2Proof.Machine

/-! ## Errors and completion -/

/-- A command one of whose checks fails raises the error of the first that does (R300). -/
theorem exec_of_failure {i : Instr} {s : State} {e : CmdError} (h : firstFailure (checksOf i s) = some e) :
    exec i s = .next (failed s (errCode e)) := by
  rw [exec_eq, runCommand, h, ← raise_eq_failed]

/-- Every command reports its errors in R302's order. -/
theorem reportsErrors (i : Instr) : ReportsErrors i := by
  intro s
  obtain ⟨hconfig, hlength, hempty⟩ := firstFailure_error i s
  exact ⟨fun hc => exec_of_failure (e := .badConfig) (hconfig hc),
    fun hc hl => exec_of_failure (e := .badLength) (hlength hc hl),
    fun hc hl he => exec_of_failure (e := .empty) (hempty hc hl he)⟩

theorem Ready.passed {i : Instr} {s : State} : Ready i s → ¬Rejected i s := fun ⟨_, hr, _⟩ => hr

theorem Ready.written {i : Instr} {s : State} : Ready i s → OperandsWritten i s := fun ⟨_, _, hw⟩ => hw

/-- A ready command completes with what its body leaves. -/
theorem Ready.exec {i : Instr} {s u : State} (h : Ready i s) (hb : bodyOf i s = some u) : exec i s = .next u.complete :=
  exec_body h.passed hb

/-- RDEC's own length check holds in a state that passes its checks (R160). -/
theorem recursiveOk_of_passed {s : State} (h : ¬Rejected .rdec s) : s.RecursiveOk s.wlenN := by
  simp only [Rejected, BadLength, not_or, not_not] at h
  exact h.2.1.2

/-- LEN is even and at most RAW_CAP in a state that passes CONV's checks (R140). -/
theorem lenOk_of_passed {s : State} (h : ¬Rejected .conv s) : s.LenOk := by
  simp only [Rejected, BadLength, not_or, not_not] at h
  exact h.2.1

/-- A written cell as its number. -/
theorem Memory.workV_of_work {m : Memory} {j : Nat} {x : Sample} (h : m.work j = some x) : m.workV j = x.toInt := by
  rw [Memory.workV, h, Option.getD_some]

/-! ## CONV -/

/-- Writing LEN to WLEN copies the register (R140). -/
theorem State.withWlen_lenN (s : State) : s.withWlen s.lenN = { s with wlen := s.len } := by
  rw [State.withWlen, State.lenN, BitVec.ofNat_toNat, BitVec.setWidth_eq]

/-- A raw byte less either bias fits 16 bits (R140). -/
theorem convSample_toInt (s : State) (b : Byte) : (convSample s.bias b).toInt = b.toNat - s.bias := by
  have hb := b.isLt
  rw [convSample, State.bias]
  split <;> exact wrap16_toInt (by omega) (by omega)

/-- Settles O18: each RAW byte below LEN less the bias fits its 16-bit cell. -/
theorem convConverts : Obligations.ConvConverts := by
  refine ⟨reportsErrors .conv, fun s h => ?_⟩
  obtain ⟨m, hbody, hframe, hcells⟩ := convBody_written h.written
  refine ⟨_, h.exec hbody, ?_, hframe, fun j hj => ?_⟩
  · exact congrArg State.complete (State.withWlen_lenN (s.withMem m))
  · obtain ⟨b, hraw, hwork⟩ := hcells j hj
    refine ⟨_, hwork, ?_⟩
    rw [convSample_toInt, Memory.rawV, hraw, Option.getD_some]
    rfl

/-- CONV's body answers on no unwritten RAW cell below LEN (R310). -/
theorem rawWritten_of_convBody {s u : State} (h : convBody s = some u) : s.mem.rawWritten s.lenN := by
  by_contra hn
  cases h.symm.trans (convBody_unwritten hn)

/-- CONV reads of memory RAW below LEN alone: on memory that agrees there it answers the same registers and samples (R141). -/
theorem convBody_withMem {s u : State} {m : Memory} (h : convBody s = some u) (hm : ∀ j < s.lenN, m.raw j = s.mem.raw j) :
    ∃ m', convBody (s.withMem m) = some (u.withMem m') ∧ ∀ j < s.lenN, m'.work j = u.mem.work j := by
  have hraw := rawWritten_of_convBody h
  obtain ⟨m₁, hbody, -, hcells⟩ := convBody_written hraw
  cases hbody.symm.trans h
  obtain ⟨m', hbody', -, hcells'⟩ := convBody_written (s := s.withMem m) fun j hj => (hm j hj).symm ▸ hraw j hj
  refine ⟨m', hbody', fun j hj => ?_⟩
  obtain ⟨b, hb, hwork⟩ := hcells j hj
  obtain ⟨b', hb', hwork'⟩ := hcells' j hj
  obtain rfl : b' = b := Option.some.inj (hb'.symm.trans ((hm j hj).trans hb))
  exact hwork'.trans hwork.symm

/-- Settles O19: a rejected CONV writes STATUS alone whatever memory holds, and one that passes reads RAW alone. -/
theorem convIgnoresWork : Obligations.ConvIgnoresWork := by
  intro s t hl ht
  obtain ⟨-, -, -, -, hcap⟩ := Params.legal_bounds hl
  refine ⟨passCnt_exec ht rfl, ?_⟩
  by_cases hr : Rejected .conv s
  · obtain ⟨e, he⟩ : ∃ e, firstFailure (checksOf .conv s) = some e :=
      Option.ne_none_iff_exists'.1 fun hn => (firstFailure_checksOf .conv s).1 hn hr
    cases (exec_of_failure he).symm.trans ht
    refine ⟨fun j => rfl, fun f hbusy hdone herrf => ?_, fun m _ =>
      ⟨_, exec_of_failure (s := s.withMem m) he, rfl, fun hp => absurd hr hp⟩⟩
    simp [failed, errStatus, doneStatus, hbusy.symm, hdone.symm, herrf.symm]
  · obtain ⟨-, hlen⟩ := lenOk_of_passed hr
    obtain ⟨u, hbody, rfl⟩ := exec_passed hr ht
    obtain ⟨m₁, hbody₁, hframe, -⟩ := convBody_written (rawWritten_of_convBody hbody)
    obtain rfl := Option.some.inj (hbody₁.symm.trans hbody)
    refine ⟨hframe.acc (by omega), fun f hbusy hdone _ => by simp [hbusy.symm, hdone.symm], fun m hm => ?_⟩
    obtain ⟨m', hbody', hwork⟩ := convBody_withMem hbody fun j hj => hm.raw (by omega)
    exact ⟨_, exec_body (i := .conv) hr hbody', rfl, fun _ => hwork⟩

/-! ## DCR -/

/-- What a ready DCR leaves (R145). -/
theorem dcr_ready {s : State} (h : Ready .dcr s) :
    ∃ m, exec .dcr s = .next (s.withMem m).complete ∧ SameOutside s.mem m (workAddr 0) (2 * s.wlenN) ∧
      ∀ o < 2, ∀ k < s.wlenN / 2, m.work (2 * k + o) = some (wrap16 (s.mem.workV (2 * k + o) -
        (∑ i ∈ Finset.range (s.wlenN / 2), s.mem.workV (2 * i + o)).tdiv (s.wlenN / 2 : Nat))) := by
  have heven := even_wlen (workOk_of_passed h.passed (by simp))
  obtain ⟨m, hbody, hframe, hcells⟩ := dcrBody_written (s := s) (heven.symm ▸ h.written)
  exact ⟨m, h.exec hbody, heven ▸ hframe, hcells⟩

/-- Settles O20: a zero mean needs no case of its own, since `wrap16` keeps a sample's value. -/
theorem dcrRemovesMean : Obligations.DcrRemovesMean := by
  refine ⟨reportsErrors .dcr, fun s h => ?_⟩
  obtain ⟨m, hexec, hframe, hcells⟩ := dcr_ready h
  exact ⟨_, hexec, rfl, hframe, hcells⟩

/-- Less the truncated mean, a sum keeps the remainder of its division, which is below the number of terms (R146). -/
theorem sum_sub_mean_bounds {f : Nat → Int} {n : Nat} {mean : Int} (hn : 0 < n)
    (hmean : mean = (∑ k ∈ Finset.range n, f k).tdiv n) :
    -(n : Int) < ∑ k ∈ Finset.range n, (f k - mean) ∧ ∑ k ∈ Finset.range n, (f k - mean) < (n : Int) := by
  have hsum : ∑ k ∈ Finset.range n, (f k - mean) = (∑ k ∈ Finset.range n, f k).tmod n := by
    rw [Int.tmod_def, ← hmean, Finset.sum_sub_distrib, Finset.sum_const, Finset.card_range, nsmul_eq_mul]
  rw [hsum]
  have hpos : (0 : Int) < n := by exact_mod_cast hn
  exact ⟨Int.lt_tmod_of_pos _ hpos, Int.tmod_lt_of_pos _ hpos⟩

/-- Settles O21: where no subtraction wraps the new sum is the old one less n times the truncated mean. -/
theorem dcrZeroMean : Obligations.DcrZeroMean := by
  intro s o h ho hlen n mean hfits
  obtain ⟨m, hexec, -, hcells⟩ := dcr_ready h
  have hsum : ∑ k ∈ Finset.range n, m.workV (2 * k + o) = ∑ k ∈ Finset.range n, (s.mem.workV (2 * k + o) - mean) :=
    Finset.sum_congr rfl fun k hk => by
      have hk := Finset.mem_range.1 hk
      rw [Memory.workV_of_work (hcells o ho k hk), wrap16_toInt (hfits k hk).1 (hfits k hk).2]
  have hbounds := sum_sub_mean_bounds (f := fun k => s.mem.workV (2 * k + o)) (n := n) (by omega) rfl
  exact ⟨_, hexec, hsum ▸ hbounds⟩

/-! ## BOXCAR -/

/-- Settles O22: D is 1, or the groups' sums and the zeros are those of `boxcarBody_written`. -/
theorem boxcarSums : Obligations.BoxcarSums := by
  refine ⟨reportsErrors .boxcar, fun s h => ⟨fun hd => h.exec (boxcarBody_one hd), fun hd => ?_⟩⟩
  obtain ⟨m, hbody, hframe, hsums, hzero⟩ := boxcarBody_written hd (h.written.resolve_left (by omega))
  exact ⟨_, h.exec hbody, rfl, hframe, hsums, hzero⟩

/-! ## RDEC -/

/-- Settles O23: P is 0, or the passes are those of `rdecBody_written`, which needs RDEC's own length check. -/
theorem rdecDecimates : Obligations.RdecDecimates := by
  refine ⟨reportsErrors .rdec, fun s h => ⟨fun hp => h.exec (rdecBody_zero hp), fun hp => ?_⟩⟩
  obtain ⟨m, hbody, hframe, hcells⟩ :=
    rdecBody_written hp (recursiveOk_of_passed h.passed) (h.written.resolve_left (by omega))
  exact ⟨_, h.exec hbody, rfl, hframe, hcells⟩

/-! ## COMP -/

/-- Settles O24: P is outside the table, or the buffer is even and wholly written. -/
theorem compFilters : Obligations.CompFilters := by
  refine ⟨reportsErrors .comp, fun s h => ⟨fun hp => h.exec (compBody_skipped hp), fun hp hmax => ?_⟩⟩
  have heven := even_wlen (workOk_of_passed h.passed (by simp))
  have hw : s.mem.workWritten s.wlenN := (h.written.resolve_left (by omega)).resolve_left (by omega)
  obtain ⟨m, hbody, hframe, hkept, hfiltered⟩ := compBody_written hp hmax (heven.symm ▸ hw)
  exact ⟨_, h.exec hbody, rfl, heven ▸ hframe, hkept, hfiltered⟩

/-- A sample is 16 bits two's complement. -/
theorem Memory.abs_workV_le (m : Memory) (j : Nat) : |m.workV j| ≤ 2 ^ 15 := by
  rw [Memory.workV, abs_le]
  have hlo := BitVec.le_toInt ((m.work j).getD 0)
  have hhi := BitVec.toInt_lt (x := (m.work j).getD 0)
  omega

/-- Settles O25: nine products, each of a tap below 2^17 and a sample below 2^15 in magnitude. -/
theorem compSumFits : Obligations.CompSumFits := by
  intro p r m o mem hl h1 hr
  have hterm : ∀ k ∈ Finset.range 9, |Params.ctab p r k * mem.workV (2 * (m - 9 + k) + o)| ≤ 2 ^ 17 * 2 ^ 15 := by
    intro k hk
    obtain ⟨hlo, hhi⟩ := Params.ctab_bounds hl h1 hr (Finset.mem_range.1 hk)
    rw [abs_mul]
    exact mul_le_mul (abs_le.2 ⟨hlo, hhi.le⟩) (mem.abs_workV_le _) (abs_nonneg _) (by positivity)
  calc |∑ k ∈ Finset.range 9, Params.ctab p r k * mem.workV (2 * (m - 9 + k) + o)|
      ≤ ∑ k ∈ Finset.range 9, |Params.ctab p r k * mem.workV (2 * (m - 9 + k) + o)| := Finset.abs_sum_le_sum_abs _ _
    _ ≤ ∑ _k ∈ Finset.range 9, 2 ^ 17 * 2 ^ 15 := Finset.sum_le_sum hterm
    _ < 2 ^ 36 := by simp

end Sys2Proof.Machine

/-! The spectral commands (41_spectral R200 to R215). Each command's statement is its errors, by `reportsErrors`, and in a `Ready` state what
its body leaves, by that body's lemma of Laws/Spectral.lean, carried over completion; then the two laws of R213. -/

namespace Sys2Proof.Machine

/-! ## Blocks -/

/-- A pair of a block lies among the pairs of all the blocks. -/
theorem pair_lt_blocks {n b c j : Nat} (hc : c < b) (hj : j < n) : n * c + j < n * b :=
  calc n * c + j < n * (c + 1) := by rw [Nat.mul_succ]; omega
    _ ≤ n * b := Nat.mul_le_mul_left n hc

/-- A cell of WORK by its block, its pair and its stream. -/
theorem work_index (n c j : Nat) : 2 * n * c + 2 * j = 2 * (n * c + j) := by ring

/-- The cells of the full blocks, counted as pairs. -/
theorem workWritten_blocks {s : State} (h : s.mem.workWritten (s.wlenN / (2 * s.bins) * (2 * s.bins))) :
    s.mem.workWritten (2 * (s.bins * s.blockCount)) := blockCount_mul_eq s ▸ h

theorem Ready.legal {i : Instr} {s : State} : Ready i s → s.params.legal = true := fun ⟨hlegal, _⟩ => hlegal

/-! ## WIN -/

/-- Settles O26: there is no full block, or the products are those of `winBody_written`. -/
theorem winMultiplies : Obligations.WinMultiplies := by
  refine ⟨reportsErrors .win, fun s h => ⟨fun hb => h.exec (winBody_noblk hb), fun hb => ?_⟩⟩
  have hb : s.blockCount ≠ 0 := Nat.one_le_iff_ne_zero.1 hb
  obtain ⟨hwin, hwork⟩ := h.written.resolve_left fun hlt => hb ((blockCount_zero s).2 hlt)
  obtain ⟨m, hbody, hframe, hcells⟩ := winBody_written hb hwin (workWritten_blocks hwork)
  refine ⟨_, h.exec hbody, rfl, (Nat.mul_assoc 2 s.bins s.blockCount).symm ▸ hframe, fun q hq c hc j hj => ?_⟩
  rw [work_index]
  exact hcells q hq c hc j hj

/-! ## XFORM -/

/-- Settles O27: there is no full block, or the bins are those of `xformBody_written`. -/
theorem xformTransforms : Obligations.XformTransforms := by
  refine ⟨reportsErrors .xform, fun s h => ⟨fun hb => h.exec (xformBody_noblk hb), fun hb => ?_⟩⟩
  obtain ⟨m, hbody, hframe, hcells⟩ := xformBody_written (Nat.one_le_iff_ne_zero.1 hb) (workWritten_blocks h.written)
  refine ⟨_, h.exec hbody, rfl, (Nat.mul_assoc 2 s.bins s.blockCount).symm ▸ hframe, fun c hc k hk => ?_⟩
  rw [work_index]
  exact hcells c hc k hk

/-! ## ACC -/

/-- ACC's checks pass exactly when the common checks do, the bin count is above 1 and WLEN is even and at most RAW_CAP (R210). -/
theorem not_rejected_acc {s : State} : ¬Rejected .acc s ↔ s.CommonOk ∧ s.fftLog2 ≠ 0 ∧ s.WorkOk := by
  simp [Rejected, BadConfig, BadLength, EmptyAtEmit, and_assoc]

/-- Settles O29: `power_le` of the pair in the two cells. -/
theorem powerFits : Obligations.PowerFits := fun m k => power_workPair m k ▸ power_le (workPair m k)

/-- A power fits its 64-bit accumulator (R211). -/
theorem workPower_lt (m : Memory) (k : Nat) : workPower m k < 2 ^ 64 := lt_of_le_of_lt (powerFits m k) (by norm_num)

/-- What a ready ACC leaves, whether or not there is a full block: without one PASS_CNT grows by 0 and each bin takes no power (R210). -/
theorem acc_ready {s : State} (h : Ready .acc s) :
    ∃ m w, exec .acc s =
        .next { s with passCnt := BitVec.ofNat 32 (s.passCnt.toNat + s.blockCount * s.deff), mem := m, status := w } ∧
      (s.blockCount ≠ 0 → w = doneStatus s.status) ∧
      SameOutside s.mem m (accAddr 0) (8 * s.bins) ∧
      ∀ j < s.bins, m.acc j = (List.range s.blockCount).foldl
        (fun x c => accumulate s.peak x (workPower s.mem (s.bins * c + j))) (s.mem.acc j) := by
  by_cases hb : s.blockCount = 0
  · refine ⟨s.mem, doneStatus (setFlag s.status .noblk), ?_, fun hb' => absurd hb hb', SameOutside.refl _ _ _, fun j _ => ?_⟩
    · rw [h.exec (accBody_noblk hb), hb, Nat.zero_mul, Nat.add_zero, BitVec.ofNat_toNat, BitVec.setWidth_eq]
      rfl
    · rw [hb]
      rfl
  · obtain ⟨m, hbody, hframe, hcells⟩ := accBody_written hb (workWritten_blocks h.written)
    exact ⟨m, doneStatus s.status, h.exec hbody, fun _ => rfl, hframe, hcells⟩

/-- Settles O28: each bin's fold over the blocks is a sum modulo 2^64, or a maximum. -/
theorem accAccumulates : Obligations.AccAccumulates := by
  refine ⟨reportsErrors .acc, fun s h => ⟨fun hb => h.exec (accBody_noblk hb), fun hb => ?_⟩⟩
  obtain ⟨m, w, hexec, hstatus, hframe, hcells⟩ := acc_ready h
  obtain rfl := hstatus (Nat.one_le_iff_ne_zero.1 hb)
  refine ⟨_, hexec, rfl, hframe, fun j hj => ⟨fun hpeak => ?_, fun hpeak => ?_⟩⟩ <;> rw [hcells j hj, hpeak]
  · exact accumulate_sum _ _ _
  · exact accumulate_max _ _ _ fun c _ => workPower_lt _ _

/-! ## Averaging in either order -/

/-- The part of a state that R213's averaging law asks for: ACC passes its checks but the one on WLEN, and PEAK is 0. -/
def State.Averages (s : State) : Prop := s.params.legal = true ∧ s.CommonOk ∧ 1 ≤ s.fftLog2 ∧ s.peak = false

theorem State.Averages.legal {s : State} : s.Averages → s.params.legal = true := fun ⟨hlegal, _⟩ => hlegal

theorem State.Averages.peak_eq {s : State} : s.Averages → s.peak = false := fun ⟨_, _, _, hpeak⟩ => hpeak

/-- What averaging a buffer adds to bin j of n: the powers of the bin's place in every full block, modulo 2^64 (R210). -/
def addedPower (n : Nat) (ps : List Pair) (j : Nat) : DWord :=
  if j < n then BitVec.ofNat 64 (∑ c ∈ Finset.range (ps.length / n), power (ps.getD (n * c + j) (0, 0))) else 0

/-- Outside the first n accumulators, those from n up are as before. -/
theorem SameOutside.acc_above {m m' : Memory} {n : Nat} (h : SameOutside m m' (accAddr 0) (8 * n)) {j : Nat} (hj : n ≤ j) :
    m'.acc j = m.acc j :=
  Memory.acc_congr fun k _ => h _ (by simp only [accAddr]; omega)

/-- The power of a pair written to WORK is that pair's. -/
theorem workPower_setPairs (m : Memory) {ps : List Pair} {k : Nat} (hk : k < ps.length) :
    workPower (m.setPairs ps) k = power (ps.getD k (0, 0)) := by
  obtain ⟨hi, hq⟩ := (setPairs_spec m ps).2 k _ (List.getElem?_eq_getElem hk)
  rw [← power_workPair, workPair, hi, hq, List.getD_eq_getElem _ _ hk]
  rfl

section LoadWork

variable {s : State} {ps : List Pair} (h : s.Averages) (hcap : 2 * ps.length ≤ s.params.rawCap)
include h hcap

theorem wlenN_loadWork : (s.loadWork ps).wlenN = 2 * ps.length := by
  obtain ⟨-, -, -, -, hraw⟩ := Params.legal_bounds h.legal
  exact wlenN_withWlen _ (by omega)

theorem blockCount_loadWork : (s.loadWork ps).blockCount = ps.length / s.bins := by
  rw [State.blockCount, wlenN_loadWork h hcap]
  exact Nat.mul_div_mul_left _ _ two_pos

theorem acc_loadWork (j : Nat) : (s.loadWork ps).mem.acc j = s.mem.acc j := by
  obtain ⟨-, -, -, -, hraw⟩ := Params.legal_bounds h.legal
  exact (setPairs_spec s.mem ps).1.acc (by omega) j

/-- ACC is ready once a buffer that fits is loaded. -/
theorem ready_acc_loadWork : Ready .acc (s.loadWork ps) := by
  have hwlen := wlenN_loadWork h hcap
  obtain ⟨hlegal, hcommon, hfft, -⟩ := h
  refine ⟨hlegal, not_rejected_acc.2 ⟨hcommon, Nat.one_le_iff_ne_zero.1 hfft, ?_⟩, fun j hj => ?_⟩
  · exact ⟨by omega, hwlen.symm ▸ hcap⟩
  · have hj : j < 2 * ps.length := hwlen ▸ lt_of_lt_of_le hj (Nat.div_mul_le_self _ _)
    rw [State.loadWork, State.withWlen_mem, State.withMem_mem, Memory.setPairs, Memory.work_setWork, dif_pos (by simpa using hj)]
    rfl

/-- Loading a buffer and accumulating it adds to PASS_CNT and to each bin what depends on the buffer, not on what ACC held (R210). -/
theorem exec_acc_loadWork :
    ∃ n m w, exec .acc (s.loadWork ps) =
        .next { s with wlen := n, passCnt := s.passCnt + BitVec.ofNat 32 (ps.length / s.bins * s.deff), mem := m, status := w } ∧
      ∀ j, m.acc j = s.mem.acc j + addedPower s.bins ps j := by
  obtain ⟨m, w, hexec, -, hframe, hcells⟩ := acc_ready (ready_acc_loadWork h hcap)
  rw [blockCount_loadWork h hcap] at hexec hcells
  refine ⟨(s.loadWork ps).wlen, m, w, ?_, fun j => ?_⟩
  · rw [hexec, BitVec.ofNat_add, BitVec.ofNat_toNat, BitVec.setWidth_eq]
    rfl
  · rw [← acc_loadWork h hcap j, addedPower]
    by_cases hj : j < s.bins
    · have hpowers : ∀ c ∈ Finset.range (ps.length / s.bins),
          workPower (s.loadWork ps).mem (s.bins * c + j) = power (ps.getD (s.bins * c + j) (0, 0)) := fun c hc =>
        workPower_setPairs s.mem ((pair_lt_blocks (Finset.mem_range.1 hc) hj).trans_le (Nat.mul_div_le _ _))
      apply BitVec.eq_of_toNat_eq
      rw [hcells j hj, show (s.loadWork ps).peak = false from h.peak_eq, accumulate_sum, if_pos hj, BitVec.toNat_add,
        BitVec.toNat_ofNat, Nat.add_mod_mod, ← Finset.sum_congr rfl hpowers]
      rfl
    · rw [hframe.acc_above (Nat.not_lt.1 hj), if_neg hj, add_zero]

end LoadWork

/-! ## Peak-hold twice -/

/-- A ready ACC's working buffer lies in WORK's window. -/
theorem Ready.acc_wlen_le {s : State} (h : Ready .acc s) : s.wlenN ≤ 2 ^ 27 := by
  obtain ⟨-, hwlen⟩ := workOk_of_passed h.passed (by simp)
  obtain ⟨-, -, -, -, hcap⟩ := Params.legal_bounds h.legal
  exact hwlen.trans hcap

/-- A cell of a pair of a full block lies in WORK's window. -/
theorem Ready.acc_pair_lt {s : State} (h : Ready .acc s) {c j : Nat} (hc : c < s.blockCount) (hj : j < s.bins) :
    2 * (s.bins * c + j) + 1 < 2 ^ 27 := by
  have hpair := pair_lt_blocks hc hj
  have hblocks := blockCount_mul_le s
  have hwlen := h.acc_wlen_le
  omega

/-- Outside the accumulators WORK's cells are as before. -/
theorem SameOutside.work_below_acc {m m' : Memory} {n : Nat} (h : SameOutside m m' (accAddr 0) n) {j : Nat} (hj : j < 2 ^ 27) :
    m'.work j = m.work j :=
  Memory.work_congr fun k _ => h _ (by simp only [workAddr, accAddr, workBase, accBase]; omega)

/-- A power read from WORK outside the accumulators is as before. -/
theorem SameOutside.workPower_below_acc {m m' : Memory} {n : Nat} (h : SameOutside m m' (accAddr 0) n) {k : Nat}
    (hk : 2 * k + 1 < 2 ^ 27) : workPower m' k = workPower m k := by
  rw [workPower, workPower, Memory.workV, Memory.workV, h.work_below_acc (by omega), h.work_below_acc hk]
  rfl

/-- ACC is ready again after a write of the accumulators, PASS_CNT and STATUS. -/
theorem Ready.acc_again {s : State} (h : Ready .acc s) {m : Memory} {n : Nat} (hframe : SameOutside s.mem m (accAddr 0) n)
    (p w : Word) : Ready .acc { s with passCnt := p, mem := m, status := w } := by
  have hchecks := not_rejected_acc.1 h.passed
  refine ⟨h.legal, not_rejected_acc.2 hchecks, fun j hj => ?_⟩
  have hwlen : j < s.wlenN := lt_of_lt_of_le hj (Nat.div_mul_le_self _ _)
  rw [hframe.work_below_acc (hwlen.trans_le h.acc_wlen_le)]
  exact h.written j hj

/-- What a ready ACC leaves under peak-hold (R210). -/
theorem acc_ready_peak {s : State} (h : Ready .acc s) (hpeak : s.peak = true) :
    ∃ m w, exec .acc s =
        .next { s with passCnt := BitVec.ofNat 32 (s.passCnt.toNat + s.blockCount * s.deff), mem := m, status := w } ∧
      SameOutside s.mem m (accAddr 0) (8 * s.bins) ∧
      ∀ j < s.bins, (m.acc j).toNat =
        max (s.mem.acc j).toNat ((Finset.range s.blockCount).sup fun c => workPower s.mem (s.bins * c + j)) := by
  obtain ⟨m, w, hexec, -, hframe, hcells⟩ := acc_ready h
  refine ⟨m, w, hexec, hframe, fun j hj => ?_⟩
  rw [hcells j hj, hpeak]
  exact accumulate_max _ _ _ fun c _ => workPower_lt _ _

/-- A second ACC of the same buffer takes the maximum with the same powers again (R213). -/
theorem acc_twice_peak {s : State} (h : Ready .acc s) (hpeak : s.peak = true) :
    ∃ t u, exec .acc s = .next t ∧ exec .acc t = .next u ∧ (∀ j, u.mem.acc j = t.mem.acc j) ∧
      u.passCnt.toNat = (s.passCnt.toNat + 2 * (s.blockCount * s.deff)) % 2 ^ 32 := by
  obtain ⟨m, w, hexec, hframe, hcells⟩ := acc_ready_peak h hpeak
  obtain ⟨m', w', hexec', hframe', hcells'⟩ := acc_ready_peak (h.acc_again hframe _ w) hpeak
  refine ⟨_, _, hexec, hexec', fun j => ?_, ?_⟩
  · by_cases hj : j < s.bins
    · have hpowers : ((Finset.range s.blockCount).sup fun c => workPower m (s.bins * c + j)) =
          (Finset.range s.blockCount).sup fun c => workPower s.mem (s.bins * c + j) :=
        Finset.sup_congr rfl fun c hc => hframe.workPower_below_acc (h.acc_pair_lt (Finset.mem_range.1 hc) hj)
      apply BitVec.eq_of_toNat_eq
      calc (m'.acc j).toNat
          = max (m.acc j).toNat ((Finset.range s.blockCount).sup fun c => workPower m (s.bins * c + j)) := hcells' j hj
        _ = (m.acc j).toNat := by rw [hpowers, hcells j hj, max_assoc, max_self]
    · exact hframe'.acc_above (Nat.not_lt.1 hj)
  · show (BitVec.ofNat 32 ((BitVec.ofNat 32 (s.passCnt.toNat + s.blockCount * s.deff)).toNat + s.blockCount * s.deff)).toNat = _
    rw [BitVec.toNat_ofNat, BitVec.toNat_ofNat, Nat.mod_add_mod, Nat.add_assoc, two_mul]

/-- Settles O30: what a buffer adds does not depend on ACC and addition modulo 2^64 commutes; a maximum with the same powers changes
nothing the second time. -/
theorem accumulationLaws : Obligations.AccumulationLaws := by
  refine ⟨fun s as bs hlegal hcommon hfft hpeak has hbs => ?_, fun s h hpeak => acc_twice_peak h hpeak⟩
  have h : s.Averages := ⟨hlegal, hcommon, hfft, hpeak⟩
  obtain ⟨n₁, m₁, w₁, ht, hm₁⟩ := exec_acc_loadWork h has
  obtain ⟨n₂, m₂, w₂, ht', hm₂⟩ := exec_acc_loadWork (s := { s with wlen := n₁, passCnt := _, mem := m₁, status := w₁ }) h hbs
  obtain ⟨k₁, l₁, v₁, hu, hl₁⟩ := exec_acc_loadWork h hbs
  obtain ⟨k₂, l₂, v₂, hu', hl₂⟩ := exec_acc_loadWork (s := { s with wlen := k₁, passCnt := _, mem := l₁, status := v₁ }) h has
  refine ⟨_, _, _, _, ht, ht', hu, hu', fun j => ?_, add_right_comm _ _ _⟩
  calc m₂.acc j = s.mem.acc j + addedPower s.bins as j + addedPower s.bins bs j := hm₁ j ▸ hm₂ j
    _ = s.mem.acc j + addedPower s.bins bs j + addedPower s.bins as j := add_right_comm _ _ _
    _ = l₂.acc j := (hl₁ j ▸ hl₂ j).symm

/-! ## CLRACC -/

/-- Settles O31: CLRACC's one check bounds N, so the cleared range lies in ACC's slot. -/
theorem clraccClears : Obligations.ClraccClears := by
  refine ⟨reportsErrors .clracc, fun s h => ?_⟩
  obtain ⟨-, hbins⟩ := bins_le_of_passed h.legal h.passed (by simp)
  refine ⟨_, h.exec rfl, rfl, fun x hx => Memory.read_zeroAccs_outside _ _ hx, fun j hj => ?_⟩
  exact (Memory.acc_zeroAccs s.mem hbins j).trans (if_pos hj)

end Sys2Proof.Machine

/-! The logarithm primitive LOG10C (42_power_reducer R230 to R233): its exact test on powers, that a rational ratio has no ties, that
`log10c` is LOG10C, and the range of the values the block forms. -/

namespace Sys2Proof.Machine

/-! ## The exact test -/

/-- A power of ten against `r^(2f)`, by logarithms (R230). -/
theorem ten_zpow_le_pow_iff (f : Nat) {r : ℝ} (hr : 0 < r) (z : Int) :
    (10 : ℝ) ^ z ≤ r ^ (2 * f) ↔ (z : ℝ) ≤ 2 * (f * Real.logb 10 r) := by
  rw [← Real.rpow_intCast, ← Real.le_logb_iff_rpow_le (by norm_num) (by positivity), Real.logb_pow]
  push_cast
  rw [mul_assoc]

/-- The same comparison from the other side (R230). -/
theorem pow_le_ten_zpow_iff (f : Nat) {r : ℝ} (hr : 0 < r) (z : Int) :
    r ^ (2 * f) ≤ (10 : ℝ) ^ z ↔ 2 * (f * Real.logb 10 r) ≤ (z : ℝ) := by
  rw [← Real.rpow_intCast, ← Real.logb_le_iff_le_rpow (by norm_num) (by positivity), Real.logb_pow]
  push_cast
  rw [mul_assoc]

/-- The exact test of R230 holds of n exactly when f·log10(r) is strictly within 1/2 of n. -/
theorem exactTest_iff (f : Nat) {r : ℝ} (hr : 0 < r) (n : Int) :
    (10 : ℝ) ^ (2 * n - 1) < r ^ (2 * f) ∧ r ^ (2 * f) < (10 : ℝ) ^ (2 * n + 1) ↔
      |(f : ℝ) * Real.logb 10 r - n| < 1 / 2 := by
  rw [← not_le, pow_le_ten_zpow_iff f hr, ← not_le, ten_zpow_le_pow_iff f hr, not_le, not_le, abs_lt]
  push_cast
  constructor <;> rintro ⟨hlo, hhi⟩ <;> constructor <;> linarith

/-! ## A rational ratio has no ties -/

/-- No odd power of ten is the square of a rational number (R231). -/
theorem ten_zpow_odd_ne_sq (q : ℚ) (n : Int) : (10 : ℚ) ^ (2 * n - 1) ≠ q ^ 2 := by
  intro h
  have hsq : (10 : ℚ) = q * 10 ^ (1 - n) * (q * 10 ^ (1 - n)) := by
    calc (10 : ℚ) = 10 ^ (2 * n - 1) * (10 ^ (1 - n) * 10 ^ (1 - n)) := by
          rw [← zpow_add₀ (by norm_num), ← zpow_add₀ (by norm_num)]
          ring_nf
          rw [zpow_one]
      _ = q * 10 ^ (1 - n) * (q * 10 ^ (1 - n)) := by rw [h]; ring
  have hten : ¬IsSquare (10 : ℚ) := by
    rw [show (10 : ℚ) = ((10 : Nat) : ℚ) from rfl, Rat.isSquare_natCast_iff]
    norm_num
  exact hten ⟨_, hsq⟩

/-- f·log10 of a rational ratio is never halfway between two integers (R231). -/
theorem log_ratio_ne_half (f : Nat) {a b : Nat} (ha : 1 ≤ a) (hb : 1 ≤ b) (n : Int) :
    (f : ℝ) * Real.logb 10 ((a : ℝ) / b) ≠ n - 1 / 2 := by
  intro h
  have hr : (0 : ℝ) < (a : ℝ) / b := by positivity
  have heq : (10 : ℝ) ^ (2 * n - 1) = ((a : ℝ) / b) ^ (2 * f) :=
    le_antisymm ((ten_zpow_le_pow_iff f hr _).2 (by push_cast; linarith))
      ((pow_le_ten_zpow_iff f hr _).2 (by push_cast; linarith))
  refine ten_zpow_odd_ne_sq (((a : ℚ) / b) ^ f) n ?_
  rw [← pow_mul, mul_comm f 2]
  refine Rat.cast_injective (α := ℝ) ?_
  push_cast
  exact heq

/-! ## `log10c` -/

/-- The comparison in natural numbers is the comparison with the ratio's power. -/
theorem tenPowLe_iff (f : Nat) {a b : Nat} (ha : 1 ≤ a) (hb : 1 ≤ b) (e : Int) :
    tenPowLe e (b ^ (2 * f)) (a ^ (2 * f)) = true ↔ (e : ℝ) ≤ 2 * (f * Real.logb 10 ((a : ℝ) / b)) := by
  have hb' : (0 : ℝ) < (b : ℝ) ^ (2 * f) := by positivity
  rw [← ten_zpow_le_pow_iff f (by positivity), div_pow, le_div_iff₀ hb', tenPowLe]
  split
  · next he =>
    lift e to Nat using he
    simp only [Int.toNat_natCast, decide_eq_true_eq, zpow_natCast]
    exact_mod_cast Iff.rfl
  · next he =>
    obtain ⟨k, rfl⟩ : ∃ k : Nat, e = -k := ⟨e.natAbs, by omega⟩
    simp only [neg_neg, Int.toNat_natCast, decide_eq_true_eq, zpow_neg, zpow_natCast]
    rw [inv_mul_le_iff₀ (by positivity), mul_comm ((10 : ℝ) ^ k)]
    exact_mod_cast Iff.rfl

/-- The logarithm of a number at least 1 lies between 0 and its length in bits. -/
theorem logb_natCast_bounds {a : Nat} (ha : 1 ≤ a) : 0 ≤ Real.logb 10 a ∧ Real.logb 10 a ≤ (a.log2 + 1 : Nat) := by
  refine ⟨Real.logb_nonneg (by norm_num) (by exact_mod_cast ha), ?_⟩
  rw [Real.logb_le_iff_le_rpow (by norm_num) (by positivity), Real.rpow_natCast]
  have hlt : a < 10 ^ (a.log2 + 1) := Nat.lt_log2_self.trans_le (Nat.pow_le_pow_left (by norm_num) _)
  exact_mod_cast hlt.le

theorem logb_ratio {a b : Nat} (ha : 1 ≤ a) (hb : 1 ≤ b) :
    Real.logb 10 ((a : ℝ) / b) = Real.logb 10 a - Real.logb 10 b :=
  Real.logb_div (by positivity) (by positivity)

/-- A search for the last k a predicate holds of finds it, wherever it starts below. -/
theorem greatest_eq {p : Nat → Bool} {m : Nat} (hp : ∀ k, k ≠ 0 → (p k = true ↔ k ≤ m)) (bits acc : Nat) (hacc : acc ≤ m)
    (hm : m < acc + 2 ^ bits) : greatest p bits acc = m := by
  induction bits generalizing acc with
  | zero => rw [greatest]; omega
  | succ b ih =>
    have hpos := Nat.two_pow_pos b
    rw [pow_succ] at hm
    rw [greatest]
    split
    · next h => exact ih _ ((hp _ (by omega)).1 h) (by omega)
    · next h =>
      rw [hp _ (by omega)] at h
      exact ih _ hacc (by omega)

/-- The last k at most a real number is its floor, or 0 for a number below 0. -/
theorem greatest_eq_floor {p : Nat → Bool} {x : ℝ} (hp : ∀ k : Nat, p k = true ↔ (k : ℝ) ≤ x) {bits : Nat}
    (hx : x < (2 ^ bits : Nat)) : greatest p bits 0 = ⌊x⌋₊ :=
  greatest_eq (fun k hk => (hp k).trans (Nat.le_floor_iff' hk).symm) bits 0 (Nat.zero_le _)
    (by rw [Nat.zero_add]; exact (Nat.floor_lt' (Nat.two_pow_pos bits).ne').2 hx)

/-- The search of `log10c` starts below f·log10(a/b) and ends above it. -/
theorem log_ratio_bounds (f : Nat) {a b : Nat} (ha : 1 ≤ a) (hb : 1 ≤ b) :
    -(logOffset f b : ℝ) ≤ f * Real.logb 10 ((a : ℝ) / b) ∧
      f * Real.logb 10 ((a : ℝ) / b) ≤ (f * (a.log2 + 1) : Nat) := by
  obtain ⟨ha₀, ha₁⟩ := logb_natCast_bounds ha
  obtain ⟨hb₀, hb₁⟩ := logb_natCast_bounds hb
  have hf : (0 : ℝ) ≤ f := Nat.cast_nonneg f
  rw [logb_ratio ha hb, logOffset, Nat.cast_mul, Nat.cast_mul, ← mul_neg]
  exact ⟨mul_le_mul_of_nonneg_left (by linarith) hf, mul_le_mul_of_nonneg_left (by linarith) hf⟩

/-- What `log10c` finds: the integer n with f·log10(a/b) from n - 1/2, included, to n + 1/2. -/
theorem log10c_spec (f : Nat) {a b : Nat} (ha : 1 ≤ a) (hb : 1 ≤ b) :
    (log10c f a b : ℝ) - 1 / 2 ≤ f * Real.logb 10 ((a : ℝ) / b) ∧
      f * Real.logb 10 ((a : ℝ) / b) < (log10c f a b : ℝ) + 1 / 2 := by
  obtain ⟨hlo, hhi⟩ := log_ratio_bounds f ha hb
  obtain ⟨x, hx⟩ : ∃ x, x = f * Real.logb 10 ((a : ℝ) / b) + logOffset f b + 1 / 2 := ⟨_, rfl⟩
  have htest : ∀ k : Nat, tenPowLe (2 * ((k : Int) - logOffset f b) - 1) (b ^ (2 * f)) (a ^ (2 * f)) = true ↔ (k : ℝ) ≤ x :=
    fun k => by
      rw [tenPowLe_iff f ha hb, hx]
      push_cast
      constructor <;> intro h <;> linarith
  have hbits : x < (2 ^ ((logOffset f b + f * (a.log2 + 1) + 1).log2 + 1) : Nat) := by
    have hlog : ((logOffset f b + f * (a.log2 + 1) + 1 : Nat) : ℝ) < _ := Nat.cast_lt.2 Nat.lt_log2_self
    rw [Nat.cast_add, Nat.cast_add] at hlog
    push_cast at hhi hlog ⊢
    linarith
  have hvalue : log10c f a b = (⌊x⌋₊ : Int) - logOffset f b := by rw [log10c, greatest_eq_floor htest hbits]
  have hfloor := Nat.floor_le (show 0 ≤ x by linarith)
  have hfloor' := Nat.lt_floor_add_one x
  rw [hvalue]
  push_cast
  constructor <;> linarith

/-- Of two integers within 1/2 of a number, one strictly, there is one. -/
theorem int_eq_of_near {x : ℝ} {m n : Int} (hm : |x - m| ≤ 1 / 2) (hn : |x - n| < 1 / 2) : m = n := by
  obtain ⟨hm₁, hm₂⟩ := abs_le.1 hm
  obtain ⟨hn₁, hn₂⟩ := abs_lt.1 hn
  have h₁ : (m : ℝ) < ((n + 1 : Int) : ℝ) := by push_cast; linarith
  have h₂ : (n : ℝ) < ((m + 1 : Int) : ℝ) := by push_cast; linarith
  have h₁ : m < n + 1 := by exact_mod_cast h₁
  have h₂ : n < m + 1 := by exact_mod_cast h₂
  omega

/-- `log10c` is strictly within 1/2 of the logarithm, since a rational ratio has no ties (R231). -/
theorem abs_sub_log10c_lt (f : Nat) {a b : Nat} (ha : 1 ≤ a) (hb : 1 ≤ b) :
    |(f : ℝ) * Real.logb 10 ((a : ℝ) / b) - log10c f a b| < 1 / 2 := by
  obtain ⟨hlo, hhi⟩ := log10c_spec f ha hb
  have hne := log_ratio_ne_half f ha hb (log10c f a b)
  rw [abs_lt]
  exact ⟨by linarith [hlo.lt_of_ne hne.symm], by linarith⟩

/-- The model's `log10c` is LOG10C of the ratio (R230). -/
theorem isLog10c_log10c (f : Nat) {a b : Nat} (ha : 1 ≤ a) (hb : 1 ≤ b) : IsLog10c f ((a : ℝ) / b) (log10c f a b) :=
  (abs_sub_log10c_lt f ha hb).le

/-- Settles O39: the exact test by logarithms of its powers; a rational ratio has no ties, so only `log10c` is near. -/
theorem logIsNearest : Obligations.LogIsNearest := by
  refine ⟨fun f r n _ hr => exactTest_iff f hr n, fun f a b _ ha hb n => ?_⟩
  have hnear := abs_sub_log10c_lt f ha hb
  refine ⟨⟨fun h => int_eq_of_near h hnear, fun h => h ▸ hnear.le⟩, ?_⟩
  rw [exactTest_iff f (by positivity)]
  exact ⟨fun h => int_eq_of_near h.le hnear, fun h => h ▸ hnear⟩

/-! ## The range of a stored value -/

/-- log10(2) from powers: 10^59 < 2^196 and 2^485 < 10^146. -/
theorem logb_two_bounds : (59 : ℝ) / 196 < Real.logb 10 2 ∧ Real.logb 10 2 < 146 / 485 := by
  have hpow : ∀ k : Nat, (k : ℝ) * Real.logb 10 2 = Real.logb 10 (2 ^ k) := fun k => (Real.logb_pow 10 2 k).symm
  constructor
  · rw [div_lt_iff₀' (by norm_num), ← Nat.cast_ofNat (n := 196), hpow, Real.lt_logb_iff_rpow_lt (by norm_num) (by norm_num)]
    norm_num
  · rw [lt_div_iff₀' (by norm_num), ← Nat.cast_ofNat (n := 485), hpow, Real.logb_lt_iff_lt_rpow (by norm_num) (by norm_num),
      show 485 = 97 * 5 from rfl, pow_mul]
    norm_num

/-- The logarithm of a number of at most 64 bits. -/
theorem logb_le_of_lt_two_pow {a : Nat} (ha : 1 ≤ a) (hlt : a < 2 ^ 64) : Real.logb 10 a ≤ 64 * Real.logb 10 2 := by
  have hle : (a : ℝ) ≤ 2 ^ 64 := by exact_mod_cast hlt.le
  calc Real.logb 10 a ≤ Real.logb 10 (2 ^ 64) := Real.logb_le_logb_of_le (by norm_num) (by positivity) hle
    _ = 64 * Real.logb 10 2 := by rw [Real.logb_pow]; norm_num

/-- Every power ratio of numbers of at most 64 bits lies in 2^-64 .. 2^64, so its dB value in -19266 .. 19266 (R233). -/
theorem log10c_range {a b : Nat} (ha : 1 ≤ a) (ha' : a < 2 ^ 64) (hb : 1 ≤ b) (hb' : b < 2 ^ 64) :
    -19266 ≤ log10c 1000 a b ∧ log10c 1000 a b ≤ 19266 := by
  obtain ⟨hlo, hhi⟩ := log10c_spec 1000 ha hb
  have htwo := logb_two_bounds.2
  have ha₁ := logb_le_of_lt_two_pow ha ha'
  have hb₁ := logb_le_of_lt_two_pow hb hb'
  have ha₀ := (logb_natCast_bounds ha).1
  have hb₀ := (logb_natCast_bounds hb).1
  rw [logb_ratio ha hb] at hlo hhi
  have h₁ : ((-19267 : Int) : ℝ) < log10c 1000 a b := by push_cast at hhi ⊢; linarith
  have h₂ : (log10c 1000 a b : ℝ) < ((19267 : Int) : ℝ) := by push_cast at hlo ⊢; linarith
  rw [Int.cast_lt] at h₁ h₂
  omega

/-- No stored dB value is the sentinel (R233). -/
theorem dbWord_ne_sentinel (n : Int) : dbWord n ≠ sentinel := by
  intro h
  have hvalue := dbWord_toInt n
  have hlo := (saturate_range n).1
  rw [h, show sentinel.toInt = -2 ^ 31 by decide] at hvalue
  omega

/-- Settles O40: saturation stops short of the sentinel; both sides of an EMIT ratio have at most 64 bits. -/
theorem storedDecibels : Obligations.StoredDecibels := by
  refine ⟨fun n => ⟨dbWord_toInt n, dbWord_ne_sentinel n⟩, fun x fs cnt hx hx' hfs hfs' hcnt hcnt' => ?_⟩
  refine log10c_range hx hx' (Nat.mul_pos hfs hcnt) ?_
  calc fs * cnt < 2 ^ 32 * 2 ^ 32 := Nat.mul_lt_mul'' hfs' hcnt'
    _ = 2 ^ 64 := by norm_num

end Sys2Proof.Machine

/-! RMS_DC_DB's argument (42_power_reducer R235) in real numbers: what `Surd` numbers stand for and that their sign is exact, what the
bounds of `dcBounds` bound, and that `dcNearest` is a nearest integer of the logarithm. -/

namespace Sys2Proof.Machine

/-! ## The sign of a surd -/

/-- The real number a surd stands for. -/
noncomputable def surdVal : (ds : List Nat) → Surd ds → ℝ
  | [], x => (show Int from x : ℝ)
  | d :: ds, x => surdVal ds x.1 + surdVal ds x.2 * √(d : ℝ)

@[simp] theorem surdVal_surdInt (ds : List Nat) (z : Int) : surdVal ds (surdInt ds z) = z := by
  induction ds generalizing z with
  | nil => rfl
  | cons d ds ih => simp [surdVal, surdInt, ih]

@[simp] theorem surdVal_surdAdd (ds : List Nat) (x y : Surd ds) : surdVal ds (surdAdd ds x y) = surdVal ds x + surdVal ds y := by
  induction ds with
  | nil => exact Int.cast_add _ _
  | cons d ds ih =>
    simp only [surdVal, surdAdd, ih]
    ring

@[simp] theorem surdVal_surdNeg (ds : List Nat) (x : Surd ds) : surdVal ds (surdNeg ds x) = -surdVal ds x := by
  induction ds with
  | nil => exact Int.cast_neg _
  | cons d ds ih =>
    simp only [surdVal, surdNeg, ih]
    ring

@[simp] theorem surdVal_surdMul (ds : List Nat) (x y : Surd ds) : surdVal ds (surdMul ds x y) = surdVal ds x * surdVal ds y := by
  induction ds with
  | nil => exact Int.cast_mul _ _
  | cons d ds ih =>
    have hsq : √(d : ℝ) * √(d : ℝ) = d := Real.mul_self_sqrt (Nat.cast_nonneg d)
    simp only [surdVal, surdMul, surdVal_surdAdd, surdVal_surdInt, ih, Int.cast_natCast]
    linear_combination -(surdVal ds x.2 * surdVal ds y.2) * hsq

@[simp] theorem surdVal_surdPow (ds : List Nat) (x : Surd ds) (n : Nat) : surdVal ds (surdPow ds x n) = surdVal ds x ^ n := by
  induction n with
  | zero => simp [surdPow]
  | succ n ih => rw [surdPow, surdVal_surdMul, ih, pow_succ]

/-- The sign of a real number, as the model's integer -1, 0 or 1. -/
noncomputable def realSign (x : ℝ) : Int := (SignType.sign x : SignType)

theorem realSign_zero : realSign 0 = 0 := by simp [realSign]

theorem realSign_pos {x : ℝ} (h : 0 < x) : realSign x = 1 := by simp [realSign, sign_pos h]

theorem realSign_neg {x : ℝ} (h : x < 0) : realSign x = -1 := by simp [realSign, sign_neg h]

theorem realSign_mul (x y : ℝ) : realSign (x * y) = realSign x * realSign y := by simp [realSign, sign_mul]

theorem realSign_mul_of_pos {c : ℝ} (hc : 0 < c) (x : ℝ) : realSign (c * x) = realSign x := by
  rw [realSign_mul, realSign_pos hc, one_mul]

theorem realSign_intCast (z : Int) : realSign z = z.sign := by
  rcases lt_trichotomy z 0 with h | rfl | h
  · rw [realSign_neg (by exact_mod_cast h), Int.sign_eq_neg_one_of_neg h]
  · rw [Int.cast_zero, realSign_zero, Int.sign_zero]
  · rw [realSign_pos (by exact_mod_cast h), Int.sign_eq_one_of_pos h]

theorem realSign_eq_zero_iff (x : ℝ) : realSign x = 0 ↔ x = 0 := by
  rcases lt_trichotomy x 0 with h | rfl | h
  · simp [realSign_neg h, h.ne]
  · simp [realSign_zero]
  · simp [realSign_pos h, h.ne']

theorem realSign_nonneg_iff (x : ℝ) : 0 ≤ realSign x ↔ 0 ≤ x := by
  rcases lt_trichotomy x 0 with h | rfl | h
  · simp [realSign_neg h, h]
  · simp [realSign_zero]
  · simp [realSign_pos h, h.le]

/-- The sign of a sum, by `surdSign`'s cases: of terms of opposite signs, by the difference of the squares. -/
theorem realSign_add (x y : ℝ) :
    realSign (x + y) =
      if realSign y = 0 ∨ realSign x = realSign y then realSign x
      else if realSign x = 0 then realSign y
      else realSign x * realSign (x * x - y * y) := by
  rw [show x * x - y * y = (x - y) * (x + y) by ring, realSign_mul]
  rcases lt_trichotomy x 0 with hx | rfl | hx <;> rcases lt_trichotomy y 0 with hy | rfl | hy
  · simp [realSign_neg hx, realSign_neg hy, realSign_neg (add_neg hx hy)]
  · simp [realSign_zero]
  · simp [realSign_neg hx, realSign_pos hy, realSign_neg (show x - y < 0 by linarith)]
  · simp [realSign_zero, realSign_neg hy]
  · simp [realSign_zero]
  · simp [realSign_zero, realSign_pos hy]
  · simp [realSign_pos hx, realSign_neg hy, realSign_pos (show 0 < x - y by linarith)]
  · simp [realSign_zero]
  · simp [realSign_pos hx, realSign_pos hy, realSign_pos (add_pos hx hy)]

/-- A multiple of √d has its factor's sign, but is 0 when d is. -/
theorem realSign_mul_sqrt (x : ℝ) (d : Nat) : realSign (x * √(d : ℝ)) = if d = 0 then 0 else realSign x := by
  split
  · next h => simp [h, realSign_zero]
  · next h =>
    have hpos : 0 < √(d : ℝ) := Real.sqrt_pos.2 (by exact_mod_cast Nat.pos_of_ne_zero h)
    rw [realSign_mul, realSign_pos hpos, mul_one]

/-- `surdSign` is the sign of the real number. -/
theorem surdSign_eq (ds : List Nat) (x : Surd ds) : surdSign ds x = realSign (surdVal ds x) := by
  induction ds with
  | nil => exact (realSign_intCast _).symm
  | cons d ds ih =>
    have hsq : surdVal ds x.2 * √(d : ℝ) * (surdVal ds x.2 * √(d : ℝ)) = d * (surdVal ds x.2 * surdVal ds x.2) := by
      rw [mul_mul_mul_comm, Real.mul_self_sqrt (Nat.cast_nonneg d), mul_comm]
    rw [surdVal, realSign_add, realSign_mul_sqrt, hsq, surdSign]
    simp only [ih, surdVal_surdAdd, surdVal_surdNeg, surdVal_surdMul, surdVal_surdInt, Int.cast_natCast, sub_eq_add_neg]

/-! ## The argument of RMS_DC_DB -/

/-- n·(rms - dc) for the powers ms of n pairs: √(S·n) - Σ √m (R235). -/
noncomputable def dcValue (ms : List Nat) : ℝ := √((ms.sum * ms.length : Nat) : ℝ) - (ms.map fun m : Nat => √(m : ℝ)).sum

/-- (rms - dc)/ref with ref = num / den (R235). -/
noncomputable def dcRatio (ms : List Nat) (num den : Nat) : ℝ := den * dcValue ms / (num * ms.length)

theorem surdVal_surdRoots (ms : List Nat) : surdVal ms (surdRoots ms) = (ms.map fun m : Nat => √(m : ℝ)).sum := by
  induction ms with
  | nil => exact Int.cast_zero
  | cons m ms ih => simp [surdRoots, surdVal, ih, add_comm]

theorem surdVal_dcSurd (ms : List Nat) : surdVal _ (dcSurd ms) = dcValue ms := by
  simp only [surdVal, dcSurd, surdVal_surdNeg, surdVal_surdRoots, surdVal_surdInt, dcValue]
  push_cast
  ring

/-- Both sides of a test of R230 cleared of denominators and negative powers of ten. -/
theorem cleared_test_eq (v q : ℝ) (hq : q ≠ 0) (d : Nat) (e : Nat) (z : Int) :
    ((d ^ e * 10 ^ (-z).toNat : Nat) : ℝ) * v ^ e - q ^ e * 10 ^ z.toNat =
      q ^ e * 10 ^ (-z).toNat * ((d * v / q) ^ e - (10 : ℝ) ^ z) := by
  have hten : (10 : ℝ) ^ z.toNat = 10 ^ (-z).toNat * 10 ^ z := by
    rw [← zpow_natCast, ← zpow_natCast, ← zpow_add₀ (by norm_num)]
    congr 1
    omega
  have hq' : q ^ e ≠ 0 := pow_ne_zero e hq
  rw [hten, div_pow, mul_pow]
  push_cast
  field_simp

/-- `dcCompare` is the sign of the exact test of R230 for f = 2000. -/
theorem dcCompare_eq {ms : List Nat} {num : Nat} (hnum : num ≠ 0) (hms : ms ≠ []) (den : Nat) (n : Int) :
    dcCompare ms num den n = realSign (dcRatio ms num den ^ (2 * 2000) - (10 : ℝ) ^ (2 * n - 1)) := by
  have hq : ((num * ms.length : Nat) : ℝ) ≠ 0 := by
    simpa [hnum] using hms
  have hclear := cleared_test_eq (dcValue ms) _ hq den (2 * 2000) (2 * n - 1)
  have hpos : (0 : ℝ) < ((num * ms.length : Nat) : ℝ) ^ (2 * 2000) * 10 ^ (-(2 * n - 1)).toNat := by positivity
  rw [dcRatio, ← Nat.cast_mul, ← realSign_mul_of_pos hpos, ← hclear, dcCompare, surdSign_eq, surdVal_surdAdd, surdVal_surdMul,
    surdVal_surdPow, surdVal_dcSurd, surdVal_surdInt, surdVal_surdInt, neg_sub, show 2 * 2000 = 4000 from rfl]
  push_cast
  exact congrArg realSign (sub_eq_add_neg _ _).symm

/-! ## Nearest integers -/

/-- The answer is a nearest integer of 2000·log10(r), as far as a register can show it, or the two neighbours of a tie (R231, R233). -/
def Nearest.IsLog (r : ℝ) : Nearest → Prop
  | .exact n => ∃ k, IsLog10c 2000 r k ∧ dbWord n = dbWord k
  | .either n => IsLog10c 2000 r n ∧ IsLog10c 2000 r (n - 1)

theorem isLog10c_of_bounds {f : Nat} {r : ℝ} {n : Int} (hlo : (n : ℝ) - 1 / 2 ≤ f * Real.logb 10 r)
    (hhi : f * Real.logb 10 r ≤ (n : ℝ) + 1 / 2) : IsLog10c f r n :=
  abs_le.2 ⟨by linarith, by linarith⟩

/-- A value at most the least a register can show is stored as that. -/
theorem dbWord_of_le {n : Int} (h : n ≤ -(2 ^ 31 - 1)) : dbWord n = dbWord (-(2 ^ 31 - 1)) := by
  rw [dbWord, dbWord, saturate, saturate]
  congr 1
  omega

/-- A ratio of at most 10 has its dB value far below the greatest a register can show. -/
theorem log_le_of_le_ten {r : ℝ} (hr : 0 < r) (hten : r ≤ 10) : (2000 : Nat) * Real.logb 10 r ≤ 2000 := by
  have hle : Real.logb 10 r ≤ 1 := by
    rw [Real.logb_le_iff_le_rpow (by norm_num) hr, Real.rpow_one]
    exact hten
  push_cast
  linarith

section Exact

variable {ms : List Nat} {num den : Nat} (hnum : num ≠ 0) (hms : ms ≠ []) (hr : 0 < dcRatio ms num den)

include hnum hms hr

theorem dcCompare_nonneg_iff (n : Int) :
    0 ≤ dcCompare ms num den n ↔ (n : ℝ) - 1 / 2 ≤ (2000 : Nat) * Real.logb 10 (dcRatio ms num den) := by
  rw [dcCompare_eq hnum hms, realSign_nonneg_iff, sub_nonneg, ten_zpow_le_pow_iff 2000 hr]
  push_cast
  constructor <;> intro h <;> linarith

theorem dcCompare_eq_zero_iff (n : Int) :
    dcCompare ms num den n = 0 ↔ (2000 : Nat) * Real.logb 10 (dcRatio ms num den) = (n : ℝ) - 1 / 2 := by
  rw [dcCompare_eq hnum hms, realSign_eq_zero_iff, sub_eq_zero, le_antisymm_iff, pow_le_ten_zpow_iff 2000 hr,
    ten_zpow_le_pow_iff 2000 hr, ← le_antisymm_iff]
  push_cast
  constructor <;> intro h <;> linarith

/-- The exact comparison decides the nearest integer (R230, R231); a ratio too small for the search is stored as the least value a
register can show, as its nearest integer is (R233). -/
theorem dcExact_isLog (hten : dcRatio ms num den ≤ 10) : (dcExact ms num den).IsLog (dcRatio ms num den) := by
  obtain ⟨l, hl⟩ : ∃ l, l = (2000 : Nat) * Real.logb 10 (dcRatio ms num den) := ⟨_, rfl⟩
  have hl_le : l ≤ 2000 := hl ▸ log_le_of_le_ten hr hten
  have htest : ∀ k : Nat, decide (0 ≤ dcCompare ms num den (-(2 ^ 31 - 1) + k)) = true ↔
      (k : ℝ) ≤ l + (2 ^ 31 - 1) + 1 / 2 := fun k => by
    rw [decide_eq_true_eq, dcCompare_nonneg_iff hnum hms hr, ← hl]
    push_cast
    constructor <;> intro h <;> linarith
  obtain ⟨n, hn⟩ : ∃ n : Int, n = -(2 ^ 31 - 1) + (⌊l + (2 ^ 31 - 1) + 1 / 2⌋₊ : Int) := ⟨_, rfl⟩
  have hexact : dcExact ms num den = if dcCompare ms num den n = 0 then .either n else .exact n := by
    rw [hn, ← greatest_eq_floor (bits := 32) htest (by push_cast; linarith)]
    rfl
  have hfloor := Nat.lt_floor_add_one (l + (2 ^ 31 - 1) + 1 / 2)
  have hhi : l ≤ (n : ℝ) + 1 / 2 := by
    rw [hn]
    push_cast
    linarith
  rw [hexact]
  split
  · next htie =>
    rw [dcCompare_eq_zero_iff hnum hms hr, ← hl] at htie
    exact ⟨isLog10c_of_bounds (hl ▸ htie.ge) (hl ▸ hhi),
      isLog10c_of_bounds (by rw [← hl]; push_cast; linarith) (by rw [← hl]; push_cast; linarith)⟩
  · by_cases hlow : l + (2 ^ 31 - 1) + 1 / 2 < 0
    · have hround := abs_le.1 (abs_sub_round l)
      rw [Nat.floor_of_nonpos hlow.le, Nat.cast_zero, add_zero] at hn
      refine ⟨round l, hl ▸ abs_sub_round l, ?_⟩
      have hround_lt : (round l : ℝ) < ((-(2 ^ 31 - 1) : Int) : ℝ) := by
        push_cast
        linarith
      rw [hn, dbWord_of_le (Int.cast_lt.1 hround_lt).le]
    · have hfloor' := Nat.floor_le (not_lt.1 hlow)
      refine ⟨n, isLog10c_of_bounds ?_ (hl ▸ hhi), rfl⟩
      rw [← hl, hn]
      push_cast
      linarith

end Exact

/-! ## The bounds -/

theorem isqrt_eq_sqrt (n : Nat) : isqrt n = Nat.sqrt n :=
  Nat.eq_sqrt.2 (isqrt_spec n)

/-- The integer square root of m·4^k bounds 2^k·√m. -/
theorem isqrt_shift_bounds (m k : Nat) :
    (isqrt (m * 4 ^ k) : ℝ) ≤ 2 ^ k * √(m : ℝ) ∧ 2 ^ k * √(m : ℝ) ≤ (isqrt (m * 4 ^ k) + 1 : Nat) := by
  have hroot : 2 ^ k * √(m : ℝ) = √((m * 4 ^ k : Nat) : ℝ) := by
    rw [Nat.cast_mul, Real.sqrt_mul (Nat.cast_nonneg m), mul_comm, Nat.cast_pow,
      show ((4 : Nat) : ℝ) = 2 ^ 2 by norm_num, ← pow_mul, mul_comm 2 k, pow_mul, Real.sqrt_sq (by positivity)]
  rw [hroot, isqrt_eq_sqrt, Nat.cast_succ]
  exact ⟨Real.nat_sqrt_le_real_sqrt, Real.real_sqrt_le_nat_sqrt_succ⟩

theorem isqrt_sum_bounds (ms : List Nat) (k : Nat) :
    (((ms.map fun m => isqrt (m * 4 ^ k)).sum : Nat) : ℝ) ≤ 2 ^ k * (ms.map fun m : Nat => √(m : ℝ)).sum ∧
      2 ^ k * (ms.map fun m : Nat => √(m : ℝ)).sum ≤ ((ms.map fun m => isqrt (m * 4 ^ k) + 1).sum : Nat) := by
  induction ms with
  | nil => simp
  | cons m ms ih =>
    obtain ⟨hlo, hhi⟩ := isqrt_shift_bounds m k
    obtain ⟨ihlo, ihhi⟩ := ih
    simp only [List.map_cons, List.sum_cons, mul_add, Nat.cast_add (isqrt _) (List.sum _), Nat.cast_add (isqrt _ + 1)]
    exact ⟨add_le_add hlo ihlo, add_le_add hhi ihhi⟩

/-- `dcBounds` bounds 2^k·n·(rms - dc) where its lower bound is not 0. -/
theorem dcBounds_spec {ms : List Nat} {k : Nat} (h : 0 < (dcBounds ms k).1) :
    ((dcBounds ms k).1 : ℝ) ≤ 2 ^ k * dcValue ms ∧ 2 ^ k * dcValue ms ≤ (dcBounds ms k).2 := by
  obtain ⟨hroot, hroot'⟩ := isqrt_shift_bounds (ms.sum * ms.length) k
  obtain ⟨hsum, hsum'⟩ := isqrt_sum_bounds ms k
  rw [dcValue, mul_sub]
  simp only [dcBounds] at h ⊢
  rw [Nat.cast_sub (by omega)]
  refine ⟨by linarith, ?_⟩
  rw [Nat.cast_sub]
  · linarith
  · have hle : ((ms.map fun m => isqrt (m * 4 ^ k)).sum : ℝ) ≤ ((ms.map fun m => isqrt (m * 4 ^ k) + 1).sum : Nat) :=
      hsum.trans hsum'
    have hle := Nat.cast_le.1 hle
    omega

/-- Two rational bounds of a ratio with one LOG10C between them. -/
theorem isLog10c_of_between (f : Nat) {a b c : Nat} {r : ℝ} (ha : 1 ≤ a) (hb : 1 ≤ b) (hc : 1 ≤ c) (hlo : (a : ℝ) / c ≤ r)
    (hhi : r ≤ (b : ℝ) / c) (h : log10c f a c = log10c f b c) : IsLog10c f r (log10c f a c) := by
  have hpos : (0 : ℝ) < (a : ℝ) / c := by positivity
  have hf : (0 : ℝ) ≤ f := Nat.cast_nonneg f
  have hlog := mul_le_mul_of_nonneg_left (Real.logb_le_logb_of_le (by norm_num : (1 : ℝ) < 10) hpos hlo) hf
  have hlog' := mul_le_mul_of_nonneg_left (Real.logb_le_logb_of_le (by norm_num : (1 : ℝ) < 10) (hpos.trans_le hlo) hhi) hf
  have ha' := (log10c_spec f ha hc).1
  have hb' := (log10c_spec f hb hc).2
  rw [← h] at hb'
  exact isLog10c_of_bounds (ha'.trans hlog) (hlog'.trans hb'.le)

/-- `dcNearest` is right, however many rounds it has (R230, R231, R235). -/
theorem dcNearest_isLog {ms : List Nat} {num den : Nat} (hnum : num ≠ 0) (hden : den ≠ 0) (hms : ms ≠ [])
    (hr : 0 < dcRatio ms num den) (hten : dcRatio ms num den ≤ 10) (rounds k : Nat) :
    (dcNearest ms num den rounds k).IsLog (dcRatio ms num den) := by
  induction rounds generalizing k with
  | zero => exact dcExact_isLog hnum hms hr hten
  | succ rounds ih =>
    rw [dcNearest]
    split
    · next h =>
      obtain ⟨hpos, hsame⟩ := h
      obtain ⟨hlo, hhi⟩ := dcBounds_spec hpos
      have hlen : 0 < ms.length := List.length_pos_of_ne_nil hms
      have hle : (dcBounds ms k).1 ≤ (dcBounds ms k).2 := by exact_mod_cast hlo.trans hhi
      have hscale : dcRatio ms num den = den * (2 ^ k * dcValue ms) / (num * ms.length * 2 ^ k : Nat) := by
        rw [dcRatio]
        push_cast
        field_simp
      refine ⟨_, isLog10c_of_between 2000 (Nat.mul_pos (by omega) hpos) (Nat.mul_pos (by omega) (by omega))
        (Nat.mul_pos (Nat.mul_pos (by omega) hlen) (Nat.two_pow_pos k)) ?_ ?_ hsame, rfl⟩ <;>
      · rw [hscale, Nat.cast_mul den]
        gcongr
    · exact ih _

end Sys2Proof.Machine

/-! RMS (42_power_reducer R235 to R237): the powers of the pairs as RMS reads them, their quadratic mean and the mean of their
roots, and the two ratios whose logarithms RMS takes. -/

namespace Sys2Proof.Machine

/-! ## The powers of the buffer -/

/-- m[p] of every pair of the buffer, 0 for an unwritten byte (R235). -/
def State.rmsPowers (s : State) : List Nat := (List.range (s.lenN / 2)).map (rawPower s.mem s.bias)

/-- `magnitudes` on the bytes of n pairs, each by its index. -/
theorem magnitudes_range (bias : Int) (f : Nat → Byte) (n : Nat) :
    magnitudes bias ((List.range (2 * n)).map f) = (List.range n).map fun p =>
      (((f (2 * p)).toNat - bias) ^ 2 + ((f (2 * p + 1)).toNat - bias) ^ 2 : Int).toNat := by
  induction n generalizing f with
  | zero => rfl
  | succ n ih =>
    have htail := ih fun j => f (j + 1 + 1)
    rw [show 2 * (n + 1) = 2 * n + 1 + 1 by ring, List.range_succ_eq_map, List.range_succ_eq_map, List.range_succ_eq_map]
    simp only [List.map_cons, List.map_map, magnitudes, Function.comp_def, Nat.succ_eq_add_one, htail]
    ring_nf

/-- LEN is even and at least 2 in a state that passes RMS's checks (R235). -/
theorem rms_len_of_passed {s : State} (h : ¬Rejected .rms s) : s.lenN % 2 = 0 ∧ 2 ≤ s.lenN := by
  simp only [Rejected, BadLength, State.LenOk, not_or, not_not, not_lt] at h
  obtain ⟨-, ⟨⟨heven, -⟩, hmin⟩, -⟩ := h
  exact ⟨heven, hmin⟩

/-- The powers RMS reads. -/
theorem rmsBody_ready {s : State} (h : Ready .rms s) : rmsBody s = some (rmsWrite s.rmsPowers s) := by
  have heven : 2 * (s.lenN / 2) = s.lenN := by
    have := (rms_len_of_passed h.passed).1
    omega
  have hpowers := magnitudes_range s.bias (fun j => (s.mem.raw j).getD 0) (s.lenN / 2)
  rw [heven] at hpowers
  simp only [rmsBody, Memory.raws, gather_written (0 : Byte) h.written, hpowers]
  rfl

theorem exec_rms_ready {s : State} (h : Ready .rms s) : exec .rms s = .next (rmsWrite s.rmsPowers s).complete :=
  h.exec (rmsBody_ready h)

/-- There are between 1 and 2^31 - 1 pairs. -/
theorem rms_pairs_bounds {s : State} (h : Ready .rms s) : 1 ≤ s.lenN / 2 ∧ s.lenN / 2 < 2 ^ 31 := by
  have hmin := (rms_len_of_passed h.passed).2
  have hmax : s.lenN < 2 ^ 32 := s.len.isLt
  omega

@[simp] theorem rmsPowers_length (s : State) : s.rmsPowers.length = s.lenN / 2 := by simp [State.rmsPowers]

theorem rmsPowers_sum (s : State) : s.rmsPowers.sum = ∑ p ∈ Finset.range (s.lenN / 2), rawPower s.mem s.bias p :=
  sum_range_map _ _

/-- Each byte is within 128 of either bias. -/
theorem rawPower_le (m : Memory) (s : State) (p : Nat) : rawPower m s.bias p ≤ 2 ^ 15 := by
  have hsq : ∀ j, (m.rawV j - s.bias) ^ 2 ≤ 128 ^ 2 := fun j => by
    have hbyte := ((m.raw j).getD 0).isLt
    refine sq_le_sq' ?_ ?_ <;> rw [Memory.rawV, State.bias] <;> split <;> omega
  have h₀ := hsq (2 * p)
  have h₁ := hsq (2 * p + 1)
  rw [rawPower]
  omega

theorem rmsPowers_sum_le (s : State) : s.rmsPowers.sum ≤ s.lenN / 2 * 2 ^ 15 := by
  rw [rmsPowers_sum]
  simpa using Finset.sum_le_card_nsmul (Finset.range (s.lenN / 2)) _ _ fun p _ => rawPower_le s.mem s p

/-- The model's test of `rms ≤ dc` compares every power with the first. -/
theorem rmsLeDc_rmsPowers {s : State} (hn : 1 ≤ s.lenN / 2) :
    rmsLeDc s.rmsPowers = true ↔ ∀ p < s.lenN / 2, rawPower s.mem s.bias p = rawPower s.mem s.bias 0 := by
  obtain ⟨k, hk⟩ : ∃ k, s.lenN / 2 = k + 1 := ⟨s.lenN / 2 - 1, by omega⟩
  have hhead : s.rmsPowers.headD 0 = rawPower s.mem s.bias 0 := by
    rw [State.rmsPowers, hk, List.range_succ_eq_map, List.map_cons, List.headD_cons]
  rw [rmsLeDc, hhead]
  simp [State.rmsPowers]

/-! ## The two means -/

/-- The square root of the mean of n powers: rms (R235). -/
noncomputable def rootOfMean (n : Nat) (pw : Nat → Nat) : ℝ := √(((∑ p ∈ Finset.range n, pw p : Nat) : ℝ) / n)

/-- The mean of the square roots of n powers: dc (R235). -/
noncomputable def meanOfRoots (n : Nat) (pw : Nat → Nat) : ℝ := (∑ p ∈ Finset.range n, √(pw p : ℝ)) / n

theorem meanOfRoots_nonneg (n : Nat) (pw : Nat → Nat) : 0 ≤ meanOfRoots n pw :=
  div_nonneg (Finset.sum_nonneg fun _ _ => Real.sqrt_nonneg _) (Nat.cast_nonneg n)

/-- The mean power exceeds dc² by the variance of the magnitudes. -/
theorem mean_eq_sq_add_variance {n : Nat} (hn : 1 ≤ n) (pw : Nat → Nat) :
    ((∑ p ∈ Finset.range n, pw p : Nat) : ℝ) / n =
      meanOfRoots n pw ^ 2 + (∑ p ∈ Finset.range n, (√(pw p : ℝ) - meanOfRoots n pw) ^ 2) / n := by
  have hn' : (n : ℝ) ≠ 0 := Nat.cast_ne_zero.2 (by omega)
  have hsum : ∑ p ∈ Finset.range n, √(pw p : ℝ) = n * meanOfRoots n pw := by rw [meanOfRoots, mul_div_cancel₀ _ hn']
  have hexpand : ∑ p ∈ Finset.range n, (√(pw p : ℝ) - meanOfRoots n pw) ^ 2 =
      ((∑ p ∈ Finset.range n, pw p : Nat) : ℝ) - n * meanOfRoots n pw ^ 2 := by
    simp only [sub_sq, Real.sq_sqrt (Nat.cast_nonneg _), Finset.sum_add_distrib, Finset.sum_sub_distrib, Finset.sum_const,
      Finset.card_range, nsmul_eq_mul, ← Finset.sum_mul, ← Finset.mul_sum, hsum, Nat.cast_sum]
    ring
  rw [hexpand]
  field_simp
  ring

/-- The mean of the magnitudes is at most their quadratic mean (R236). -/
theorem meanOfRoots_le {n : Nat} (hn : 1 ≤ n) (pw : Nat → Nat) : meanOfRoots n pw ≤ rootOfMean n pw := by
  refine Real.le_sqrt_of_sq_le ?_
  rw [mean_eq_sq_add_variance hn pw]
  exact le_add_of_nonneg_right (by positivity)

/-- The two means are equal exactly when all powers are (R236). -/
theorem rootOfMean_eq_iff {n : Nat} (hn : 1 ≤ n) (pw : Nat → Nat) :
    rootOfMean n pw = meanOfRoots n pw ↔ ∀ p < n, pw p = pw 0 := by
  have hn' : (n : ℝ) ≠ 0 := Nat.cast_ne_zero.2 (by omega)
  rw [rootOfMean, Real.sqrt_eq_iff_eq_sq (by positivity) (meanOfRoots_nonneg n pw), mean_eq_sq_add_variance hn pw, add_eq_left,
    div_eq_zero_iff, or_iff_left hn', Finset.sum_eq_zero_iff_of_nonneg fun _ _ => sq_nonneg _]
  simp only [Finset.mem_range, sq_eq_zero_iff, sub_eq_zero]
  constructor
  · intro h p hp
    have hroots : √(pw p : ℝ) = √(pw 0 : ℝ) := (h p hp).trans (h 0 hn).symm
    exact_mod_cast (Real.sqrt_inj (Nat.cast_nonneg _) (Nat.cast_nonneg _)).1 hroots
  · intro h p hp
    have hsame : ∀ q ∈ Finset.range n, √(pw q : ℝ) = √(pw p : ℝ) := fun q hq => by rw [h q (Finset.mem_range.1 hq), h p hp]
    rw [meanOfRoots, Finset.sum_congr rfl hsame, Finset.sum_const, Finset.card_range, nsmul_eq_mul, mul_div_cancel_left₀ _ hn']

/-- So `rms ≤ dc` says that all powers are equal (R236). -/
theorem rootOfMean_le_iff {n : Nat} (hn : 1 ≤ n) (pw : Nat → Nat) :
    rootOfMean n pw ≤ meanOfRoots n pw ↔ ∀ p < n, pw p = pw 0 := by
  rw [← rootOfMean_eq_iff hn, le_antisymm_iff, and_iff_left (meanOfRoots_le hn pw)]

/-! ## The ratios RMS takes logarithms of -/

/-- rms of the buffer (R235). -/
noncomputable def State.rms (s : State) : ℝ := rootOfMean (s.lenN / 2) (rawPower s.mem s.bias)

/-- dc of the buffer (R235). -/
noncomputable def State.dc (s : State) : ℝ := meanOfRoots (s.lenN / 2) (rawPower s.mem s.bias)

/-- The reference as the model's fraction (R235). -/
noncomputable def State.ref (s : State) : ℝ := refNum / s.refDen

/-- The reference is 90.5 or 181, by REFSEL (R235). -/
theorem ref_eq (s : State) : (if s.cfg.getLsbD 4 then 181 else 90.5 : ℝ) = s.ref := by
  rw [State.ref, State.refDen, State.refSel, refNum]
  split <;> norm_num

theorem refDen_bounds (s : State) : 1 ≤ s.refDen ∧ s.refDen ≤ 2 := by
  rw [State.refDen]
  split <;> omega

/-- The ratio of RMS_DB: S/(npairs·ref²) (R235). -/
theorem rmsRatio_eq {s : State} (hn : 1 ≤ s.lenN / 2) :
    (s.rmsPowers.sum : ℝ) / ((s.lenN / 2 : Nat) * s.ref ^ 2) =
      ((s.refDen * s.refDen * s.rmsPowers.sum : Nat) : ℝ) / (refNum * refNum * s.rmsPowers.length : Nat) := by
  have hden : (s.refDen : ℝ) ≠ 0 := Nat.cast_ne_zero.2 (Nat.ne_of_gt (refDen_bounds s).1)
  have hn' : ((s.lenN / 2 : Nat) : ℝ) ≠ 0 := Nat.cast_ne_zero.2 (by omega)
  rw [State.ref, rmsPowers_length, Nat.cast_mul, Nat.cast_mul, Nat.cast_mul, Nat.cast_mul, refNum]
  field_simp

/-- The ratio of RMS_DC_DB: (rms - dc)/ref (R235). -/
theorem dcRatio_eq {s : State} (hn : 1 ≤ s.lenN / 2) :
    dcRatio s.rmsPowers refNum s.refDen = (s.rms - s.dc) / s.ref := by
  have hn' : ((s.lenN / 2 : Nat) : ℝ) ≠ 0 := Nat.cast_ne_zero.2 (by omega)
  have hden : (s.refDen : ℝ) ≠ 0 := Nat.cast_ne_zero.2 (Nat.ne_of_gt (refDen_bounds s).1)
  have hroot : √((s.rmsPowers.sum * s.rmsPowers.length : Nat) : ℝ) = (s.lenN / 2 : Nat) * s.rms := by
    rw [State.rms, rootOfMean, ← rmsPowers_sum, rmsPowers_length, ← Real.sqrt_sq (Nat.cast_nonneg (α := ℝ) (s.lenN / 2)),
      ← Real.sqrt_mul (sq_nonneg _), Nat.cast_mul, Real.sqrt_sq (Nat.cast_nonneg _)]
    congr 1
    field_simp
  have hroots : (s.rmsPowers.map fun m : Nat => √(m : ℝ)).sum = (s.lenN / 2 : Nat) * s.dc := by
    rw [State.dc, meanOfRoots, mul_div_cancel₀ _ hn', State.rmsPowers, List.map_map]
    exact sum_range_map _ _
  rw [dcRatio, dcValue, hroot, hroots, rmsPowers_length, State.ref, refNum]
  field_simp

/-- rms is at most 182, so the ratio of RMS_DC_DB is far below 10 (R233). -/
theorem dcRatio_le_ten {s : State} (hn : 1 ≤ s.lenN / 2) : dcRatio s.rmsPowers refNum s.refDen ≤ 10 := by
  obtain ⟨hden, hden'⟩ := refDen_bounds s
  have hn' : (0 : ℝ) < (s.lenN / 2 : Nat) := by exact_mod_cast hn
  have hrms : s.rms ≤ 182 := by
    have hsum : (s.rmsPowers.sum : ℝ) ≤ (s.lenN / 2 : Nat) * 2 ^ 15 := by exact_mod_cast rmsPowers_sum_le s
    rw [State.rms, rootOfMean, ← rmsPowers_sum, Real.sqrt_le_left (by norm_num), div_le_iff₀ hn']
    linarith
  have hdc : 0 ≤ s.dc := meanOfRoots_nonneg _ _
  have hd : (1 : ℝ) ≤ s.refDen := by exact_mod_cast hden
  have hd' : (s.refDen : ℝ) ≤ 2 := by exact_mod_cast hden'
  rw [dcRatio_eq hn, State.ref, div_div_eq_mul_div, div_le_iff₀ (by norm_num [refNum]), refNum]
  calc (s.rms - s.dc) * s.refDen
      ≤ 182 * s.refDen := by gcongr; linarith
    _ ≤ 10 * (181 : Nat) := by push_cast; linarith

end Sys2Proof.Machine

/-! What RMS writes (42_power_reducer R235), register by register, and the statements R235 to R237. -/

namespace Sys2Proof.Machine

/-! ## The writes -/

theorem getLsbD_setFlag_of_ne (w : Word) {f : Flag} {b : Nat} (h : b ≠ f.bit) : (setFlag w f).getLsbD b = w.getLsbD b := by
  simp [setFlag, BitVec.getLsbD_twoPow, h.symm]

theorem getLsbD_clearFlag_of_ne (w : Word) {f : Flag} {b : Nat} (h : b ≠ f.bit) : (clearFlag w f).getLsbD b = w.getLsbD b := by
  by_cases hb : b < 32
  · simp [clearFlag, hb, h]
  · rw [BitVec.getLsbD_of_ge _ _ (not_lt.1 hb), BitVec.getLsbD_of_ge _ _ (not_lt.1 hb)]

theorem rmsWriteDb_status (ms : List Nat) (s : State) :
    (rmsWriteDb ms s).status = if ms.sum = 0 then setFlag s.status .logzero else s.status := by
  rw [rmsWriteDb]
  split <;> rfl

theorem rmsWriteDb_rmsDb (ms : List Nat) (s : State) :
    (rmsWriteDb ms s).rmsDb = if ms.sum = 0 then sentinel else dbWord (rmsValue s.refDen ms) := by
  rw [rmsWriteDb]
  split <;> rfl

theorem rmsWriteDb_refDen (ms : List Nat) (s : State) : (rmsWriteDb ms s).refDen = s.refDen := by
  rw [rmsWriteDb]
  split <;> rfl

theorem rmsWriteDc_status (ms : List Nat) (s : State) :
    (rmsWriteDc ms s).status = if rmsLeDc ms then setFlag s.status .logdom else s.status := by
  rw [rmsWriteDc]
  split
  · rfl
  · split <;> rfl

theorem rmsWriteDc_rmsDb (ms : List Nat) (s : State) : (rmsWriteDc ms s).rmsDb = s.rmsDb := by
  rw [rmsWriteDc]
  split
  · rfl
  · split <;> rfl

theorem rmsWriteDc_rmsDcDb_of_le {ms : List Nat} (s : State) (h : rmsLeDc ms = true) : (rmsWriteDc ms s).rmsDcDb = sentinel := by
  rw [rmsWriteDc, if_pos h]
  rfl

/-- At a tie the stored value is either neighbour, by a free choice (R231). -/
theorem rmsWriteDc_rmsDcDb_of_nearest {ms : List Nat} {s : State} {r : ℝ} (h : ¬rmsLeDc ms = true)
    (hnearest : (dcNearest ms refNum s.refDen dcRounds dcStartBits).IsLog r) :
    ∃ k, IsLog10c 2000 r k ∧ (rmsWriteDc ms s).rmsDcDb = dbWord k := by
  rw [rmsWriteDc, if_neg h]
  split
  · next n hn =>
    rw [hn] at hnearest
    exact hnearest
  · next n hn =>
    rw [hn] at hnearest
    obtain ⟨hupper, hlower⟩ := hnearest
    refine ⟨_, ?_, rfl⟩
    split
    · exact hupper
    · exact hlower

/-- RMS writes its two registers, STATUS and the counter of choices alone (R235). -/
theorem rmsWrite_eq (ms : List Nat) (s : State) :
    rmsWrite ms s = { s with rmsDb := (rmsWrite ms s).rmsDb, rmsDcDb := (rmsWrite ms s).rmsDcDb,
                             status := (rmsWrite ms s).status, draws := (rmsWrite ms s).draws } := by
  obtain ⟨u, hu, w, v, hv, x, hx⟩ := rmsWrite_cases ms s
  rcases hu with rfl | rfl <;> rcases hv with rfl | rfl <;> rcases hx with hx | hx <;> rw [hx] <;> rfl

theorem rmsWrite_rmsDb (ms : List Nat) (s : State) :
    (rmsWrite ms s).rmsDb = if ms.sum = 0 then sentinel else dbWord (rmsValue s.refDen ms) := by
  rw [rmsWrite, rmsWriteDc_rmsDb, rmsWriteDb_rmsDb]

theorem rmsWrite_logzero (ms : List Nat) (s : State) :
    getFlag (rmsWrite ms s).status .logzero = true ↔ getFlag s.status .logzero = true ∨ ms.sum = 0 := by
  rw [rmsWrite, rmsWriteDc_status, rmsWriteDb_status]
  split <;> split <;> simp [*]

theorem rmsWrite_logdom (ms : List Nat) (s : State) :
    getFlag (rmsWrite ms s).status .logdom = true ↔ getFlag s.status .logdom = true ∨ rmsLeDc ms = true := by
  rw [rmsWrite, rmsWriteDc_status, rmsWriteDb_status]
  split <;> split <;> simp [*]

theorem rmsWrite_status_getLsbD (ms : List Nat) (s : State) {b : Nat} (hdom : b ≠ Flag.logdom.bit) (hzero : b ≠ Flag.logzero.bit) :
    (rmsWrite ms s).status.getLsbD b = s.status.getLsbD b := by
  rw [rmsWrite, rmsWriteDc_status, rmsWriteDb_status]
  split <;> split <;> simp only [getLsbD_setFlag_of_ne _ hdom, getLsbD_setFlag_of_ne _ hzero]

/-! ## RMS_DB and RMS_DC_DB -/

/-- RMS_DB of a buffer with power is LOG10C(1000, S/(npairs·ref²)) (R235). -/
theorem rmsValue_isLog {s : State} (hn : 1 ≤ s.lenN / 2) (hsum : s.rmsPowers.sum ≠ 0) :
    IsLog10c 1000 ((s.rmsPowers.sum : ℝ) / ((s.lenN / 2 : Nat) * s.ref ^ 2)) (rmsValue s.refDen s.rmsPowers) := by
  have hden := (refDen_bounds s).1
  rw [rmsRatio_eq hn]
  exact isLog10c_log10c 1000 (Nat.mul_pos (Nat.mul_pos hden hden) (Nat.pos_of_ne_zero hsum))
    (Nat.mul_pos (by decide) (by rwa [rmsPowers_length]))

/-- RMS_DC_DB where rms exceeds dc is a LOG10C(2000, (rms - dc)/ref) (R235). -/
theorem rmsWrite_rmsDcDb {s : State} (hn : 1 ≤ s.lenN / 2) (hlt : s.dc < s.rms) :
    ∃ k, IsLog10c 2000 ((s.rms - s.dc) / s.ref) k ∧ (rmsWrite s.rmsPowers s).rmsDcDb = dbWord k := by
  have hden := (refDen_bounds s).1
  have hratio : 0 < dcRatio s.rmsPowers refNum s.refDen := by
    have hdiff := sub_pos.2 hlt
    have hden' : (0 : ℝ) < s.refDen := by exact_mod_cast hden
    rw [dcRatio_eq hn, State.ref, refNum]
    positivity
  have hle : ¬rmsLeDc s.rmsPowers = true := by
    rw [rmsLeDc_rmsPowers hn, ← rootOfMean_le_iff hn]
    exact not_le.2 hlt
  have hne : s.rmsPowers ≠ [] := List.ne_nil_of_length_pos (by rwa [rmsPowers_length])
  rw [← dcRatio_eq hn]
  refine rmsWriteDc_rmsDcDb_of_nearest hle ?_
  rw [rmsWriteDb_refDen]
  exact dcNearest_isLog (by decide) (by omega) hne hratio (dcRatio_le_ten hn) _ _

/-- Settles O32: `log10c` and `dcNearest` are nearest integers of the two ratios, and the test of `rms ≤ dc` is exact. -/
theorem rmsMeasures : Obligations.RmsMeasures := by
  refine ⟨reportsErrors .rms, ?_⟩
  intro s h n pw total ref rms dc
  have hn := (rms_pairs_bounds h).1
  have htotal : total = s.rmsPowers.sum := (rmsPowers_sum s).symm
  have href : ref = s.ref := ref_eq s
  have hle : rms ≤ dc ↔ rmsLeDc s.rmsPowers = true := (rootOfMean_le_iff hn _).trans (rmsLeDc_rmsPowers hn).symm
  refine ⟨_, exec_rms_ready h, congrArg State.complete (rmsWrite_eq s.rmsPowers s), fun hzero => ?_, fun hpos => ?_, fun hdom => ?_,
    fun hlt => ?_, ?_, ?_, ?_, State.busy_complete _, fun b hbusy hdone hdom hzero => ?_⟩
  · exact (rmsWrite_rmsDb _ _).trans (if_pos (htotal ▸ hzero))
  · rw [href, htotal]
    exact ⟨_, rmsValue_isLog hn (htotal ▸ hpos), (rmsWrite_rmsDb _ _).trans (if_neg (htotal ▸ hpos))⟩
  · exact rmsWriteDc_rmsDcDb_of_le _ (hle.1 hdom)
  · rw [href]
    exact rmsWrite_rmsDcDb hn hlt
  · rw [htotal, ← rmsWrite_logzero]
    simp
  · rw [hle, ← rmsWrite_logdom]
    simp
  · simp
  · rw [State.complete_status, getLsbD_clearFlag_of_ne _ hbusy, getLsbD_setFlag_of_ne _ hdone, rmsWrite_status_getLsbD _ _ hdom hzero]

/-- Settles O33: the mean power is dc² and the variance of the magnitudes, which is 0 exactly when they are equal. -/
theorem logdomExactly : Obligations.LogdomExactly := by
  intro s h n pw rms dc
  have hn := (rms_pairs_bounds h).1
  refine ⟨meanOfRoots_le hn pw, rootOfMean_eq_iff hn pw, _, exec_rms_ready h, ?_⟩
  rw [← rmsLeDc_rmsPowers hn, ← rmsWrite_logdom]
  simp

/-! ## The two references -/

/-- Four times the ratio is 602.06 more, as rounded (R237). -/
theorem log10c_four_mul {a b : Nat} (ha : 1 ≤ a) (hb : 1 ≤ b) :
    602 ≤ log10c 1000 (4 * a) b - log10c 1000 a b ∧ log10c 1000 (4 * a) b - log10c 1000 a b ≤ 603 := by
  obtain ⟨hlo, hhi⟩ := log10c_spec 1000 ha hb
  obtain ⟨hlo', hhi'⟩ := log10c_spec 1000 (show 1 ≤ 4 * a by omega) hb
  obtain ⟨htwo, htwo'⟩ := logb_two_bounds
  have hfour : Real.logb 10 ((4 * a : Nat) : ℝ) = 2 * Real.logb 10 2 + Real.logb 10 a := by
    rw [Nat.cast_mul, Real.logb_mul (by norm_num) (by positivity), show ((4 : Nat) : ℝ) = 2 ^ 2 by norm_num,
      Real.logb_pow, Nat.cast_ofNat]
  rw [logb_ratio ha hb] at hlo hhi
  rw [logb_ratio (by omega) hb, hfour] at hlo' hhi'
  have h₁ : ((601 : Int) : ℝ) < (log10c 1000 (4 * a) b - log10c 1000 a b : Int) := by push_cast at hlo hhi hlo' hhi' ⊢; linarith
  have h₂ : ((log10c 1000 (4 * a) b - log10c 1000 a b : Int) : ℝ) < (604 : Int) := by push_cast at hlo hhi hlo' hhi' ⊢; linarith
  rw [Int.cast_lt] at h₁ h₂
  omega

/-- The value of RMS_DB is stored unsaturated (R233). -/
theorem rmsDb_toInt {s : State} (h : Ready .rms s) (hsum : s.rmsPowers.sum ≠ 0) :
    (rmsWrite s.rmsPowers s).rmsDb.toInt = rmsValue s.refDen s.rmsPowers := by
  obtain ⟨hn, hn'⟩ := rms_pairs_bounds h
  obtain ⟨hden, hden'⟩ := refDen_bounds s
  have hsum_le := rmsPowers_sum_le s
  have hsq : s.refDen * s.refDen ≤ 2 * 2 := Nat.mul_le_mul hden' hden'
  have hnum : s.refDen * s.refDen * s.rmsPowers.sum < 2 ^ 64 :=
    (Nat.mul_le_mul hsq hsum_le).trans_lt (by omega)
  have hrange := log10c_range (Nat.mul_pos (Nat.mul_pos hden hden) (Nat.pos_of_ne_zero hsum)) hnum
    (b := refNum * refNum * s.rmsPowers.length) (by rw [rmsPowers_length, refNum]; omega) (by rw [rmsPowers_length, refNum]; omega)
  rw [rmsWrite_rmsDb, if_neg hsum, dbWord_toInt, saturate_of_range] <;> rw [rmsValue] <;> omega

/-- Setting REFSEL. -/
def State.withRefSel (s : State) : State := { s with cfg := s.cfg ||| 0x10 }

theorem State.withRefSel_mode (s : State) : s.withRefSel.mode = s.mode := by
  rw [State.mode, State.mode, State.withRefSel, BitVec.extractLsb'_or]
  exact congrArg _ (BitVec.or_zero)

theorem State.withRefSel_fftLog2 (s : State) : s.withRefSel.fftLog2 = s.fftLog2 := by
  rw [State.fftLog2, State.fftLog2, State.withRefSel, BitVec.extractLsb'_or]
  exact congrArg _ (BitVec.or_zero)

theorem State.withRefSel_rmsPowers (s : State) : s.withRefSel.rmsPowers = s.rmsPowers := by
  have hbias : s.withRefSel.bias = s.bias := by simp [State.bias, State.biasSel, State.withRefSel]
  rw [State.rmsPowers, State.rmsPowers, hbias]
  rfl

theorem State.withRefSel_refDen (s : State) : s.withRefSel.refDen = 1 := by
  simp [State.refDen, State.refSel, State.withRefSel]

/-- No check of RMS reads REFSEL (R235). -/
theorem ready_rms_withRefSel {s : State} (h : Ready .rms s) : Ready .rms s.withRefSel := by
  obtain ⟨hlegal, hpassed, hwritten⟩ := h
  refine ⟨hlegal, ?_, hwritten⟩
  simp only [Rejected, BadConfig, BadLength, EmptyAtEmit, State.CommonOk, State.withRefSel_mode,
    State.withRefSel_fftLog2] at hpassed ⊢
  exact hpassed

/-- Settles O34: REFSEL changes only the reference, whose square with REFSEL = 0 is a quarter of the other. -/
theorem referencesDifferByTwo : Obligations.ReferencesDifferByTwo := by
  rintro s h hrefSel ⟨p, hp, hpower⟩
  have hsum : s.rmsPowers.sum ≠ 0 := by
    rw [rmsPowers_sum, ne_eq, Finset.sum_eq_zero_iff]
    exact fun hzero => hpower (hzero p (Finset.mem_range.2 hp))
  have hready := ready_rms_withRefSel h
  have hrefDen : s.refDen = 2 := by rw [State.refDen, State.refSel, hrefSel]; rfl
  have hvalue := rmsDb_toInt h hsum
  have hvalue' := rmsDb_toInt hready (by rwa [State.withRefSel_rmsPowers])
  rw [hrefDen, rmsValue] at hvalue
  rw [State.withRefSel_refDen, State.withRefSel_rmsPowers, rmsValue, Nat.mul_one, Nat.one_mul] at hvalue'
  have hn := (rms_pairs_bounds h).1
  have hdiff := log10c_four_mul (a := s.rmsPowers.sum) (b := refNum * refNum * s.rmsPowers.length) (Nat.pos_of_ne_zero hsum)
    (Nat.mul_pos (by decide) (by rwa [rmsPowers_length]))
  refine ⟨_, (rmsWrite s.withRefSel.rmsPowers s.withRefSel).complete, exec_rms_ready h, exec_rms_ready hready, ?_⟩
  rw [State.complete_rmsDb, State.complete_rmsDb, State.withRefSel_rmsPowers, hvalue, hvalue']
  exact hdiff

end Sys2Proof.Machine

/-! The spectrum emitter (43_emitter R250 to R255): the emitted bins by their place in ACC, the value of each, and what EMIT leaves. -/

namespace Sys2Proof.Machine

/-! ## The order of the bins -/

/-- Step (a) on a list given by index: index 0 reads what index 1 does (R250, R251). -/
theorem dcReplaced_map_range {α : Type} (f : Nat → α) {n : Nat} (hn : 2 ≤ n) :
    dcReplaced ((List.range n).map f) = (List.range n).map fun k => f (if k = 0 then 1 else k) := by
  obtain ⟨m, rfl⟩ := Nat.exists_eq_add_of_le' hn
  simp [List.range_succ_eq_map, dcReplaced]

/-- Step (b) is a rotation by half the length (R250, R251). -/
theorem halvesSwapped_eq_rotate {α : Type} (xs : List α) : halvesSwapped xs = xs.rotate (xs.length / 2) :=
  (List.rotate_eq_drop_append_take (Nat.div_le_self _ 2)).symm

/-- ACC after steps (a) and (b), by index (R250). -/
theorem halvesSwapped_dcReplaced_accs (m : Memory) {n : Nat} (hn : 2 ≤ n) :
    halvesSwapped (dcReplaced (m.accs n)) = (List.range n).map (emitOrder m n) := by
  rw [Memory.accs, dcReplaced_map_range m.acc hn, halvesSwapped_eq_rotate]
  refine List.ext_getElem (by simp) fun j _ _ => ?_
  simp [List.getElem_rotate, emitOrder, apply_ite m.acc]

/-- The emitted bins are R[d] up (R250). -/
theorem emitBins_eq {s : State} (hn : 2 ≤ s.bins) :
    s.emitBins = (List.range s.emitted).map fun i => emitOrder s.mem s.bins (s.cropDrop + i) := by
  rw [State.emitBins, halvesSwapped_dcReplaced_accs s.mem hn]
  refine List.ext_getElem ?_ fun i _ _ => by simp
  simp only [List.length_take, List.length_drop, List.length_map, List.length_range, State.emitted]
  omega

/-! ## The values -/

theorem emitValue_of_eq_zero {s : State} {x : DWord} (h : x = 0) : emitValue s x = sentinel := if_pos h

theorem toNat_pos_of_ne_zero {w : Nat} {x : BitVec w} (h : x ≠ 0) : 1 ≤ x.toNat :=
  Nat.pos_of_ne_zero (BitVec.toNat_ne_iff_ne.2 h)

/-- A nonzero bin's value is LOG10C(1000, x/(FS·PASS_CNT)) (R253). -/
theorem emitValue_isLog {s : State} {x : DWord} (hfs : s.fs ≠ 0) (hcnt : s.passCnt ≠ 0) (hx : x ≠ 0) :
    ∃ k, IsLog10c 1000 ((x.toNat : ℝ) / (s.fs.toNat * s.passCnt.toNat)) k ∧ emitValue s x = dbWord k := by
  refine ⟨_, ?_, if_neg hx⟩
  rw [← Nat.cast_mul]
  exact isLog10c_log10c 1000 (toNat_pos_of_ne_zero hx) (Nat.mul_pos (toNat_pos_of_ne_zero hfs) (toNat_pos_of_ne_zero hcnt))

/-! ## EMIT -/

/-- What EMIT's checks give beyond the common ones: N at least 2, FS and PASS_CNT nonzero (R250). -/
theorem emit_operands_of_passed {s : State} (h : ¬Rejected .emit s) : 2 ≤ s.bins ∧ s.fs ≠ 0 ∧ s.passCnt ≠ 0 := by
  have hbins : 2 ≤ s.bins := Nat.le_self_pow (fft_of_passed h (by simp)) 2
  simp only [Rejected, BadConfig, EmptyAtEmit, not_or, true_and] at h
  obtain ⟨⟨-, -, -, hfs⟩, -, hcnt⟩ := h
  exact ⟨hbins, hfs, hcnt⟩

theorem clearAccumulator_eq (s : State) : clearAccumulator s = { s with mem := s.mem.zeroAccs s.bins, passCnt := 0 } := rfl

/-- OUT and LOGZERO change memory and STATUS alone (R250). -/
theorem emitOut_eq (s : State) : emitOut s = { s with mem := (emitOut s).mem, status := (emitOut s).status } := by
  rw [emitOut, State.flagIf]
  split <;> rfl

/-- The registers EMIT writes; all others are kept (R250, R254, R255). -/
theorem emitBody_eq (s : State) :
    emitBody s = { s with
      lowHz := BitVec.ofInt 64 ((s.fc.toNat : Int) - s.halfSpan), highHz := BitVec.ofInt 64 ((s.fc.toNat : Int) + s.halfSpan),
      stepChz := BitVec.ofNat 32 s.stepCentiHz, emitCnt := BitVec.ofNat 32 s.emitted, emitSamples := s.passCnt, passCnt := 0,
      mem := (emitBody s).mem, status := (emitBody s).status } := by
  rw [emitBody, emitOut_eq, State.withEmit, clearAccumulator_eq]

theorem emitBody_status (s : State) :
    (emitBody s).status = if ∃ x ∈ s.emitBins, x = 0 then setFlag s.status .logzero else s.status := by
  simp only [emitBody, clearAccumulator_eq, State.withEmit_status, emitOut, State.flagIf, List.any_eq_true, decide_eq_true_eq]
  split <;> rfl

/-- EMIT writes OUT below the number of emitted bins and ACC below N (R250, R255). -/
theorem emitBody_read_outside (s : State) {a : Nat} (hout : ¬(outAddr 0 ≤ a ∧ a < outAddr 0 + 4 * s.emitBins.length))
    (hacc : ¬(accAddr 0 ≤ a ∧ a < accAddr 0 + 8 * s.bins)) : (emitBody s).mem.read a = s.mem.read a := by
  rw [emitBody_mem, Memory.read_zeroAccs_outside _ _ hacc, Memory.read_setOut_outside]
  rwa [List.length_map]

/-- OUT[i] holds the value of the i-th emitted bin (R250). -/
theorem emitBody_out {s : State} (hbins : s.bins ≤ 2 ^ 25) {i : Nat} (hi : i < s.emitBins.length) :
    (emitBody s).mem.out i = some (emitValue s s.emitBins[i]) := by
  rw [emitBody_mem, Memory.out_zeroAccs _ hbins, Memory.out_setOut, dif_pos (by rwa [List.length_map]), List.getElem_map]

/-- Settles O35: the emitted bins by `emitBins_eq`, their values by `emitValue_isLog`, registers and memory by the lemmas on `emitBody`. -/
theorem emitReports : Obligations.EmitReports := by
  refine ⟨reportsErrors .emit, ?_⟩
  intro s h n d kept e half x
  obtain ⟨-, hbins⟩ := bins_le_of_passed h.legal h.passed (by simp)
  obtain ⟨htwo, hfs, hcnt⟩ := emit_operands_of_passed h.passed
  have hlist : s.emitBins = (List.range e).map x := emitBins_eq htwo
  have hlength : s.emitBins.length = e := by rw [hlist, List.length_map, List.length_range]
  have hout : ∀ i < e, (emitBody s).mem.out i = some (emitValue s (x i)) := fun i hi => by
    rw [emitBody_out hbins (hlength ▸ hi)]
    simp [hlist]
  have hzero : (∃ y ∈ s.emitBins, y = 0) ↔ ∃ i < e, x i = 0 := by simp [hlist]
  refine ⟨_, h.exec rfl, congrArg State.complete (emitBody_eq s), fun a ha ha' => ?_, fun j hj => ?_, fun i hi hx => ?_,
    fun i hi hx => ?_, fun hx => ?_, fun hx => ?_⟩
  · exact emitBody_read_outside s (hlength ▸ ha) ha'
  · rw [State.complete_mem, emitBody_mem, Memory.acc_zeroAccs _ hbins, if_pos hj]
  · exact (hout i hi).trans (congrArg some (emitValue_of_eq_zero hx))
  · obtain ⟨k, hlog, hvalue⟩ := emitValue_isLog hfs hcnt hx
    exact ⟨k, hlog, (hout i hi).trans (congrArg some hvalue)⟩
  · exact congrArg doneStatus ((emitBody_status s).trans (if_pos (hzero.2 hx)))
  · have hnone : ¬∃ y ∈ s.emitBins, y = 0 := fun hy => by
      obtain ⟨i, hi, hxi⟩ := hzero.1 hy
      exact hx i hi hxi
    exact congrArg doneStatus ((emitBody_status s).trans (if_neg hnone))

end Sys2Proof.Machine

/-! The control commands (44_control R280 to R288): NOP; completion and the flags it leaves, a step of RUN on a state that has completed
and commands that pass their checks in turn; then RUN as its steps, its routing by bin count and what it adds to PASS_CNT. -/

namespace Sys2Proof.Machine

/-! ## NOP -/

/-- Settles O17: NOP has no checks and an empty body, and its acceptance clears the error code. -/
theorem nopOnlyCompletes : Obligations.NopOnlyCompletes := by
  refine ⟨fun s => rfl, fun s hb => ⟨(s.accept 0).complete, ?_, by simp, by simp, by simp, fun hie => ?_⟩⟩
  · rw [busWrite_regAt .cmd 0 hb rfl]
    exact engineTurn_of_ok (i := .nop) (State.busy_accept s 0) (decode_encode .nop)
  · simp [State.irq, hie]

/-! ## Completion and the flags -/

theorem setFlag_comm (w : Word) (f g : Flag) : setFlag (setFlag w f) g = setFlag (setFlag w g) f := by
  simp only [setFlag, BitVec.or_assoc, BitVec.or_comm (BitVec.twoPow 32 f.bit)]

theorem setFlag_clearFlag_comm (w : Word) {f g : Flag} (h : f ≠ g) :
    setFlag (clearFlag w g) f = clearFlag (setFlag w f) g := by
  have hbit : ¬f.bit = g.bit := fun hb => h (Flag.bit_inj hb)
  refine BitVec.eq_of_getLsbD_eq fun b hb => ?_
  simp only [setFlag, clearFlag, BitVec.getLsbD_or, BitVec.getLsbD_and, BitVec.getLsbD_not, BitVec.getLsbD_twoPow]
  grind

theorem doneStatus_doneStatus (w : Word) : doneStatus (doneStatus w) = doneStatus w := by
  rw [doneStatus, doneStatus, setFlag_clearFlag_comm _ (by decide)]
  simp only [setFlag, clearFlag, BitVec.or_assoc, BitVec.and_assoc, BitVec.or_self, BitVec.and_self]

/-- Completing twice is completing once (R300). -/
theorem State.complete_complete (s : State) : s.complete.complete = s.complete :=
  congrArg s.withStatus (doneStatus_doneStatus s.status)

/-- A flag but BUSY can be set before completion or after it. -/
theorem State.flag_complete (s : State) {f : Flag} (hb : f ≠ .busy) : s.complete.flag f = (s.flag f).complete := by
  refine congrArg s.withStatus ?_
  rw [State.complete_status, setFlag_clearFlag_comm _ hb, setFlag_comm]
  rfl

/-! ## The operands after completion -/

section

variable (s : State)

@[simp] theorem State.complete_lenN : s.complete.lenN = s.lenN := rfl
@[simp] theorem State.complete_wlenN : s.complete.wlenN = s.wlenN := rfl
@[simp] theorem State.complete_dsD : s.complete.dsD = s.dsD := rfl
@[simp] theorem State.complete_passes : s.complete.passes = s.passes := rfl
@[simp] theorem State.complete_bins : s.complete.bins = s.bins := rfl
@[simp] theorem State.complete_deff : s.complete.deff = s.deff := rfl
@[simp] theorem State.complete_bias : s.complete.bias = s.bias := rfl
@[simp] theorem State.complete_winShift : s.complete.winShift = s.winShift := rfl
@[simp] theorem State.complete_fftLog2 : s.complete.fftLog2 = s.fftLog2 := rfl
@[simp] theorem State.complete_peak : s.complete.peak = s.peak := rfl
@[simp] theorem State.complete_blockCount : s.complete.blockCount = s.blockCount := rfl

end

/-! ## The steps of RUN on a completed state -/

/-- The commands that are steps of RUN above bin count 1 (R285). -/
def isRunStep : Instr → Bool
  | .conv | .dcr | .boxcar | .rdec | .comp | .win | .xform | .acc => true
  | .nop | .clracc | .rms | .emit | .run => false

/-- A body that chooses on a condition commutes with completion when both its branches do. -/
theorem ite_map_complete {c : Prop} {dec dec' : Decidable c} {a b a' b' : Option State}
    (ha : a' = a.map State.complete) (hb : b' = b.map State.complete) :
    @ite _ c dec' a' b' = (@ite _ c dec a b).map State.complete := by
  by_cases h : c
  · rw [if_pos h, if_pos h, ha]
  · rw [if_neg h, if_neg h, hb]

/-- A step of RUN reads neither BUSY nor DONE: on a completed state its body leaves what it leaves before completion, completed. -/
theorem bodyOf_complete {i : Instr} (hi : isRunStep i = true) (s : State) :
    bodyOf i s.complete = (bodyOf i s).map State.complete := by
  have hflag : ∀ f : Flag, f ≠ .busy → some (s.complete.flag f) = (some (s.flag f)).map State.complete :=
    fun f hf => congrArg some (s.flag_complete hf)
  cases i with
  | nop | clracc | rms | emit | run => cases hi
  | conv =>
    simp only [bodyOf, convBody, State.complete_mem, State.complete_lenN, State.complete_bias]
    split <;> rfl
  | dcr =>
    refine ite_map_complete rfl ?_
    simp only [State.complete_mem, State.complete_wlenN]
    split
    · rfl
    · split <;> rfl
  | boxcar =>
    refine ite_map_complete rfl ?_
    simp only [State.complete_mem, State.complete_wlenN, State.complete_dsD]
    split <;> rfl
  | rdec =>
    simp only [bodyOf, rdecBody, State.complete_mem, State.complete_wlenN, State.complete_passes]
    split <;> rfl
  | comp =>
    refine ite_map_complete (hflag .compskip (by decide)) ?_
    simp only [State.complete_mem, State.complete_wlenN, State.complete_passes, State.complete_params]
    split
    · rfl
    · split <;> rfl
  | win =>
    refine ite_map_complete (hflag .noblk (by decide)) ?_
    simp only [State.complete_mem, State.complete_blockCount, State.complete_bins, State.complete_winShift]
    split <;> rfl
  | xform =>
    refine ite_map_complete (hflag .noblk (by decide)) ?_
    simp only [State.complete_mem, State.complete_blockCount, State.complete_bins, State.complete_fftLog2]
    split <;> rfl
  | acc =>
    refine ite_map_complete (hflag .noblk (by decide)) ?_
    simp only [State.complete_mem, State.complete_blockCount, State.complete_bins, State.complete_peak,
      State.complete_deff, State.complete_passCnt]
    split <;> rfl

/-- A command that passes its checks is its body and completion (R300). -/
theorem exec_of_passed {i : Instr} {s : State} (h : ¬Rejected i s) : exec i s = runCommand [] (bodyOf i) s := by
  rw [exec_eq, runCommand, (firstFailure_checksOf i s).2 h]
  rfl

/-- No check reads STATUS. -/
theorem rejected_complete (i : Instr) (s : State) : Rejected i s.complete ↔ Rejected i s := by cases i <;> exact Iff.rfl

/-- A step of RUN answers the same whether the command before it has completed or not. -/
theorem exec_complete {i : Instr} (hi : isRunStep i = true) {s : State} (h : ¬Rejected i s) :
    exec i s.complete = exec i s := by
  rw [exec_of_passed h, exec_of_passed (mt (rejected_complete i s).1 h)]
  simp only [runCommand, firstFailure, bodyOf_complete hi]
  cases bodyOf i s with
  | none => rfl
  | some t => exact congrArg _ t.complete_complete

/-! ## Commands one after the other -/

/-- The bodies of commands one after the other, with neither checks nor completion between them. -/
def runBodies (is : List Instr) (s : State) : Option State := is.foldlM (fun t i => bodyOf i t) s

/-- Each command passes its checks on the state that the bodies before it leave. -/
def PassInTurn : List Instr → State → Prop
  | [], _ => True
  | i :: is, s => ¬Rejected i s ∧ ∀ t, bodyOf i s = some t → PassInTurn is t

/-- Steps that pass their checks in turn come to their bodies and one completion, faults included. -/
theorem runSeq_complete {is : List Instr} (hstep : ∀ i ∈ is, isRunStep i = true) {s : State} (h : PassInTurn is s) :
    runSeq is s.complete = runCommand [] (runBodies is) s := by
  induction is generalizing s with
  | nil => rfl
  | cons i is ih =>
    obtain ⟨hpass, hrest⟩ := h
    rw [List.forall_mem_cons] at hstep
    obtain ⟨hi, his⟩ := hstep
    rw [runSeq, exec_complete hi hpass, exec_of_passed hpass]
    cases hb : bodyOf i s with
    | none => simp [runCommand, firstFailure, runBodies, hb]
    | some t => simpa [runCommand, firstFailure, runBodies, hb] using ih his (hrest t hb)

/-! ## What a body keeps of the operands -/

section

variable {s t : State}

theorem Keeps.mode (k : Keeps s t) : t.mode = s.mode := by simp only [State.mode, k.cfg]
theorem Keeps.dsD (k : Keeps s t) : t.dsD = s.dsD := by simp only [State.dsD, k.ds]
theorem Keeps.passes (k : Keeps s t) : t.passes = s.passes := by simp only [State.passes, k.cfg]
theorem Keeps.compEn (k : Keeps s t) : t.compEn = s.compEn := by simp only [State.compEn, k.cfg]
theorem Keeps.fftLog2 (k : Keeps s t) : t.fftLog2 = s.fftLog2 := by simp only [State.fftLog2, k.cfg]

theorem Keeps.commonOk (k : Keeps s t) : t.CommonOk ↔ s.CommonOk := by
  simp only [State.CommonOk, k.mode, k.fftLog2, k.params, k.dsD]

theorem workOk_congr (hp : t.params = s.params) (hl : t.wlen = s.wlen) : t.WorkOk ↔ s.WorkOk := by
  simp only [State.WorkOk, State.wlenN, hp, hl]

end

/-! ## RUN's steps -/

/-- The commands of RUN's decimation (R285). -/
def State.decimationSteps (s : State) : List Instr :=
  (if s.mode = .boxcar ∧ 2 ≤ s.dsD then [.boxcar] else []) ++
  if s.mode = .recursive ∧ 1 ≤ s.passes then .rdec :: if s.compEn then [.comp] else [] else []

/-- The commands RUN ends with above bin count 1 (R285). -/
def finalSteps : List Instr := [.dcr, .win, .xform, .acc]

theorem runSteps_eq (s : State) : s.runSteps = .conv :: (s.decimationSteps ++ finalSteps) := by
  simp [State.runSteps, State.decimationSteps, finalSteps]

/-- The decimation is empty, BOXCAR, or RDEC and perhaps COMP. -/
theorem decimationSteps_cases (s : State) :
    s.decimationSteps = [] ∨ (s.mode = .boxcar ∧ s.decimationSteps = [.boxcar]) ∨
    (s.mode = .recursive ∧ 1 ≤ s.passes ∧ s.decimationSteps = .rdec :: if s.compEn then [.comp] else []) := by
  cases hm : s.mode with
  | none | reserved => simp [State.decimationSteps, hm]
  | boxcar => by_cases hd : 2 ≤ s.dsD <;> simp [State.decimationSteps, hm, hd]
  | recursive => by_cases hp : 1 ≤ s.passes <;> simp [State.decimationSteps, hm, hp]

theorem Keeps.decimationSteps {s t : State} (k : Keeps s t) : t.decimationSteps = s.decimationSteps := by
  simp only [State.decimationSteps, k.mode, k.dsD, k.passes, k.compEn]

theorem isRunStep_of_mem_runSteps {i : Instr} {s : State} (h : i ∈ s.runSteps) : isRunStep i = true := by
  have hfinal : ∀ i ∈ finalSteps, isRunStep i = true := by decide
  rw [runSteps_eq, List.mem_cons, List.mem_append] at h
  rcases h with rfl | h | h
  · rfl
  · rcases decimationSteps_cases s with e | ⟨-, e⟩ | ⟨-, -, e⟩ <;> rw [e] at h
    · cases h
    · rw [List.mem_singleton.1 h]; rfl
    · split at h <;> simp only [List.mem_cons, List.not_mem_nil, or_false] at h
      · rcases h with rfl | rfl <;> rfl
      · rw [h]; rfl
  · exact hfinal i h

/-- RUN's decimation is the bodies of its commands; RDEC leaves COMP_EN as it was. -/
theorem runDecimate_eq (s : State) : runDecimate s = runBodies s.decimationSteps s := by
  unfold runDecimate
  cases hm : s.mode with
  | none | reserved => simp [State.decimationSteps, runBodies, hm]
  | boxcar => by_cases hd : 2 ≤ s.dsD <;> simp [State.decimationSteps, runBodies, bodyOf, hm, hd]
  | recursive =>
    by_cases hp : 1 ≤ s.passes
    · cases hr : rdecBody s with
      | none => simp [State.decimationSteps, runBodies, bodyOf, hm, hp, hr]
      | some t =>
        have hen : t.compEn = s.compEn := (keeps_rdecBody hr).compEn
        by_cases he : s.compEn <;> simp [State.decimationSteps, runBodies, bodyOf, hm, hp, hr, hen, he]
    · simp [State.decimationSteps, runBodies, hm, hp]

/-- Above bin count 1 RUN's body is the bodies of its steps (R285). -/
theorem runBody_eq_runBodies {s : State} (hf : s.fftLog2 ≠ 0) : runBody s = runBodies s.runSteps s := by
  rw [runSteps_eq, runBodies, runBody, if_neg hf]
  simp only [List.foldlM_cons, List.foldlM_append]
  refine Option.bind_congr fun t ht => ?_
  rw [runDecimate_eq, (keeps_convBody ht).decimationSteps]
  simp [runBodies, bodyOf, finalSteps]

/-! ## RUN's checks imply those of its steps (R287) -/

/-- What every check on the working buffer asks, the mode and RDEC's length apart. -/
structure State.BufferOk (s : State) : Prop where
  common : s.CommonOk
  spectral : s.fftLog2 ≠ 0
  work : s.WorkOk

theorem State.BufferOk.of_keeps {s t : State} (h : s.BufferOk) (k : Keeps s t) (hw : t.WorkOk) : t.BufferOk :=
  ⟨k.commonOk.2 h.common, by rw [k.fftLog2]; exact h.spectral, hw⟩

/-- A command that passes its checks and does not write WLEN leaves the buffer fit for the next. -/
theorem State.BufferOk.of_bodyOf {i : Instr} {s t : State} (h : s.BufferOk) (hp : ¬Rejected i s)
    (hi : writesWlen i = false) (hb : bodyOf i s = some t) : t.BufferOk := by
  have hlen : t.complete.wlen = s.wlen := wlen_exec (exec_body hp hb) hi
  exact h.of_keeps (keeps_bodyOf hb) ((workOk_congr (keeps_bodyOf hb).params hlen).2 h.work)

theorem State.BufferOk.passes_final {s : State} (h : s.BufferOk) {i : Instr} (hi : i ∈ finalSteps) : ¬Rejected i s := by
  simp only [finalSteps, List.mem_cons, List.not_mem_nil, or_false] at hi
  rcases hi with rfl | rfl | rfl | rfl <;>
    simp [Rejected, BadConfig, BadLength, EmptyAtEmit, h.common, h.spectral, h.work]

theorem State.BufferOk.passInTurn {s : State} (h : s.BufferOk) {is : List Instr} (his : is ⊆ finalSteps) :
    PassInTurn is s := by
  have hwlen : ∀ i ∈ finalSteps, writesWlen i = false := by decide
  induction is generalizing s with
  | nil => trivial
  | cons i is ih =>
    obtain ⟨hi, his⟩ := List.cons_subset.1 his
    have hpass := h.passes_final hi
    exact ⟨hpass, fun t ht => ih (h.of_bodyOf hpass (hwlen i hi) ht) his⟩

theorem boxcarBody_workOk {s t : State} (h : s.WorkOk) (hb : boxcarBody s = some t) : t.WorkOk := by
  obtain ⟨heven, hle⟩ := h
  have hlt : s.wlenN < 2 ^ 32 := s.wlen.isLt
  have hg : s.wlenN / 2 / s.dsD ≤ s.wlenN / 2 := Nat.div_le_self _ _
  simp only [boxcarBody] at hb
  split at hb
  · cases hb; exact ⟨heven, hle⟩
  · split at hb <;> cases hb
    rw [State.WorkOk, wlenN_withWlen _ (by omega), State.withWlen_params, State.withMem_params]
    omega

theorem rdecBody_workOk {s t : State} (h : s.WorkOk) (hp : 1 ≤ s.passes) (hr : s.RecursiveOk s.wlenN)
    (hb : rdecBody s = some t) : t.WorkOk := by
  obtain ⟨-, hle⟩ := h
  obtain ⟨hmul, -⟩ := hr hp
  obtain ⟨m, -, rfl⟩ := rdecBody_some hb
  have hlt : s.wlenN < 2 ^ 32 := s.wlen.isLt
  have hq : s.wlenN / 2 ^ s.passes ≤ s.wlenN := Nat.div_le_self _ _
  have heven : 2 ∣ s.wlenN / 2 ^ s.passes :=
    Nat.dvd_div_of_mul_dvd (by rw [← pow_succ]; exact Nat.dvd_of_mod_eq_zero hmul)
  rw [State.WorkOk, wlenN_withWlen _ (by omega)]
  exact ⟨Nat.mod_eq_zero_of_dvd heven, hq.trans hle⟩

/-- From RUN's decimation on, every step passes its checks. -/
theorem passInTurn_decimation {s : State} (h : s.BufferOk) (hr : s.mode = .recursive → s.RecursiveOk s.wlenN) :
    PassInTurn (s.decimationSteps ++ finalSteps) s := by
  have hfinal : ∀ {t : State}, t.BufferOk → PassInTurn finalSteps t := fun ht => ht.passInTurn (List.Subset.refl _)
  rcases decimationSteps_cases s with e | ⟨hm, e⟩ | ⟨hm, hp, e⟩ <;> rw [e]
  · exact hfinal h
  · have hpass : ¬Rejected .boxcar s := by simp [Rejected, BadConfig, BadLength, EmptyAtEmit, h.common, h.work, hm]
    exact ⟨hpass, fun t ht => hfinal (h.of_keeps (keeps_bodyOf ht) (boxcarBody_workOk h.work ht))⟩
  · have hrec := hr hm
    have hpass : ¬Rejected .rdec s := by
      simp [Rejected, BadConfig, BadLength, EmptyAtEmit, h.common, h.work, hm, hrec]
    refine ⟨hpass, fun t ht => ?_⟩
    have htm : t.mode = .recursive := (keeps_bodyOf ht).mode.trans hm
    have htb : t.BufferOk := h.of_keeps (keeps_bodyOf ht) (rdecBody_workOk h.work hp hrec ht)
    have hpass' : ¬Rejected .comp t := by
      simp [Rejected, BadConfig, BadLength, EmptyAtEmit, htb.common, htb.work, htm]
    split
    · exact ⟨hpass', fun u hu => hfinal (htb.of_bodyOf hpass' rfl hu)⟩
    · exact hfinal htb

theorem passInTurn_runSteps {s : State} (h : ¬Rejected .run s) (hf : s.fftLog2 ≠ 0) : PassInTurn s.runSteps s := by
  obtain ⟨hc, hl, -, hrec⟩ := run_checks h hf
  rw [runSteps_eq]
  refine ⟨by simp [Rejected, BadConfig, BadLength, EmptyAtEmit, hc, hl], fun t ht => ?_⟩
  have k := keeps_bodyOf ht
  have hlen : t.wlenN = s.lenN := by
    obtain ⟨m, rfl⟩ := convBody_some ht
    exact wlenN_withWlen _ s.len.isLt
  rw [← k.decimationSteps]
  refine passInTurn_decimation ⟨k.commonOk.2 hc, by rwa [k.fftLog2], by rwa [State.WorkOk, hlen, k.params]⟩ ?_
  rwa [k.mode, hlen, State.RecursiveOk, k.passes]

/-! ## RUN -/

/-- At bin count 1 RUN has RMS's checks and RMS's body (R285). -/
theorem exec_run_of_bins_one {s : State} (hf : s.fftLog2 = 0) : exec .run s = exec .rms s := by
  have hchecks : checksOf .run s = checksOf .rms s := by
    rw [checksOf, checksOf, State.runChecks, if_pos hf, State.rmsChecks]
  have hbody : bodyOf .run s = bodyOf .rms s := if_pos hf
  rw [exec_eq, exec_eq, runCommand, runCommand, hchecks, hbody]

/-- Settles O36: RUN's steps pass their checks in turn, so they come to their bodies, which are RUN's body. -/
theorem runIsItsSteps : Obligations.RunIsItsSteps := by
  refine ⟨reportsErrors .run, fun s h => ⟨exec_run_of_bins_one, fun hf => ?_⟩⟩
  have hturn := passInTurn_runSteps h hf
  have hfirst : runSeq s.runSteps s.complete = runSeq s.runSteps s := by
    rw [runSteps_eq] at hturn ⊢
    obtain ⟨hconv, -⟩ := hturn
    rw [runSeq, runSeq, exec_complete rfl hconv]
  calc exec .run s
    _ = runCommand [] runBody s := exec_of_passed h
    _ = runCommand [] (runBodies s.runSteps) s := by rw [runCommand, runCommand, runBody_eq_runBodies hf]
    _ = runSeq s.runSteps s.complete := (runSeq_complete (fun _ => isRunStep_of_mem_runSteps) hturn).symm
    _ = runSeq s.runSteps s := hfirst

/-! ## Routing by bin count (R286) -/

/-- A command whose body answers the same registers on another memory, and leaves that memory, does so itself. -/
theorem runCommand_withMem {cs : List Check} {body : State → Option State} {s : State} {m : Memory}
    (hbody : body (s.withMem m) = (body s).map fun t => t.withMem m) :
    (∀ t, runCommand cs body s = .next t → runCommand cs body (s.withMem m) = .next (t.withMem m)) ∧
    (∀ e, runCommand cs body s = .fault e → runCommand cs body (s.withMem m) = .fault e) := by
  simp only [runCommand, hbody]
  cases firstFailure cs with
  | some e => exact ⟨fun t ht => by cases ht; rfl, fun e he => (nomatch he)⟩
  | none =>
    cases body s with
    | none => exact ⟨fun t ht => (nomatch ht), fun e he => he⟩
    | some u => exact ⟨fun t ht => by cases ht; rfl, fun e he => (nomatch he)⟩

/-- RMS answers the same on every memory with the same RAW below LEN, and leaves it. -/
theorem exec_rms_withMem {s : State} {m : Memory} (hm : ∀ j < s.lenN, m.raw j = s.mem.raw j) :
    (∀ t, exec .rms s = .next t → exec .rms (s.withMem m) = .next (t.withMem m)) ∧
    (∀ e, exec .rms s = .fault e → exec .rms (s.withMem m) = .fault e) := by
  have hchecks : checksOf .rms (s.withMem m) = checksOf .rms s := rfl
  rw [exec_eq, exec_eq, hchecks]
  exact runCommand_withMem (rmsBody_withMem hm)

/-- The steps of RUN set no flag but COMPSKIP and NOBLK. -/
theorem getFlag_bodyOf {i : Instr} {s t : State} {f : Flag} (hi : isRunStep i = true) (hskip : f ≠ .compskip)
    (hblk : f ≠ .noblk) (h : bodyOf i s = some t) : getFlag t.status f = getFlag s.status f := by
  have hset : ∀ g : Flag, f ≠ g → getFlag (s.flag g).status f = getFlag s.status f := fun g hg => by simp [hg.symm]
  cases i with
  | nop | clracc | rms | emit | run => cases hi
  | conv => obtain ⟨m, rfl⟩ := convBody_some h; rfl
  | dcr => obtain ⟨m, rfl⟩ := dcrBody_some h; rfl
  | boxcar => obtain rfl | ⟨m, n, rfl⟩ := boxcarBody_some h <;> rfl
  | rdec => obtain ⟨m, -, rfl⟩ := rdecBody_some h; rfl
  | comp =>
    obtain rfl | ⟨m, rfl⟩ := compBody_some h
    · exact hset .compskip hskip
    · rfl
  | win =>
    obtain rfl | ⟨m, rfl⟩ := winBody_some h
    · exact hset .noblk hblk
    · rfl
  | xform =>
    obtain rfl | ⟨m, rfl⟩ := xformBody_some h
    · exact hset .noblk hblk
    · rfl
  | acc =>
    obtain rfl | ⟨m, w, rfl⟩ := accBody_some h
    · exact hset .noblk hblk
    · rfl

theorem getFlag_runBodies {is : List Instr} (his : ∀ i ∈ is, isRunStep i = true) {s t : State} {f : Flag}
    (hskip : f ≠ .compskip) (hblk : f ≠ .noblk) (h : runBodies is s = some t) :
    getFlag t.status f = getFlag s.status f := by
  induction is generalizing s with
  | nil => cases h; rfl
  | cons i is ih =>
    rw [List.forall_mem_cons] at his
    obtain ⟨hi, his⟩ := his
    obtain ⟨u, hu, ht⟩ := Option.bind_eq_some_iff.1 h
    exact (ih his ht).trans (getFlag_bodyOf hi hskip hblk hu)

/-- Above bin count 1 RUN leaves RMS's flags, whether it reports an error or completes. -/
theorem getFlag_exec_run {s t : State} {f : Flag} (hf : s.fftLog2 ≠ 0) (h : exec .run s = .next t)
    (hflag : f = .logzero ∨ f = .logdom) : getFlag t.status f = getFlag s.status f := by
  obtain ⟨e, rfl⟩ | ⟨-, u, hu, rfl⟩ := exec_next_cases h
  · rcases hflag with rfl | rfl <;> simp
  · have hbodies := (runBody_eq_runBodies hf).symm.trans hu
    have hsteps : ∀ i ∈ s.runSteps, isRunStep i = true := fun _ => isRunStep_of_mem_runSteps
    rcases hflag with rfl | rfl
    · simpa using getFlag_runBodies (f := .logzero) hsteps (by decide) (by decide) hbodies
    · simpa using getFlag_runBodies (f := .logdom) hsteps (by decide) (by decide) hbodies

/-- Settles O37: at bin count 1 by RMS and the checks of the block commands, above it by what each step leaves. -/
theorem routingLaw : Obligations.RoutingLaw := by
  refine ⟨fun s hf => ⟨exec_run_of_bins_one hf, fun m hm => ?_, (reportsErrors .win s).1 (.inr hf),
    (reportsErrors .xform s).1 (.inr hf), (reportsErrors .acc s).1 (.inr hf)⟩, fun s t hf ht => ?_⟩
  · rw [exec_run_of_bins_one hf, exec_run_of_bins_one (s := s.withMem m) hf]
    exact exec_rms_withMem hm
  · obtain ⟨hdb, hdc⟩ := Prod.mk.inj (rmsResults_exec ht (by decide) fun _ => hf)
    exact ⟨hdb, hdc, getFlag_exec_run hf ht (.inl rfl), getFlag_exec_run hf ht (.inr rfl)⟩

/-! ## PASS_CNT (R288) -/

/-- Settles O38: up to ACC by `runBody_ready`, which leaves `runLength` elements and a full block; ACC then adds Deff per block. -/
theorem runAddsPasses : Obligations.RunAddsPasses := by
  intro s h hf n skipped
  obtain ⟨hraw, hwin⟩ := h.written
  obtain ⟨hc, -, hfull, -⟩ := run_checks h.passed hf
  obtain ⟨v, hbody, hcond, hlen, hb, hskip, hkeep⟩ := runBody_ready h.legal h.passed hf hraw (hwin.resolve_left hf)
  have hle := blockCount_mul_le v
  obtain ⟨m, hacc, hframe, -⟩ := accBody_written hb fun j hj => hcond.written j (by omega)
  have hpass : BitVec.ofNat 32 (v.passCnt.toNat + v.blockCount * v.deff) =
      s.passCnt + BitVec.ofNat 32 (s.runLength / (2 * n) * s.deff) := by
    rw [hcond.passCnt, hcond.deff, State.blockCount, hlen, hcond.bins, BitVec.ofNat_add, BitVec.ofNat_toNat,
      BitVec.setWidth_eq]
  refine ⟨_, h.exec (hbody.trans hacc), ?_, fun hs => congrArg doneStatus (hskip hs),
    fun hs => congrArg doneStatus (hkeep hs), fun hm => ?_, fun hm => ?_, fun hm => ?_, ?_, fun a hwork hacc => ?_⟩
  · rw [hcond.eq]; rfl
  · simp only [State.runLength, State.deff, hm, mul_one] at hlen hpass
    exact ⟨BitVec.eq_of_toNat_eq hlen, hpass⟩
  · simp only [State.runLength, State.deff, hm, Nat.mul_div_mul_left _ _ Nat.two_pos] at hlen hpass
    exact ⟨hlen, hpass⟩
  · simp only [State.runLength, State.deff, hm] at hlen hpass
    exact ⟨hlen, hpass⟩
  · exact (two_bins_le_runLength hc hfull).trans hlen.ge
  · rw [hcond.bins] at hframe
    exact (hframe a hacc).trans (hcond.frame a hwork)

end Sys2Proof.Machine

/-! How commands end (60_exceptions R300 to R310): the step that runs one, the order of its errors, what an error and a completion leave
in STATUS, and the model fault; each by whether the command passed its checks. -/

namespace Sys2Proof.Machine

/-! ## The step -/

theorem step_of_nil {s : State} (h : s.schedule = []) : step s = engineTurn s := by
  simp only [step, h]

theorem step_of_engine {s : State} {rest : List Event} (h : s.schedule = .engine :: rest) :
    step s = engineTurn { s with schedule := rest } := by
  simp only [step, h, runEvent]

/-- Settles O4: either schedule gives the engine its turn, and PENDING decodes to the command it encodes. -/
theorem stepRunsTheCommand : Obligations.StepRunsTheCommand := by
  intro s i hb hp
  have hd : decode s.pending = .ok i := by rw [hp, decode_encode]
  exact ⟨fun h => (step_of_nil h).trans (engineTurn_of_ok hb hd),
    fun rest h => (step_of_engine h).trans (engineTurn_of_ok (s := { s with schedule := rest }) hb hd)⟩

/-! ## STATUS after an error and after a completion -/

@[simp] theorem failed_status (s : State) (c : BitVec 4) : (failed s c).status = errStatus s.status c := rfl

@[simp] theorem errField_errStatus (w : Word) (c : BitVec 4) : errField (errStatus w c) = c := by
  simp [errStatus, doneStatus]

@[simp] theorem getFlag_errStatus (w : Word) (c : BitVec 4) (f : Flag) :
    getFlag (errStatus w c) f = ((decide (.done = f) || (decide (.errf = f) || getFlag w f)) && !decide (.busy = f)) := by
  simp [errStatus, doneStatus]

/-- An error changes no flag but ERRF, DONE and BUSY (R303). -/
theorem getFlag_errStatus_of_ne (w : Word) (c : BitVec 4) {f : Flag} (he : f ≠ .errf) (hd : f ≠ .done) (hb : f ≠ .busy) :
    getFlag (errStatus w c) f = getFlag w f := by
  simp [he.symm, hd.symm, hb.symm]

/-- Completion keeps the error code (R304). -/
theorem State.errField_complete (s : State) : errField s.complete.status = errField s.status := by simp

/-- Completion keeps ERRF (R304). -/
theorem State.errf_complete (s : State) : getFlag s.complete.status .errf = getFlag s.status .errf := by simp

/-- A command that passes its checks and completes leaves the error code and ERRF as they were (R302, R303). -/
theorem exec_passed_err {i : Instr} {s t : State} (h : ¬Rejected i s) (ht : exec i s = .next t) :
    errField t.status = errField s.status ∧ getFlag t.status .errf = getFlag s.status .errf := by
  obtain ⟨u, hu, rfl⟩ := exec_passed h ht
  have k := keeps_bodyOf hu
  exact ⟨u.errField_complete.trans k.err, u.errf_complete.trans (k.flags .errf (by simp))⟩

/-! ## Errors -/

/-- Settles O8: `reportsErrors` gives the order, and a command that passed keeps ERR and ERRF. -/
theorem errorsInOrder : Obligations.ErrorsInOrder :=
  fun i => ⟨reportsErrors i, fun _ _ => exec_passed_err⟩

/-- Settles O9: a check or the decoder that fails raises an assigned code, and STATUS after it is `errStatus`. -/
theorem preciseErrors : Obligations.PreciseErrors := by
  refine ⟨fun i s h => ?_, fun s e hb hd => ⟨errCode e, errCode_ne_zero e, engineTurn_of_error hb hd⟩, fun s c => ?_,
    fun i s t h ht => (exec_passed_err h ht).1, fun i s t f hf ht hclear hset hr => ?_⟩
  · obtain ⟨e, he⟩ := exec_rejected h
    exact ⟨errCode e, errCode_ne_zero e, he⟩
  · exact ⟨by simp, by simp, by simp, by simp, fun f => getFlag_errStatus_of_ne s.status c⟩
  · obtain ⟨e, he⟩ := exec_rejected hr
    cases he.symm.trans ht
    have hsame : getFlag (errStatus s.status (errCode e)) f = getFlag s.status f := by
      apply getFlag_errStatus_of_ne <;> rintro rfl <;> simp at hf
    rw [failed_status, hsame, hclear] at hset
    cases hset

/-! ## Acceptance, completion and ERRF -/

/-- A busy engine that completes has failed with an assigned code on a word that is no command or whose command is rejected, or run the
command whose word PENDING is and which passed its checks (R300, R304). -/
theorem busy_engineTurn_cases {s t : State} (hb : s.busy = true) (h : engineTurn s = .next t) :
    ((¬∃ i, s.pending = encode i ∧ ¬Rejected i s) ∧ ∃ e, t = failed s (errCode e)) ∨
    ∃ i, s.pending = encode i ∧ ¬Rejected i s ∧ exec i s = .next t := by
  have hdec : ∀ i, s.pending = encode i → decode s.pending = .ok i := fun i hi => by rw [hi, decode_encode]
  rcases engineTurn_cases s with ⟨hidle, -⟩ | ⟨-, e, hd, ht⟩ | ⟨-, i, hd, ht⟩
  · rw [hb] at hidle; cases hidle
  · refine .inl ⟨fun ⟨j, hj, _⟩ => ?_, e, ?_⟩
    · cases hd.symm.trans (hdec j hj)
    · cases ht.symm.trans h; exact raise_eq_failed s e
  · have hi : s.pending = encode i := (decoderIsExact.1 s.pending i).1 hd
    by_cases hr : Rejected i s
    · obtain ⟨e, he⟩ := exec_rejected hr
      refine .inl ⟨fun ⟨j, hj, hpass⟩ => ?_, e, ?_⟩
      · cases hd.symm.trans (hdec j hj); exact hpass hr
      · cases h.symm.trans (ht.trans he); rfl
    · exact .inr ⟨i, hi, hr, ht.symm.trans h⟩

/-- What an engine turn that completes leaves in STATUS, when acceptance left no error code (R304). -/
theorem engineTurn_completes {s t : State} (hb : s.busy = true) (h0 : errField s.status = 0) (h : engineTurn s = .next t) :
    getFlag t.status .done = true ∧ t.busy = false ∧
    (errField t.status = 0 ↔ ∃ i, s.pending = encode i ∧ ¬Rejected i s) ∧
    (getFlag t.status .errf = true ↔ getFlag s.status .errf = true ∨ errField t.status ≠ 0) := by
  rcases busy_engineTurn_cases hb h with ⟨hno, e, rfl⟩ | ⟨i, hi, hr, ht⟩
  · have herr : errField (failed s (errCode e)).status ≠ 0 := by
      rw [failed_status, errField_errStatus]; exact errCode_ne_zero e
    exact ⟨by simp, by simp [State.busy], iff_of_false herr hno, iff_of_true (by simp) (.inr herr)⟩
  · obtain ⟨herr, herrf⟩ := exec_passed_err hr ht
    obtain ⟨u, -, rfl⟩ := exec_passed hr ht
    have herr0 : errField u.complete.status = 0 := herr.trans h0
    refine ⟨by simp, u.busy_complete, iff_of_true herr0 ⟨i, hi, hr⟩, ?_⟩
    rw [herrf, herr0, ne_self_iff_false, or_false]

/-- The engine clears no ERRF (R304). -/
theorem engineTurn_errf {s t : State} (h : engineTurn s = .next t) (hs : getFlag s.status .errf = true) :
    getFlag t.status .errf = true := by
  obtain rfl | ⟨e, rfl⟩ | ⟨i, -, u, hu, rfl⟩ := engineTurn_next_cases h
  · exact hs
  · simp
  · rw [u.errf_complete, (keeps_bodyOf hu).flags .errf (by simp), hs]

/-- A register write changes ERRF only as a write of 1 to it in STATUS (R43). -/
theorem State.errf_writeReg (s : State) {r : Reg} {v : Word} (h : r = .status → v.getLsbD 2 = false) :
    getFlag (s.writeReg r v).status .errf = getFlag s.status .errf := by
  cases r with
  | status => simp only [State.writeReg, State.withStatus_status, getFlag_w1c, Flag.bit, h rfl, Bool.false_and, Bool.not_false,
      Bool.and_true]
  | cmd => simp [State.writeReg]
  | _ => rfl

/-- A bus write changes ERRF only as a write of 1 to it in STATUS (R43, R88, R350). -/
theorem busWrite_errf {s : State} {a v : Word} (h : a = 0x028 → v.getLsbD 2 = false) :
    getFlag (s.busWrite a v).status .errf = getFlag s.status .errf := by
  rcases busWrite_cases s a v with ⟨-, e⟩ | ⟨-, e⟩ | ⟨r, ht, -, e⟩ | ⟨-, -, e⟩ | ⟨-, -, e⟩ <;> rw [e]
  · simp
  · simp
  · exact s.errf_writeReg fun hr => h (by_contra fun hne => target_ne_reg ht rfl hne hr)
  · rw [State.withMem_status]

/-- A bus read leaves ERRF as it is (R86). -/
theorem busRead_errf (s : State) (a : Word) : getFlag (s.busRead a).status .errf = getFlag s.status .errf := by
  obtain ⟨w, n, e | ⟨-, e⟩⟩ := busRead_cases s a <;> rw [e]
  simp

/-- A set ERRF stays set over every step but a reset and a host write of 1 to it (R43, R304, R340). -/
theorem step_errf {s t : State} (h : step s = .next t) (hs : getFlag s.status .errf = true) :
    getFlag t.status .errf = true ∨
    ∃ rest, s.schedule = .reset :: rest ∨ ∃ v : Word, s.schedule = .write 0x028 v :: rest ∧ v.getLsbD 2 = true := by
  rcases step_next_cases h with ⟨-, e⟩ | ⟨rest, -, e⟩ | ⟨a, v, rest, hsched, rfl⟩ | ⟨a, rest, -, rfl⟩ | ⟨rest, hsched, -⟩
  · exact .inl (engineTurn_errf e hs)
  · exact .inl (engineTurn_errf e hs)
  · by_cases hw : a = 0x028 ∧ v.getLsbD 2 = true
    · obtain ⟨rfl, hv⟩ := hw
      exact .inr ⟨rest, .inr ⟨v, hsched, hv⟩⟩
    · exact .inl ((busWrite_errf fun ha => by simpa [ha] using hw).trans hs)
  · exact .inl ((busRead_errf _ a).trans hs)
  · exact .inr ⟨rest, .inl hsched⟩

/-- Settles O10: acceptance by the write to CMD, completion by the engine's turn, and ERRF event by event. -/
theorem completionReports : Obligations.CompletionReports := by
  refine ⟨fun s w hb => ?_, fun s t => engineTurn_completes, fun s t => step_errf⟩
  have haccept : s.busWrite 0x030 w = s.accept w := busWrite_regAt .cmd w hb rfl
  rw [haccept]
  exact ⟨by simp, s.busy_accept w⟩

/-! ## The model fault -/

/-- Settles O11: a rejected command raises an error; one that passed answers what its body answers, which is nothing exactly when an
operand is unwritten. -/
theorem uninitExactly : Obligations.UninitExactly := by
  intro i s hl
  by_cases hr : Rejected i s
  · obtain ⟨e, he⟩ := exec_rejected hr
    simp [he, hr]
  · have hnone := bodyOf_none_iff hl hr
    cases hb : bodyOf i s with
    | none =>
      have hunwritten := hnone.1 hb
      simp [exec_none hr hb, hr, hunwritten]
    | some u =>
      have hwritten : OperandsWritten i s := by_contra fun h => by rw [hnone.2 h] at hb; cases hb
      simp [exec_body hr hb, hwritten]

end Sys2Proof.Machine

/-! Reset, and the host's accesses while a command runs (70_reset_and_hazards R340, R350, R351): each access by what its address names
on a legal instance. -/

namespace Sys2Proof.Machine

/-! ## Reset -/

theorem step_of_reset {s : State} {rest : List Event} (h : s.schedule = .reset :: rest) :
    step s = .next (State.applyReset { s with schedule := rest }) := by
  simp only [step, h, runEvent]

@[simp] theorem State.busy_applyReset (s : State) : s.applyReset.busy = false := by
  rw [State.busy, State.applyReset_status]
  rfl

/-- After reset neither source raises IRQ and neither is enabled (R58, R340). -/
@[simp] theorem State.irq_applyReset (s : State) : s.applyReset.irq = false := by
  rw [State.irq, State.applyReset_status, State.applyReset_irqEn]
  rfl

/-- Settles O42: the step is `State.applyReset`, whose every field is that of the state after reset or one of those left out. -/
theorem resetStep : Obligations.ResetStep := fun _ _ h =>
  ⟨_, step_of_reset h, State.busy_applyReset _, State.irq_applyReset _, rfl⟩

/-! ## What an address names while a command runs -/

/-- On a legal instance an aligned address of the map below CTAB names a cell or its register (R82). -/
theorem target_below_ctab {p : Params} (hl : p.legal = true) {a : Word} (h4 : a.toNat % 4 = 0) (hin : inMap p a.toNat)
    (hlt : a.toNat < 0x60000000) : target p a = .ram ∨ target p a = .out ∨ ∃ r, target p a = .reg r := by
  rcases windowOf_cases hl a.toNat with ⟨hreg, -⟩ | ⟨-, -, -, e⟩ | ⟨hge, -⟩ | ⟨-, hout, -⟩
  · obtain ⟨r, hr⟩ := regAt_some h4 hreg
    exact .inr (.inr ⟨r, target_regAt p hr⟩)
  · rw [target_aligned p h4]
    exact e.imp_right .inl
  · omega
  · exact absurd hin hout

/-- STATUS and IRQ_EN alone take writes while BUSY = 1 (R350). -/
theorem writableBusy_of_regAt {n : Nat} {r : Reg} (h : regAt n = some r) (hs : n ≠ 0x028) (hi : n ≠ 0x02C) :
    r.writableBusy = false := by
  have hmap : ∀ n < 0x58, n ≠ 0x028 → n ≠ 0x02C → (regAt n).all (!·.writableBusy) = true := by decide
  simpa only [h, Option.all_some, Bool.not_eq_true'] using hmap n (regAt_lt h) hs hi

/-- WLEN, PASS_CNT and the result registers, which commands write, do not read as themselves while BUSY = 1 (R351). -/
theorem not_stable_of_regAt {n : Nat} {r : Reg} (h : regAt n = some r) (hn : n = 0x020 ∨ n = 0x024 ∨ 0x034 ≤ n) :
    r.stable = false := by
  have hmap : ∀ n < 0x58, n = 0x020 ∨ n = 0x024 ∨ 0x034 ≤ n → (regAt n).all (!·.stable) = true := by decide
  simpa only [h, Option.all_some, Bool.not_eq_true'] using hmap n (regAt_lt h) hn

/-! ## Accesses while a command runs -/

/-- Settles O44: below CTAB only STATUS and IRQ_EN take a write, and what is misaligned, unmapped or CTAB is a bus error. -/
theorem writesWhileBusy : Obligations.WritesWhileBusy := by
  intro s a v hl hb
  refine ⟨fun h4 hin hlt hs hi => ?_, fun h => ?_, busWrite_status s v, busWrite_irqEn s v⟩
  · refine busWrite_dropped v hb ((target_below_ctab hl h4 hin hlt).imp_right (Or.imp_right fun ⟨r, hr⟩ => ⟨r, hr, ?_⟩))
    exact writableBusy_of_regAt (regAt_of_target hr) (fun e => hs (BitVec.eq_of_toNat_eq e)) fun e => hi (BitVec.eq_of_toNat_eq e)
  · rcases or_assoc.2 h with hbad | hctab
    · exact busWrite_bad v ((target_bad_iff hl a).2 hbad)
    · exact busWrite_above v hl hctab

/-- Settles O45: the registers no command writes answer by the register map, and what a command may be writing answers a draw. -/
theorem readsWhileBusy : Obligations.ReadsWhileBusy := by
  intro s hl hb
  have hread : ∀ {a : Word} (r : Reg), r.stable = true → regAt a.toNat = some r → s.busRead a = s.answer (s.readReg r) :=
    fun r hr => busRead_regAt r (.inr hr)
  refine ⟨hread .id rfl rfl, hread .params rfl rfl, hread .status rfl rfl, hread .irqEn rfl rfl, hread .cfg rfl rfl,
    hread .ds rfl rfl, hread .crop rfl rfl, hread .fc rfl rfl, hread .fs rfl rfl, hread .len rfl rfl, busRead_cmd s,
    fun a h4 hin ha => ?_⟩
  refine busRead_draw hb ((target_below_ctab hl h4 hin (by omega)).imp_right (Or.imp_right fun ⟨r, hr⟩ => ⟨r, hr, ?_⟩))
  exact not_stable_of_regAt (regAt_of_target hr) (ha.imp_right (Or.imp_right And.left))

end Sys2Proof.Machine
